-- ==== Sys2Proof/Word.lean ====
section
/-! DEFINITION. The word and byte types: every register, delay-buffer slot and command word of the CORE is 32 bits
(00_scope.md R10, 10_state.md R31). -/

namespace Sys2Proof

/-- A register, a buffer slot or a command word: `u32`, or the encoding of an `f32` (00_scope.md R10, R11). -/
abbrev Word := BitVec 32

/-- One byte of a word on the little-endian register bus (20_memory.md R64). -/
abbrev Byte := BitVec 8

end Sys2Proof
end

