-- ==== Sys2Proof/Config.lean ====
section
/-! DEFINITION. What an implementation fixes: the types of the build parameters of 00_scope.md R7 and R9, and the free
values the spec leaves open. The values of the reference build stand in Sys2Proof/Machine/Build.lean. -/

namespace Sys2Proof

/-- The constants record `K` of 00_scope.md R9: every numeric literal of the source as a named binary32 field. -/
structure Consts where
  /-- `K.WOW_W` -/
  wowW : Word
  /-- `K.FLT_W1` -/
  fltW1 : Word
  /-- `K.FLT_W2` -/
  fltW2 : Word
  /-- `K.HALF` -/
  half : Word
  /-- `K.ONE` -/
  one : Word
  /-- `K.ALPHA` -/
  alpha : Word
  /-- `K.TONE` -/
  tone : Word
  /-- `K.TONE_KEEP` -/
  toneKeep : Word
  /-- `K.NOISE_AMP` -/
  noiseAmp : Word
  /-- `K.RATE_MIN` -/
  rateMin : Word
  /-- `K.RATE_SPAN` -/
  rateSpan : Word
  /-- `K.FLT_RATIO` -/
  fltRatio : Word
  /-- `K.TWO_PI` -/
  twoPi : Word
  /-- `K.DEPTH_SCALE` -/
  depthScale : Word
  /-- `K.RATE_DEF` -/
  rateDef : Word
  /-- `K.DEPTH_DEF` -/
  depthDef : Word
  /-- `K.MIX_DEF` -/
  mixDef : Word
  /-- `K.TWO` -/
  two : Word
deriving DecidableEq, Repr

/-- Which `SIN` a build has (00_scope.md R7, R22): the correctly rounded sine of the reference build, or another function,
of which nothing is known but the properties (a) to (d) of R22 (assumption 3). -/
inductive SineChoice where
  | reference
  | other (id : Nat)
deriving DecidableEq, Repr

/-- The build parameters a model takes as arguments (00_scope.md R6, R7). They are plain data in the state, which no event
changes, so that every statement over all states is a statement over all builds (assumption 2). -/
structure Build where
  /-- `N_FRAMES`, the capacity of the delay buffer in frames. -/
  nFrames : Nat
  /-- `LCG_A` -/
  lcgA : Word
  /-- `LCG_C` -/
  lcgC : Word
  /-- `NOISE_SEED` -/
  noiseSeed : Word
  /-- `SIN` -/
  sine : SineChoice
  /-- `BLOCK_BASE / 256`: the base is a multiple of 256 (20_memory.md R63). -/
  blockPage : Nat
  /-- `K` -/
  k : Consts
deriving DecidableEq, Repr

/-- The free sign and payload of the `n`-th NaN an operation yields (00_scope.md R18, 93_implementation_defined.md I1): bit 22
is the sign, bits 21:0 the payload below the quiet bit. No body: nothing is known of any value (assumption 4). -/
opaque Config.nanBits : Nat → BitVec 23

/-- The raw values of a sine function that is not the reference one (00_scope.md R22, 93_implementation_defined.md I2). No
body; `Sys2Proof.Machine.sine` imposes the properties (a) to (d) on it (assumption 3). -/
opaque Config.otherSine : Nat → Word → Word

end Sys2Proof
end

