-- ==== Sys2Proof/Machine/Build.lean ====
section
/-! DEFINITION. The values of the reference build (00_scope.md R7, R9) and the sizes derived from the build parameters. -/

namespace Sys2Proof.Machine

/-- The default value of every field of `K` (the table of 00_scope.md R9). -/
def referenceConsts : Consts where
  wowW := 0x3F4CCCCD
  fltW1 := 0x3E800000
  fltW2 := 0x3E4CCCCD
  half := 0x3F000000
  one := 0x3F800000
  alpha := 0x3E19999A
  tone := 0x3E4CCCCD
  toneKeep := 0x3F4CCCCD
  noiseAmp := 0x3B03126F
  rateMin := 0x3DCCCCCD
  rateSpan := 0x4039999A
  fltRatio := 0x41400000
  twoPi := 0x40C90FDB
  depthScale := 0x43C00000
  rateDef := 0x3F000000
  depthDef := 0x43100000
  mixDef := 0x3F000000
  two := 0x40000000

/-- The reference build of 00_scope.md R7. `blockPage` is OPEN there; 0 is the model's own value (assumption 12). -/
def referenceBuild : Build where
  nFrames := 1600
  lcgA := 1664525
  lcgC := 1013904223
  noiseSeed := 12345
  sine := .reference
  blockPage := 0
  k := referenceConsts

/-- `SR`, 48000.0, fixed (00_scope.md R7, 41_parameters.md R144). -/
def sampleRate : Word := 0x473B8000

/-- `L` = 2 × `N_FRAMES`, the length of the delay buffer in slots (00_scope.md R7, 43_delay_buffer.md R190). -/
def bufferLen (b : Build) : Nat := 2 * b.nFrames

/-- `BLOCK_BASE`, a multiple of 256 (20_memory.md R63). -/
def blockBase (b : Build) : Nat := 256 * b.blockPage

/-- The size of the register window in bytes (20_memory.md R63). -/
def windowSize : Nat := 256

/-- The legal ranges of the build parameters (the table of 00_scope.md R7). -/
def legalBuild (b : Build) : Bool :=
  decide (1 ≤ b.nFrames) && decide (b.nFrames ≤ 2 ^ 23) && decide (b.lcgA.toNat % 2 = 1) && decide (b.noiseSeed ≠ 0)

end Sys2Proof.Machine
end

