-- ==== Sys2Proof/Machine/Float.lean ====
section
/-! DEFINITION. IEEE 754 binary32 as the CORE computes it (00_scope.md R11, R16-R21): one rounding per operation, to nearest
with ties to even, subnormals kept, NaN results with a free sign and payload.

A finite value is a whole number of UNITS of 2^-149, the smallest subnormal. The MAGNITUDE of a word is its low 31 bits, read
as a number: it grows with the absolute value, so it also orders the values. Every operation forms its exact result as a
fraction of units and rounds it once, by `roundMag`. -/

namespace Sys2Proof.Machine

/-- The magnitude of +∞ and -∞. -/
def infMag : Nat := 0x7F800000

/-- The low 31 bits: exponent and fraction (00_scope.md R11). -/
def magOf (x : Word) : Nat := x.toNat % 2 ^ 31

/-- The sign, bit 31 (00_scope.md R11). -/
def signOf (x : Word) : Bool := decide (2 ^ 31 ≤ x.toNat)

/-- The word with this sign and magnitude. -/
def packFloat (neg : Bool) (mag : Nat) : Word := BitVec.ofNat 32 ((if neg then 2 ^ 31 else 0) + mag)

/-- A NaN: the exponent is all ones and the fraction is not zero (00_scope.md R11). -/
def isNaN (x : Word) : Bool := decide (infMag < magOf x)

/-- +∞ or -∞. -/
def isInf (x : Word) : Bool := decide (magOf x = infMag)

/-- +0 or -0. -/
def isZero (x : Word) : Bool := decide (magOf x = 0)

/-- Neither a NaN nor an infinity. -/
def isFinite (x : Word) : Bool := decide (magOf x < infMag)

/-- The absolute value of a finite word of magnitude `g`, in units of 2^-149. -/
def unitsOfMag (g : Nat) : Nat :=
  if g < 2 ^ 23 then g else (2 ^ 23 + g % 2 ^ 23) * 2 ^ (g / 2 ^ 23 - 1)

/-- The absolute value of a finite word, in units of 2^-149. -/
def unitsOf (x : Word) : Nat := unitsOfMag (magOf x)

/-- A finite word's value, in units of 2^-149. -/
def valueOf (x : Word) : Int := if signOf x then -(unitsOf x : Int) else (unitsOf x : Int)

/-- `n / d` rounded to the nearest natural number, ties to even. -/
def roundNearest (n d : Nat) : Nat :=
  n / d + (if d < 2 * (n % d) ∨ (2 * (n % d) = d ∧ n / d % 2 = 1) then 1 else 0)

/-- The magnitude of the binary32 value nearest `n / d` units, ties to even, overflow to infinity (00_scope.md R16, R19).
`2 ^ t` units are one ulp there; `t` is 0 for the subnormals, which are kept (R17). -/
def roundMag (n d : Nat) : Nat :=
  let t := Nat.log2 (n / d) - 23
  min infMag (t * 2 ^ 23 + roundNearest n (d * 2 ^ t))

/-- The quiet NaN of draw `k`: its sign and payload are free (00_scope.md R18). -/
def freeNaN (k : Nat) : Word :=
  let bits := (Config.nanBits k).toNat
  packFloat (decide (2 ^ 22 ≤ bits)) (infMag + 2 ^ 22 + bits % 2 ^ 22)

/-- The word with the sign bit turned over. -/
def negate (x : Word) : Word := packFloat (!signOf x) (magOf x)

/-- `fadd` (00_scope.md R16). An exact zero sum is +0, but for -0 + -0. `k` is the draw a NaN result takes. -/
def fadd (k : Nat) (a b : Word) : Word :=
  if isNaN a || isNaN b then freeNaN k
  else if isInf a then (if isInf b && signOf a != signOf b then freeNaN k else a)
  else if isInf b then b
  else
    let v := valueOf a + valueOf b
    if v = 0 then packFloat (signOf a && signOf b) 0 else packFloat (decide (v < 0)) (roundMag v.natAbs 1)

/-- `fsub` (00_scope.md R16): IEEE subtraction is addition of the negated operand. -/
def fsub (k : Nat) (a b : Word) : Word :=
  if isNaN b then freeNaN k else fadd k a (negate b)

/-- `fmul` (00_scope.md R16). -/
def fmul (k : Nat) (a b : Word) : Word :=
  let neg := signOf a != signOf b
  if isNaN a || isNaN b then freeNaN k
  else if isInf a || isInf b then (if isZero a || isZero b then freeNaN k else packFloat neg infMag)
  else packFloat neg (roundMag (unitsOf a * unitsOf b) (2 ^ 149))

/-- `fdiv` (00_scope.md R16). A finite value over zero is an infinity (R19: no trap). -/
def fdiv (k : Nat) (a b : Word) : Word :=
  let neg := signOf a != signOf b
  if isNaN a || isNaN b then freeNaN k
  else if isInf a then (if isInf b then freeNaN k else packFloat neg infMag)
  else if isInf b then packFloat neg 0
  else if isZero b then (if isZero a then freeNaN k else packFloat neg infMag)
  else packFloat neg (roundMag (unitsOf a * 2 ^ 149) (unitsOf b))

/-- The place of a word that is no NaN in the order of the reals; both zeros are at 0 (00_scope.md R20). -/
def orderKey (x : Word) : Int := if signOf x then -(magOf x : Int) else (magOf x : Int)

/-- `a < b`, false when either is a NaN (00_scope.md R20). -/
def flt (a b : Word) : Bool := !isNaN a && !isNaN b && decide (orderKey a < orderKey b)

/-- `a ≤ b`, false when either is a NaN (00_scope.md R20). -/
def fle (a b : Word) : Bool := !isNaN a && !isNaN b && decide (orderKey a ≤ orderKey b)

/-- `a == b`: NaN ≠ NaN, -0 == +0 (00_scope.md R20). -/
def feq (a b : Word) : Bool := !isNaN a && !isNaN b && decide (orderKey a = orderKey b)

/-- `u2f` and `nat2f`, exact below 2^24 (00_scope.md R21). Above, where no rule uses it, it rounds (assumption 20). -/
def nat2f (n : Nat) : Word := packFloat false (roundMag (n * 2 ^ 149) 1)

/-- `i2f`: the `i32` rounded to nearest, ties to even (00_scope.md R21). -/
def i2f (v : Int) : Word := packFloat (decide (v < 0)) (roundMag (v.natAbs * 2 ^ 149) 1)

/-- `floor_nat`, for `0 ≤ x < 2^23` (00_scope.md R21). Elsewhere, where no rule uses it, it is the floor of the absolute
value of the bits read as a finite number (assumption 20). -/
def floorNat (x : Word) : Nat := unitsOf x / 2 ^ 149

/-- `as_i32` (00_scope.md R21). -/
def asI32 (u : Word) : Int := if u.toNat < 2 ^ 31 then (u.toNat : Int) else (u.toNat : Int) - 2 ^ 32

/-- The word 2^-31. -/
def twoPowNeg31 : Word := 0x30000000

/-- `scale_pow2(x, -31)`: `fmul` with the exact power of two (00_scope.md R21). -/
def scalePow2Neg31 (k : Nat) (x : Word) : Word := fmul k x twoPowNeg31

end Sys2Proof.Machine
end

