-- ==== Sys2Proof/Machine/Filter.lean ====
section
/-! DEFINITION. The one-pole filter and the tone blend (spec/46_onepole.md). -/

namespace Sys2Proof.Machine

/-- `ONEPOLE(y, s)` (46_onepole.md R250), with the NaN draws `k` to `k + 2`. -/
def onePole (b : Build) (k : Nat) (y s : Word) : Word :=
  fadd (k + 2) y (fmul (k + 1) b.k.alpha (fsub k s y))

/-- `TILT(s, lp)` (46_onepole.md R253), with the NaN draws `k` to `k + 2`. -/
def tilt (b : Build) (k : Nat) (s lp : Word) : Word :=
  fadd (k + 2) (fmul k s b.k.toneKeep) (fmul (k + 1) lp b.k.tone)

end Sys2Proof.Machine
end

