-- ==== Sys2Proof/Machine/Sine.lean ====
section
/-! DEFINITION. `SIN`, the build's sine function (00_scope.md R7, R22). -/

namespace Sys2Proof.Machine

/-- The fraction bits of the fixed-point numbers below. -/
def sineFracBits : Nat := 320

/-- π/2 in fixed point, rounded down. -/
def halfPi : Nat := 0x1921fb54442d18469898cc51701b839a252049c1114cf98e804177d4c76273644a29410f31c6809bb

/-- The Taylor terms from `term` on, with alternating signs: `term` stands at the odd or even power whose next two factors
are `n + 1` and `n + 2`. -/
def sineSeries (sq : Nat) : (fuel n term : Nat) → Int
  | 0, _, _ => 0
  | fuel + 1, n, term =>
    (term : Int) - sineSeries sq fuel (n + 2) (term * sq / 2 ^ sineFracBits / ((n + 1) * (n + 2)))

/-- |sin| of a fixed-point angle in [0, π/2], by the Taylor series (48 terms leave less than 2^-320). -/
def sineQuadrant (r : Nat) : Nat := (sineSeries (r * r / 2 ^ sineFracBits) 48 1 r).toNat

/-- |cos| of a fixed-point angle in [0, π/2]. -/
def cosineQuadrant (r : Nat) : Nat := (sineSeries (r * r / 2 ^ sineFracBits) 48 0 (2 ^ sineFracBits)).toNat

/-- The correctly rounded sine of a finite word, the reference `SIN` (00_scope.md R7, R22). Below 2^-12 the nearest value is
the argument itself: the cubic term is under a quarter of its ulp. Above, the angle is reduced by quarter turns to 320
fraction bits and the result is rounded once (assumption 17). -/
def referenceSine (x : Word) : Word :=
  if magOf x < 0x39800000 then x
  else
    let angle := unitsOf x * 2 ^ (sineFracBits - 149)
    let quarter := angle / halfPi
    let r := angle % halfPi
    let v := if quarter % 2 = 0 then sineQuadrant r else cosineQuadrant r
    packFloat (signOf x != decide (2 ≤ quarter % 4)) (roundMag (v * 2 ^ 149) (2 ^ sineFracBits))

/-- A word of [-1, 1] as it is, any other moved to 1 or -1: property (b) of 00_scope.md R22. -/
def clampUnit (y : Word) : Word := if magOf y ≤ 0x3F800000 then y else packFloat (signOf y) 0x3F800000

/-- `SIN` of the build, with the four properties of 00_scope.md R22: (a) zeros are kept; (b) finite arguments give [-1, 1];
(c) infinities and NaNs give a NaN; (d) nothing but the argument (and a NaN's free payload) decides. -/
def sine (b : Build) (k : Nat) (x : Word) : Word :=
  if isNaN x || isInf x then freeNaN k
  else if isZero x then x
  else
    match b.sine with
    | .reference => clampUnit (referenceSine x)
    | .other id => clampUnit (Config.otherSine id x)

end Sys2Proof.Machine
end

