-- ==== Sys2Proof/Machine/Lfo.lean ====
section
/-! DEFINITION. The low-frequency oscillators and the modulation amount (spec/44_lfo.md). -/

namespace Sys2Proof.Machine

/-- `MOD_AMOUNT(pw, pf, d)` (44_lfo.md R213, R214), grouped as the rule groups it, with the NaN draws `k` to `k + 8`. -/
def modAmount (b : Build) (k : Nat) (pw pf d : Word) : Word :=
  let a := fmul (k + 1) (sine b k pw) b.k.wowW
  let f := fmul (k + 4) (fmul (k + 3) (sine b (k + 2) pf) b.k.fltW1) b.k.fltW2
  let u := fadd (k + 6) (fadd (k + 5) a f) b.k.one
  fmul (k + 8) (fmul (k + 7) u b.k.half) d

/-- `PHASE_STEP(p, inc)` (44_lfo.md R217, R218): one conditional subtraction, no wrap from below, with the NaN draws `k` and
`k + 1`. -/
def phaseStep (b : Build) (k : Nat) (p inc : Word) : Word :=
  let q := fadd k p inc
  if fle b.k.twoPi q then fsub (k + 1) q b.k.twoPi else q

end Sys2Proof.Machine
end

