-- ==== Sys2Proof/Machine/Noise.lean ====
section
/-! DEFINITION. The linear-congruential generator and the noise value (spec/47_prng.md). -/

namespace Sys2Proof.Machine

/-- `LCG_STEP`: `SEED × LCG_A + LCG_C` modulo 2^32 (47_prng.md R271, 00_scope.md R23). -/
def lcgStep (b : Build) (seed : Word) : Word := seed * b.lcgA + b.lcgC

/-- `UNIFORM(s)` (47_prng.md R272), with the NaN draw `k` (never used: an integer is no NaN). -/
def uniform (k : Nat) (s : Word) : Word := scalePow2Neg31 k (i2f (asI32 s))

/-- The value of `NOISE()` once `SEED` has been stepped to `s` (47_prng.md R273), with the NaN draws `k` and `k + 1`. -/
def noiseValue (b : Build) (k : Nat) (s : Word) : Word := fmul (k + 1) (uniform k s) b.k.noiseAmp

end Sys2Proof.Machine
end

