-- ==== Sys2Proof/Syntax.lean ====
section
/-! DEFINITION. The commands of the CORE: one constructor per row of spec/opcode_table.json (30_encoding.md R91, R92, R94). -/

namespace Sys2Proof

/-- A command. No command carries a data operand (30_encoding.md R98): the only operands are the reserved selector values
that one table row covers, the 4-bit `IDX` of SETP.IGN and the 4-bit `OP` of RSVD. -/
inductive Instr where
  /-- NOP, `OP` 0 (R120). -/
  | nop
  /-- INIT, `OP` 1 (R121). -/
  | init
  /-- PROCESS, `OP` 2 (R162). -/
  | process
  /-- SETP.RATE, `OP` 3, `IDX` 0 (R143). -/
  | setpRate
  /-- SETP.DEPTH, `OP` 3, `IDX` 1 (R146). -/
  | setpDepth
  /-- SETP.MIX, `OP` 3, `IDX` 2 (R147). -/
  | setpMix
  /-- SETP.IGN, the table row of `IDX` 3 (R148). -/
  | setpIgn3
  /-- SETP.IGN, the table row of `IDX` 4 to 7 (R148). -/
  | setpIgn4 (idx : BitVec 4)
  /-- SETP.IGN, the table row of `IDX` 8 to 15 (R148). -/
  | setpIgn8 (idx : BitVec 4)
  /-- SUSPEND, `OP` 4 (R126). -/
  | suspend
  /-- RESUME, `OP` 5 (R127). -/
  | resume
  /-- RSVD, the table row of `OP` 6 and 7 (R95). -/
  | rsvd6 (op : BitVec 4)
  /-- RSVD, the table row of `OP` 8 to 15 (R95). -/
  | rsvd8 (op : BitVec 4)
deriving DecidableEq, Repr

end Sys2Proof
end

