-- ==== Sys2Proof/WellFormed.lean ====
section
/-! DEFINITION. Which terms of `Instr` a command word can stand for: the selector value lies in its table row
(spec/opcode_table.json; 30_encoding.md R91, R92). -/

namespace Sys2Proof

/-- The operand lies in the range of the constructor's table row. -/
def Instr.wellFormed : Instr → Bool
  | .nop | .init | .process | .setpRate | .setpDepth | .setpMix | .setpIgn3 | .suspend | .resume => true
  | .setpIgn4 idx => decide (4 ≤ idx.toNat ∧ idx.toNat ≤ 7)
  | .setpIgn8 idx => decide (8 ≤ idx.toNat)
  | .rsvd6 op => decide (6 ≤ op.toNat ∧ op.toNat ≤ 7)
  | .rsvd8 op => decide (8 ≤ op.toNat)

end Sys2Proof
end

