-- ==== Sys2Proof/Decode.lean ====
section
/-! DEFINITION. Decoding and encoding of command words (30_encoding.md R90-R99). The decoder is total on words, since every
word is a command (R94, R96); on bytes it rejects, by name, fewer than the four bytes of one word (20_memory.md R67). -/

namespace Sys2Proof

/-- The field `OP`, bits 3:0 (30_encoding.md R90). -/
def opField (w : Word) : BitVec 4 := w.extractLsb' 0 4

/-- The field `IDX`, bits 7:4 (30_encoding.md R90). -/
def idxField (w : Word) : BitVec 4 := w.extractLsb' 4 4

/-- The SETP row that an `IDX` selects (30_encoding.md R92, 41_parameters.md R142). -/
def decodeSetp (idx : BitVec 4) : Instr :=
  match idx.toNat with
  | 0 => .setpRate
  | 1 => .setpDepth
  | 2 => .setpMix
  | 3 => .setpIgn3
  | n => if n < 8 then .setpIgn4 idx else .setpIgn8 idx

/-- The command a 32-bit word selects; the ignored bits are not looked at (30_encoding.md R93, R94). -/
def decodeWord (w : Word) : Instr :=
  match (opField w).toNat with
  | 0 => .nop
  | 1 => .init
  | 2 => .process
  | 3 => decodeSetp (idxField w)
  | 4 => .suspend
  | 5 => .resume
  | n => if n < 8 then .rsvd6 (opField w) else .rsvd8 (opField w)

/-- Why bytes are not a command word. -/
inductive DecodeError where
  /-- Fewer than four bytes: a narrow access executes no command (20_memory.md R67, R68). -/
  | narrow (got : Nat)
deriving DecidableEq, Repr

/-- Byte `j` of a word: bits `8j+7 : 8j` lie at offset `+j` (20_memory.md R64). -/
def wordByte (w : Word) (j : Nat) : Byte := w.extractLsb' (8 * j) 8

/-- The four bytes of a word, the lowest address first (20_memory.md R64). -/
def wordBytes (w : Word) : List Byte := [wordByte w 0, wordByte w 1, wordByte w 2, wordByte w 3]

/-- The word whose bytes are `b0` (lowest address) to `b3` (20_memory.md R64). -/
def joinBytes (b0 b1 b2 b3 : Byte) : Word := b3 ++ b2 ++ b1 ++ b0

/-- Decode the bytes of a `CMD` write, lowest address first, and give back the bytes after the command word. -/
def decode : List Byte → Except DecodeError (Instr × List Byte)
  | b0 :: b1 :: b2 :: b3 :: rest => .ok (decodeWord (joinBytes b0 b1 b2 b3), rest)
  | bs => .error (.narrow bs.length)

/-- The canonical command word: every ignored bit zero (30_encoding.md R99). -/
def encode : Instr → Word
  | .nop => 0x00000000
  | .init => 0x00000001
  | .process => 0x00000002
  | .setpRate => 0x00000003
  | .setpDepth => 0x00000013
  | .setpMix => 0x00000023
  | .setpIgn3 => 0x00000033
  | .setpIgn4 idx => BitVec.ofNat 32 (3 + 16 * idx.toNat)
  | .setpIgn8 idx => BitVec.ofNat 32 (3 + 16 * idx.toNat)
  | .suspend => 0x00000004
  | .resume => 0x00000005
  | .rsvd6 op => BitVec.ofNat 32 op.toNat
  | .rsvd8 op => BitVec.ofNat 32 op.toNat

/-- The bytes of the canonical command word, lowest address first. -/
def encodeBytes (i : Instr) : List Byte := wordBytes (encode i)

/-- One row of spec/opcode_table.json: a word belongs to it when its bits under the mask are the match. -/
structure OpcodeRow where
  mnemonic : String
  mask : Word
  pattern : Word
deriving DecidableEq, Repr

/-- The word belongs to the row. -/
def OpcodeRow.covers (r : OpcodeRow) (w : Word) : Bool := w &&& r.mask == r.pattern

/-- The 13 rows of spec/opcode_table.json, in its order. -/
def opcodeTable : List OpcodeRow :=
  [ ⟨"NOP", 0x0000000F, 0x00000000⟩, ⟨"INIT", 0x0000000F, 0x00000001⟩, ⟨"PROCESS", 0x0000000F, 0x00000002⟩,
    ⟨"SETP.RATE", 0x000000FF, 0x00000003⟩, ⟨"SETP.DEPTH", 0x000000FF, 0x00000013⟩, ⟨"SETP.MIX", 0x000000FF, 0x00000023⟩,
    ⟨"SETP.IGN", 0x000000FF, 0x00000033⟩, ⟨"SETP.IGN", 0x000000CF, 0x00000043⟩, ⟨"SETP.IGN", 0x0000008F, 0x00000083⟩,
    ⟨"SUSPEND", 0x0000000F, 0x00000004⟩, ⟨"RESUME", 0x0000000F, 0x00000005⟩,
    ⟨"RSVD", 0x0000000E, 0x00000006⟩, ⟨"RSVD", 0x00000008, 0x00000008⟩ ]

/-- The place in `opcodeTable` of the row a constructor stands for. -/
def Instr.tableRow : Instr → Nat
  | .nop => 0
  | .init => 1
  | .process => 2
  | .setpRate => 3
  | .setpDepth => 4
  | .setpMix => 5
  | .setpIgn3 => 6
  | .setpIgn4 _ => 7
  | .setpIgn8 _ => 8
  | .suspend => 9
  | .resume => 10
  | .rsvd6 _ => 11
  | .rsvd8 _ => 12

/-- The instruction the decoder reads from the table word `w` of `nbits` bits: its bytes as the little-endian bus carries
them, every bit above `nbits` zero. -/
def decodeTableWord (nbits w : Nat) : Option Instr :=
  match decode (wordBytes (BitVec.ofNat 32 (w % 2 ^ nbits))) with
  | .ok (i, _) => some i
  | .error _ => none

end Sys2Proof
end

