-- ==== Sys2Proof/Machine/State.lean ====
section
/-! DEFINITION. The state of the CORE: every register of 10_state.md R31, the delay buffer of R48, the build parameters of
00_scope.md R7, and the model's own fields (the bus order, the last reply, the NaN draw counter). -/

namespace Sys2Proof.Machine

/-- The two host callers (20_memory.md R75). -/
inductive Caller where
  | audio
  | control
deriving DecidableEq, Repr

/-- The direction of a host access, and the data word of a write (20_memory.md R66). -/
inductive AccessKind where
  | read
  | write (data : Word)
deriving DecidableEq, Repr

/-- One host access: who makes it, the bus byte address, the size in bytes, and the direction (20_memory.md R66-R68). -/
structure Access where
  caller : Caller
  addr : Nat
  size : Nat
  kind : AccessKind
deriving DecidableEq, Repr

/-- An event of the bus order (20_memory.md R76): a host access, or the platform's reset, which discards the accesses
stalled at that moment (70_reset_and_hazards.md R340). -/
inductive HostEvent where
  | access (a : Access)
  | reset (stalled : List Access)
deriving DecidableEq, Repr

/-- What the bus answered to the last event (20_memory.md R66, R68): nothing yet or a reset, a completed write, the word
read, or the bus error response at an offset of the window. -/
inductive BusReply where
  | none
  | written (caller : Caller)
  | data (caller : Caller) (w : Word)
  | busFault (caller : Caller) (off : Nat)
deriving DecidableEq, Repr

/-- The delay buffer as (address, byte) pairs: slot `i` is the bytes `4i` to `4i+3` (assumption 8). An unlisted byte reads
0, the buffer's content after reset (10_state.md R48, R54). -/
abbrev Memory := List Host.Cell

/-- The one canonical form: addresses strictly rising, and no entry equal to the 0 that an unlisted address reads as. -/
def Memory.wf : Memory → Bool
  | [] => true
  | [c] => decide (c.2 ≠ 0)
  | c :: d :: m => decide (c.2 ≠ 0) && decide (c.1 < d.1) && Memory.wf (d :: m)

/-- Why a step stops with a fault. Neither is an event the CORE reports; the CORE's own range fault and bus fault are next
states (assumptions 6 and 7). -/
inductive Fault where
  /-- A bus access at an address outside the register window. The spec gives the CORE no register there (20_memory.md R60,
  R63). Raised by the bus; safe: the model stops where the access concerns another device. -/
  | outsideWindow (addr : Nat)
  /-- PROCESS would use a buffer slot that does not exist. No rule ever forms such an index (00_scope.md R13), so this is
  reached only from states or builds that the spec excludes. Raised by PROCESS; safe: the model stops. -/
  | slotOutsideBuffer (widx : Nat)
deriving DecidableEq, Repr

/-- Why a step has no meaning. -/
inductive Refusal where
  /-- An instruction whose arm of `exec` has no meaning yet. No arm of this model raises it. Safe: the model stops. -/
  | notModelled (mnemonic : String)
deriving DecidableEq, Repr

/-- The state of the machine. -/
structure State where
  /-- The build parameters; no event changes them (00_scope.md R7; `build.nFrames` is the register `NFRAMES`, R49). -/
  build : Build
  /-- `STATUS` (R33). -/
  status : Word
  /-- `ARG0` (R34). -/
  arg0 : Word
  /-- `ARG1` (R35). -/
  arg1 : Word
  /-- `IN_L` (R36). -/
  inL : Word
  /-- `IN_R` (R36). -/
  inR : Word
  /-- `OUT_L` (R37). -/
  outL : Word
  /-- `OUT_R` (R37). -/
  outR : Word
  /-- `RATE` (R38). -/
  rate : Word
  /-- `WOW_INC` (R39). -/
  wowInc : Word
  /-- `FLT_INC` (R40). -/
  fltInc : Word
  /-- `DEPTH` (R41). -/
  depth : Word
  /-- `MIX` (R42). -/
  mix : Word
  /-- `WOW_PHASE` (R43). -/
  wowPhase : Word
  /-- `FLT_PHASE` (R43). -/
  fltPhase : Word
  /-- `LP_L` (R44). -/
  lpL : Word
  /-- `LP_R` (R44). -/
  lpR : Word
  /-- `SEED` (R46). -/
  seed : Word
  /-- `WIDX` (R47). -/
  widx : Word
  /-- The delay buffer (R48). -/
  buf : Memory
  /-- MODEL: the events still to come, in bus order (20_memory.md R76; assumption 1). -/
  bus : List HostEvent
  /-- MODEL: the bus's answer to the last event (20_memory.md R66, R68; assumption 15). -/
  reply : BusReply
  /-- MODEL: how many NaN draws have been used (00_scope.md R18; assumption 4). -/
  draws : Nat
deriving DecidableEq, Repr

/-- The machine right after reset, as the reference build: the "after reset" column of 10_state.md R54. The CORE is idle:
no event is pending (20_memory.md R73). -/
def State.reset : State where
  build := referenceBuild
  status := 0x00000000
  arg0 := 0x00000000
  arg1 := 0x00000000
  inL := 0x00000000
  inR := 0x00000000
  outL := 0x00000000
  outR := 0x00000000
  rate := 0x3F000000
  wowInc := 0x3889421F
  fltInc := 0x3A4DE32E
  depth := 0x43100000
  mix := 0x3F000000
  wowPhase := 0x00000000
  fltPhase := 0x00000000
  lpL := 0x00000000
  lpR := 0x00000000
  seed := 0x00003039
  widx := 0x00000000
  buf := []
  bus := []
  reply := .none
  draws := 0

end Sys2Proof.Machine
end

