-- ==== Sys2Proof/Machine/Flags.lean ====
section
/-! DEFINITION. The only status bits of the CORE, `STATUS.FAULT` and `STATUS.CAUSE` (10_state.md R33, R51). -/

namespace Sys2Proof.Machine

/-- The causes of a range fault (60_exceptions.md R301). -/
inductive RangeCause where
  /-- `RPOS_NAN` -/
  | rposNaN
  /-- `RPOS_HIGH` -/
  | rposHigh
  /-- `WRAP_STALL` -/
  | wrapStall
deriving DecidableEq, Repr

/-- The code of a cause in `STATUS.CAUSE` (60_exceptions.md R301). -/
def causeCode : RangeCause → Nat
  | .rposNaN => 1
  | .rposHigh => 2
  | .wrapStall => 3

/-- `STATUS.FAULT`, bit 0 (10_state.md R33). -/
def faultBit (status : Word) : Bool := status.getLsbD 0

/-- `STATUS.CAUSE`, bits 7:4 (10_state.md R33). -/
def causeField (status : Word) : BitVec 4 := status.extractLsb' 4 4

/-- `STATUS` with `FAULT` = 1 and the cause's code; the reserved bits are always 0 (10_state.md R33, 60_exceptions.md R302). -/
def statusOfFault (c : RangeCause) : Word := BitVec.ofNat 32 (16 * causeCode c + 1)

/-- The legal values of `STATUS` (10_state.md R33): no fault recorded, or one of the three causes. -/
def statusLegal (status : Word) : Bool :=
  status == 0 || status == statusOfFault .rposNaN || status == statusOfFault .rposHigh || status == statusOfFault .wrapStall

end Sys2Proof.Machine
end

