-- ==== Sys2Proof/Machine/Ops.lean ====
section
/-! DEFINITION. The named operations over memory and registers: the delay buffer's slots, the register window, recording and
clearing a range fault, and the engine's initial values. -/

namespace Sys2Proof.Machine

/-! ## The delay buffer -/

/-- The byte at an address; an unlisted byte reads 0. -/
def readByte : Memory → Nat → Byte
  | [], _ => 0
  | (a, v) :: m, x => if a = x then v else readByte m x

/-- The byte at an address set, in the canonical form: storing 0 lists nothing. -/
def writeByte : Memory → Nat → Byte → Memory
  | [], x, v => if v = 0 then [] else [(x, v)]
  | (a, u) :: m, x, v =>
    if x < a then (if v = 0 then (a, u) :: m else (x, v) :: (a, u) :: m)
    else if x = a then (if v = 0 then m else (x, v) :: m)
    else (a, u) :: writeByte m x v

/-- `MemRead(i, 4)` (00_scope.md R13). -/
def memRead (m : Memory) (i : Nat) : Word :=
  joinBytes (readByte m (4 * i)) (readByte m (4 * i + 1)) (readByte m (4 * i + 2)) (readByte m (4 * i + 3))

/-- `MemWrite(i, 4, v)`: every bit of `v` is stored unchanged (00_scope.md R13). -/
def memWrite (m : Memory) (i : Nat) (v : Word) : Memory :=
  writeByte (writeByte (writeByte (writeByte m (4 * i) (wordByte v 0)) (4 * i + 1) (wordByte v 1))
    (4 * i + 2) (wordByte v 2)) (4 * i + 3) (wordByte v 3)

/-- The slot exists: `0 ≤ i < L` (00_scope.md R12, R13). -/
def slotExists (b : Build) (i : Nat) : Bool := decide (i < bufferLen b)

/-! ## The register window -/

/-- The registers of 10_state.md R31. -/
inductive Reg where
  | cmd | status | arg0 | arg1 | inL | inR | outL | outR | rate | wowInc | fltInc | depth | mix
  | wowPhase | fltPhase | lpL | lpR | seed | widx | nframes
deriving DecidableEq, Repr

/-- The access codes of 10_state.md R31; `roStar` is `RO*`. -/
inductive RegAccess where
  | wo | ro | rw | roStar
deriving DecidableEq, Repr

/-- The byte offset of a register (10_state.md R31). -/
def regOffset : Reg → Nat
  | .cmd => 0x00
  | .status => 0x04
  | .arg0 => 0x08
  | .arg1 => 0x0C
  | .inL => 0x10
  | .inR => 0x14
  | .outL => 0x18
  | .outR => 0x1C
  | .rate => 0x20
  | .wowInc => 0x24
  | .fltInc => 0x28
  | .depth => 0x2C
  | .mix => 0x30
  | .wowPhase => 0x34
  | .fltPhase => 0x38
  | .lpL => 0x3C
  | .lpR => 0x40
  | .seed => 0x44
  | .widx => 0x48
  | .nframes => 0x4C

/-- The access code of a register (10_state.md R31). -/
def regAccess : Reg → RegAccess
  | .cmd => .wo
  | .arg0 | .arg1 | .inL | .inR => .rw
  | .nframes => .ro
  | .status | .outL | .outR | .rate | .wowInc | .fltInc | .depth | .mix
  | .wowPhase | .fltPhase | .lpL | .lpR | .seed | .widx => .roStar

/-- The register at an aligned offset; none at the reserved offsets (20_memory.md R63, R69). -/
def regAt (off : Nat) : Option Reg :=
  match off / 4 with
  | 0 => some .cmd
  | 1 => some .status
  | 2 => some .arg0
  | 3 => some .arg1
  | 4 => some .inL
  | 5 => some .inR
  | 6 => some .outL
  | 7 => some .outR
  | 8 => some .rate
  | 9 => some .wowInc
  | 10 => some .fltInc
  | 11 => some .depth
  | 12 => some .mix
  | 13 => some .wowPhase
  | 14 => some .fltPhase
  | 15 => some .lpL
  | 16 => some .lpR
  | 17 => some .seed
  | 18 => some .widx
  | 19 => some .nframes
  | _ => none

/-- What a host read of the register returns: its bits unchanged (20_memory.md R65); `CMD` reads 0 (R70); `NFRAMES` is
hardwired (10_state.md R49). -/
def readReg (r : Reg) (s : State) : Word :=
  match r with
  | .cmd => 0
  | .status => s.status
  | .arg0 => s.arg0
  | .arg1 => s.arg1
  | .inL => s.inL
  | .inR => s.inR
  | .outL => s.outL
  | .outR => s.outR
  | .rate => s.rate
  | .wowInc => s.wowInc
  | .fltInc => s.fltInc
  | .depth => s.depth
  | .mix => s.mix
  | .wowPhase => s.wowPhase
  | .fltPhase => s.fltPhase
  | .lpL => s.lpL
  | .lpR => s.lpR
  | .seed => s.seed
  | .widx => s.widx
  | .nframes => BitVec.ofNat 32 s.build.nFrames

/-- What a host write of the register stores: only the RW registers take it (20_memory.md R66, R70). A write to `CMD` stores
nothing (10_state.md R32); the command it executes is `Sys2Proof.Machine.busAccess`'s. -/
def writeReg (r : Reg) (w : Word) (s : State) : State :=
  match r with
  | .arg0 => { s with arg0 := w }
  | .arg1 => { s with arg1 := w }
  | .inL => { s with inL := w }
  | .inR => { s with inR := w }
  | .cmd | .status | .outL | .outR | .rate | .wowInc | .fltInc | .depth | .mix
  | .wowPhase | .fltPhase | .lpL | .lpR | .seed | .widx | .nframes => s

/-- A read of an aligned offset of the window: 0 at `CMD` and the reserved offsets (20_memory.md R66, R69, R70). -/
def readOffset (off : Nat) (s : State) : Word :=
  match regAt off with
  | some r => readReg r s
  | none => 0

/-- A write of an aligned offset of the window other than `CMD`'s (20_memory.md R66, R69, R70). -/
def writeOffset (off : Nat) (w : Word) (s : State) : State :=
  match regAt off with
  | some r => writeReg r w s
  | none => s

/-- The byte a register shows at a bus address of the window: bits 7:0 at the register's own offset, bits 31:24 at offset + 3
(20_memory.md R64). -/
def windowByte (addr : Nat) (s : State) : Byte :=
  wordByte (readOffset (addr - blockBase s.build) s) ((addr - blockBase s.build) % 4)

/-- The state with another last reply. -/
def State.withReply (s : State) (r : BusReply) : State := { s with reply := r }

/-- The state with other pending events. -/
def State.withBus (s : State) (es : List HostEvent) : State := { s with bus := es }

/-- The state after `n` more NaN draws (00_scope.md R18). -/
def State.useDraws (s : State) (n : Nat) : State := { s with draws := s.draws + n }

/-! ## Recording a range fault, and clearing it -/

/-- `raise RangeFault(k)`: `STATUS.FAULT` and `STATUS.CAUSE` are written and nothing else changes (00_scope.md R14,
60_exceptions.md R302). This is all the fault entry the CORE has (R309). -/
def recordRangeFault (c : RangeCause) (s : State) : State := { s with status := statusOfFault c }

/-- `STATUS` cleared. Only INIT and reset do so; there is no return from a fault (60_exceptions.md R305, R310). -/
def clearRangeFault (s : State) : State := { s with status := 0 }

/-! ## The coefficients and the engine's initial state -/

/-- `RATE_INCS(r)`, the wow increment (41_parameters.md R144), with the NaN draws `k` and `k + 1`. -/
def wowIncOf (b : Build) (k : Nat) (r : Word) : Word :=
  fdiv (k + 1) (fmul k b.k.twoPi r) sampleRate

/-- `RATE_INCS(r)`, the flutter increment (41_parameters.md R144), with the NaN draws `k` to `k + 2`. -/
def fltIncOf (b : Build) (k : Nat) (r : Word) : Word :=
  fdiv (k + 2) (fmul (k + 1) b.k.twoPi (fmul k r b.k.fltRatio)) sampleRate

/-- `RATE`, `WOW_INC` and `FLT_INC` written together (41_parameters.md R142-R144), with the NaN draws `k` to `k + 4`. -/
def storeRate (k : Nat) (r : Word) (s : State) : State :=
  { s with rate := r, wowInc := wowIncOf s.build k r, fltInc := fltIncOf s.build (k + 2) r }

/-- `DEPTH` written (41_parameters.md R146). -/
def storeDepth (d : Word) (s : State) : State := { s with depth := d }

/-- `MIX` written (41_parameters.md R147). -/
def storeMix (m : Word) (s : State) : State := { s with mix := m }

/-- The NaN draws that INIT may use. -/
def initDraws : Nat := 5

/-- The engine state of INIT and reset (40_lifecycle.md R121, 10_state.md R54). The host's registers are kept; NaN draws are
never used twice (assumption 4). -/
def initEngine (s : State) : State :=
  { clearRangeFault (storeMix s.build.k.mixDef (storeDepth s.build.k.depthDef (storeRate s.draws s.build.k.rateDef s))) with
    buf := []
    widx := 0
    wowPhase := 0
    fltPhase := 0
    lpL := 0
    lpR := 0
    seed := s.build.noiseSeed
    outL := 0
    outR := 0
    draws := s.draws + initDraws }

/-- Hardware reset (70_reset_and_hazards.md R340, R341): the engine state of INIT, the host's registers cleared, no reply. The
build parameters and the events still to come are not state of the CORE and stay. -/
def hardwareReset (s : State) : State :=
  { initEngine s with arg0 := 0, arg1 := 0, inL := 0, inR := 0, reply := .none }

end Sys2Proof.Machine
end

