-- ==== Sys2Proof/Machine/Operands.lean ====
section
/-! DEFINITION. The operands of the commands: fixed registers, read when the command executes (30_encoding.md R98, 20_memory.md
R82). -/

namespace Sys2Proof.Machine

/-- The value operand of SETP, `ARG0` as it is: no conversion, no clamp (41_parameters.md R140). -/
def setpValue (s : State) : Word := s.arg0

/-- The two channels, 0 (left) and 1 (right) (00_scope.md R7, R25). -/
inductive Channel where
  | left
  | right
deriving DecidableEq, Repr

/-- The channel's number, which is its slot's parity (20_memory.md R62). -/
def channelNumber : Channel → Nat
  | .left => 0
  | .right => 1

/-- `IN[c]`, the input sample of PROCESS (42_frame.md R162, R166). -/
def inputSample (s : State) : Channel → Word
  | .left => s.inL
  | .right => s.inR

end Sys2Proof.Machine
end

