-- ==== Sys2Proof/Machine/Delay.lean ====
section
/-! DEFINITION. The circular delay-buffer controller (spec/43_delay_buffer.md). -/

namespace Sys2Proof.Machine

/-- Step 1, the sample write: `MemWrite(W + c, 4, x)` (43_delay_buffer.md R191). -/
def sampleWrite (w : Nat) (c : Channel) (x : Word) (m : Memory) : Memory := memWrite m (w + channelNumber c) x

/-- `ADVANCE_W(W)` (43_delay_buffer.md R193). -/
def advanceW (b : Build) (w : Nat) : Nat := if bufferLen b ≤ w + 2 then 0 else w + 2

end Sys2Proof.Machine
end

