-- ==== Sys2Proof/Machine/Tap.lean ====
section
/-! DEFINITION. The fractional-delay reader and the linear interpolator (spec/45_interpolator.md). -/

namespace Sys2Proof.Machine

/-- The tap of a frame (45_interpolator.md R230): the older buffer frame, the newer one, and the newer one's weight. -/
structure Tap where
  older : Nat
  newer : Nat
  weight : Word
deriving DecidableEq, Repr

/-- The raw read position `W - mod × 2`, in slots (45_interpolator.md R231), with the NaN draws `k` and `k + 1`. -/
def rawPosition (b : Build) (k : Nat) (w : Nat) (mod : Word) : Word :=
  fsub (k + 1) (nat2f w) (fmul k mod b.k.two)

/-- The wrap loop (45_interpolator.md R232): add `len` while `r < 0`; none when an addition leaves `r` unchanged (R233). The
sum of a negative number and a finite one is no NaN, so the draw `k` is not used. `fuel` only bounds the recursion: with
`wrapFuel` of it the loop ends or stalls first (assumption 18). -/
def wrapLoop (k : Nat) (len : Word) : (fuel : Nat) → Word → Option Word
  | 0, _ => none
  | fuel + 1, r =>
    if flt r 0 then
      let r2 := fadd k r len
      if feq r2 r then none else wrapLoop k len fuel r2
    else some r

/-- More than the number of negative binary32 values: every addition that does not stall moves to a greater one. -/
def wrapFuel : Nat := 2 ^ 31

/-- The tap at a wrapped position `0 ≤ r ≤ L` (45_interpolator.md R235), with the NaN draws `k` and `k + 1`. -/
def tapAt (b : Build) (k : Nat) (r : Word) : Tap :=
  let p := fmul k r b.k.half
  let i := floorNat p
  let fr := fsub (k + 1) p (nat2f i)
  let i := if i = b.nFrames then 0 else i
  { older := i, newer := (i + 1) % b.nFrames, weight := fr }

/-- `READ_TAP(W, mod)` (45_interpolator.md R230-R235): the position, the wrap loop with its stall test, the NaN test and the
above-`L` test in that order (60_exceptions.md R307), then the buffer frames. NaN draws `k` to `k + 4`. -/
def readTap (b : Build) (k : Nat) (w : Nat) (mod : Word) : Except RangeCause Tap :=
  match wrapLoop (k + 2) (nat2f (bufferLen b)) wrapFuel (rawPosition b k w mod) with
  | none => .error .wrapStall
  | some r =>
    if isNaN r then .error .rposNaN
    else if flt (nat2f (bufferLen b)) r then .error .rposHigh
    else .ok (tapAt b (k + 3) r)

/-- The slot of buffer frame `i` that channel `c` uses (45_interpolator.md R235, 20_memory.md R62). -/
def slotOf (i : Nat) (c : Channel) : Nat := 2 * i + channelNumber c

/-- `INTERP(c, tap)` (45_interpolator.md R236), with the NaN draws `k` to `k + 3`. -/
def interp (b : Build) (k : Nat) (m : Memory) (c : Channel) (t : Tap) : Word :=
  let y0 := memRead m (slotOf t.older c)
  let y1 := memRead m (slotOf t.newer c)
  fadd (k + 3) (fmul (k + 1) y0 (fsub k b.k.one t.weight)) (fmul (k + 2) y1 t.weight)

end Sys2Proof.Machine
end

