-- ==== Sys2Proof/Machine/Frame.lean ====
section
/-! DEFINITION. PROCESS, one stereo frame (spec/42_frame.md). -/

namespace Sys2Proof.Machine

/-- `MIX_OUT(x, t, n, m)` (42_frame.md R185), with the NaN draws `k` to `k + 4`. -/
def mixOut (b : Build) (k : Nat) (x t n m : Word) : Word :=
  let wet := fadd k t n
  let dry := fmul (k + 2) (fsub (k + 1) b.k.one m) x
  fadd (k + 4) dry (fmul (k + 3) m wet)

/-- What one channel's steps 1 to 9 leave: the buffer, the filter state, the generator state and the output sample. -/
structure ChannelResult where
  buf : Memory
  lp : Word
  seed : Word
  out : Word
deriving DecidableEq, Repr

/-- The NaN draws of one channel. -/
def channelDraws : Nat := 17

/-- Steps 1 to 9 for one channel (42_frame.md R162, phase B): the sample write, the tap, the filter, the tone blend, the noise
and the mix, with the NaN draws `k` to `k + 16`. -/
def channelStep (b : Build) (k : Nat) (w : Nat) (t : Tap) (m : Word) (c : Channel) (x lp seed : Word) (buf : Memory) :
    ChannelResult :=
  let buf := sampleWrite w c x buf
  let s := interp b k buf c t
  let lp := onePole b (k + 4) lp s
  let tl := tilt b (k + 7) s lp
  let seed := lcgStep b seed
  let n := noiseValue b (k + 10) seed
  { buf := buf, lp := lp, seed := seed, out := mixOut b (k + 12) x tl n m }

/-- Phase A of PROCESS (42_frame.md R162-R164): the modulation amount and the tap, from `WOW_PHASE`, `FLT_PHASE`, `DEPTH` and
`WIDX` alone, with the first 14 NaN draws. -/
def frameTap (s : State) : Except RangeCause Tap :=
  readTap s.build (s.draws + 9) s.widx.toNat (modAmount s.build s.draws s.wowPhase s.fltPhase s.depth)

/-- Channel 0's result (42_frame.md R162, R165). -/
def leftResult (s : State) (t : Tap) : ChannelResult :=
  channelStep s.build (s.draws + 14) s.widx.toNat t s.mix .left (inputSample s .left) s.lpL s.seed s.buf

/-- Channel 1's result: it takes over the buffer and the generator state that channel 0 leaves (42_frame.md R165). -/
def rightResult (s : State) (t : Tap) : ChannelResult :=
  let l := leftResult s t
  channelStep s.build (s.draws + 14 + channelDraws) s.widx.toNat t s.mix .right (inputSample s .right) s.lpR l.seed l.buf

/-- The NaN draws of one frame. -/
def frameDraws : Nat := 14 + 2 * channelDraws + 4

/-- Phases B and C of PROCESS (42_frame.md R162, R187): both channels' results, then the write index and both phases. -/
def finishFrame (s : State) (t : Tap) : State :=
  let l := leftResult s t
  let r := rightResult s t
  { s with
    buf := r.buf
    lpL := l.lp
    lpR := r.lp
    outL := l.out
    outR := r.out
    seed := r.seed
    widx := BitVec.ofNat 32 (advanceW s.build s.widx.toNat)
    wowPhase := phaseStep s.build (s.draws + 14 + 2 * channelDraws) s.wowPhase s.wowInc
    fltPhase := phaseStep s.build (s.draws + 16 + 2 * channelDraws) s.fltPhase s.fltInc
    draws := s.draws + frameDraws }

/-- Every slot the frame writes or reads exists (00_scope.md R13). With a legal build and the `WIDX` of 10_state.md R47 it
always holds. -/
def frameSlotsExist (b : Build) (w : Nat) (t : Tap) : Bool :=
  slotExists b (w + 1) && slotExists b (slotOf t.older .right) && slotExists b (slotOf t.newer .right)

/-- PROCESS (42_frame.md R160-R163): ignored while `STATUS.FAULT` = 1; a range fault writes `STATUS` and nothing else; else
one frame. -/
def execProcess (s : State) : Host.Outcome State Fault Refusal :=
  if faultBit s.status then .next s
  else
    match frameTap s with
    | .error c => .next (recordRangeFault c s)
    | .ok t =>
      if frameSlotsExist s.build s.widx.toNat t then .next (finishFrame s t)
      else .fault (.slotOutsideBuffer s.widx.toNat)

end Sys2Proof.Machine
end

