-- ==== Sys2Proof/Machine/Lifecycle.lean ====
section
/-! DEFINITION. The lifecycle commands and the reserved opcodes (spec/40_lifecycle.md, 30_encoding.md R95). -/

namespace Sys2Proof.Machine

/-- No operation: no state changes. -/
def noOperation (s : State) : Host.Outcome State Fault Refusal := .next s

/-- NOP (40_lifecycle.md R120). -/
def execNop (s : State) : Host.Outcome State Fault Refusal := noOperation s

/-- INIT (40_lifecycle.md R121-R125): the engine state of 10_state.md R54; `ARG0`, `ARG1`, `IN_L`, `IN_R` are kept, and no bit
of `ARG0` or `ARG1` matters. -/
def execInit (s : State) : Host.Outcome State Fault Refusal := .next (initEngine s)

/-- SUSPEND (40_lifecycle.md R126). -/
def execSuspend (s : State) : Host.Outcome State Fault Refusal := noOperation s

/-- RESUME (40_lifecycle.md R127). -/
def execResume (s : State) : Host.Outcome State Fault Refusal := noOperation s

/-- RSVD, `OP` 6 and 7: as NOP (30_encoding.md R95). -/
def execRsvd6 (_op : BitVec 4) (s : State) : Host.Outcome State Fault Refusal := noOperation s

/-- RSVD, `OP` 8 to 15: as NOP (30_encoding.md R95). -/
def execRsvd8 (_op : BitVec 4) (s : State) : Host.Outcome State Fault Refusal := noOperation s

end Sys2Proof.Machine
end

