-- ==== Sys2Proof/Machine/Parameters.lean ====
section
/-! DEFINITION. The parameter commands (spec/41_parameters.md). They run in every state, a faulted one too (R142). -/

namespace Sys2Proof.Machine

/-- The rate `K.RATE_MIN + v × K.RATE_SPAN` (41_parameters.md R143), with the NaN draws `k` and `k + 1`. -/
def rateOf (b : Build) (k : Nat) (v : Word) : Word := fadd (k + 1) b.k.rateMin (fmul k v b.k.rateSpan)

/-- The depth `v × K.DEPTH_SCALE` (41_parameters.md R146), with the NaN draw `k`. -/
def depthOf (b : Build) (k : Nat) (v : Word) : Word := fmul k v b.k.depthScale

/-- SETP.RATE (41_parameters.md R143-R145): `RATE` and both increments together; the phases are kept. -/
def execSetpRate (s : State) : Host.Outcome State Fault Refusal :=
  .next ((storeRate (s.draws + 2) (rateOf s.build s.draws (setpValue s)) s).useDraws 7)

/-- SETP.DEPTH (41_parameters.md R146). -/
def execSetpDepth (s : State) : Host.Outcome State Fault Refusal :=
  .next ((storeDepth (depthOf s.build s.draws (setpValue s)) s).useDraws 1)

/-- SETP.MIX (41_parameters.md R147): every bit of `ARG0` is stored as it is. -/
def execSetpMix (s : State) : Host.Outcome State Fault Refusal := .next (storeMix (setpValue s) s)

/-- An unknown parameter index: no register changes (41_parameters.md R148). -/
def ignoredIndex (s : State) : Host.Outcome State Fault Refusal := .next s

/-- SETP.IGN, `IDX` 3 (41_parameters.md R148). -/
def execSetpIgn3 (s : State) : Host.Outcome State Fault Refusal := ignoredIndex s

/-- SETP.IGN, `IDX` 4 to 7 (41_parameters.md R148). -/
def execSetpIgn4 (_idx : BitVec 4) (s : State) : Host.Outcome State Fault Refusal := ignoredIndex s

/-- SETP.IGN, `IDX` 8 to 15 (41_parameters.md R148). -/
def execSetpIgn8 (_idx : BitVec 4) (s : State) : Host.Outcome State Fault Refusal := ignoredIndex s

end Sys2Proof.Machine
end

