-- ==== Sys2Proof/Machine/Dispatch.lean ====
section
/-! DEFINITION. `execute_command` (30_encoding.md R94): one arm per row of spec/opcode_table.json. -/

namespace Sys2Proof.Machine

def exec (i : Instr) (s : State) : Host.Outcome State Fault Refusal :=
  match i with
  | .nop => Sys2Proof.Machine.execNop s
  | .init => Sys2Proof.Machine.execInit s
  | .process => Sys2Proof.Machine.execProcess s
  | .setpRate => Sys2Proof.Machine.execSetpRate s
  | .setpDepth => Sys2Proof.Machine.execSetpDepth s
  | .setpMix => Sys2Proof.Machine.execSetpMix s
  | .setpIgn3 => Sys2Proof.Machine.execSetpIgn3 s
  | .setpIgn4 idx => Sys2Proof.Machine.execSetpIgn4 idx s
  | .setpIgn8 idx => Sys2Proof.Machine.execSetpIgn8 idx s
  | .suspend => Sys2Proof.Machine.execSuspend s
  | .resume => Sys2Proof.Machine.execResume s
  | .rsvd6 op => Sys2Proof.Machine.execRsvd6 op s
  | .rsvd8 op => Sys2Proof.Machine.execRsvd8 op s

end Sys2Proof.Machine
end

