-- ==== Sys2Proof/Machine/Bus.lean ====
section
/-! DEFINITION. The register bus (spec/20_memory.md): one host access, and the event that a step takes. -/

namespace Sys2Proof.Machine

/-- The address lies in the register window (20_memory.md R63). -/
def inWindow (b : Build) (addr : Nat) : Bool := decide (blockBase b ≤ addr) && decide (addr < blockBase b + windowSize)

/-- The access is one aligned 32-bit access (20_memory.md R67, R68). -/
def wellSized (b : Build) (a : Access) : Bool := decide ((a.addr - blockBase b) % 4 = 0) && decide (a.size = 4)

/-- `BusRead` and `BusWrite` (20_memory.md R66): an access that is misaligned or not 32 bits wide gets the bus error response
and changes nothing (R68); a write to `CMD` executes the command (R71, R74); every other access reads or writes a register. -/
def busAccess (a : Access) (s : State) : Host.Outcome State Fault Refusal :=
  if inWindow s.build a.addr then
    let off := a.addr - blockBase s.build
    if wellSized s.build a then
      match a.kind with
      | .read => .next (s.withReply (.data a.caller (readOffset off s)))
      | .write w =>
        if off = regOffset .cmd then exec (decodeWord w) (s.withReply (.written a.caller))
        else .next ((writeOffset off w s).withReply (.written a.caller))
    else .next (s.withReply (.busFault a.caller off))
  else .fault (.outsideWindow a.addr)

/-- One event of the bus order (20_memory.md R76, 70_reset_and_hazards.md R340): an access; or the platform's reset, which
discards the accesses stalled at that moment. -/
def busEvent (e : HostEvent) (s : State) : Host.Outcome State Fault Refusal :=
  match e with
  | .access a => busAccess a s
  | .reset _ => .next (hardwareReset s)

/-- The next step: the first event still to come; with none, the CORE is idle (20_memory.md R73). -/
def nextStep (s : State) : Host.Outcome State Fault Refusal :=
  match s.bus with
  | [] => .next s
  | e :: es => busEvent e (s.withBus es)

/-- The aligned 32-bit write of a command word to `CMD` by the audio caller. -/
def commandWrite (b : Build) (w : Word) : HostEvent :=
  .access { caller := .audio, addr := blockBase b + regOffset .cmd, size := 4, kind := .write w }

/-- The state whose next event is the `CMD` write of `w`. -/
def queueCommand (s : State) (w : Word) : State := s.withBus (commandWrite s.build w :: s.bus)

end Sys2Proof.Machine
end

