-- ==== Sys2Proof/Machine/Step.lean ====
section
/-! DEFINITION. One step: one event of the bus order, the model's unit of progress (70_reset_and_hazards.md R352). -/

namespace Sys2Proof.Machine

/-- One step of the machine. -/
def step (s : State) : Host.Outcome State Fault Refusal := nextStep s

/-- The state whose very next event is the `CMD` write of the table word `w` of `nbits` bits (assumption 1). -/
def State.withFetchWord (s : State) (nbits w : Nat) : State := queueCommand s (BitVec.ofNat 32 (w % 2 ^ nbits))

end Sys2Proof.Machine
end

