-- ==== Sys2Proof/Machine/Script.lean ====
section
/-! DEFINITION. Host scripts (30_encoding.md R100-R102): each line is a list of bus accesses by one caller. The text form (the
spelling of a line, of a decimal literal) is the host's; a line here holds the word itself. -/

namespace Sys2Proof.Machine

/-- A script line or pseudo-instruction (30_encoding.md R100, R101). -/
inductive Line where
  /-- `WR reg, word` -/
  | wr (r : Reg) (w : Word)
  /-- `RD reg` -/
  | rd (r : Reg)
  /-- `CMD command`: the canonical word (R99). -/
  | cmd (i : Instr)
  /-- `CMD 0xHHHHHHHH`: that exact word. -/
  | cmdWord (w : Word)
  /-- `INITIALIZE t, v` -/
  | initCall (tag version : Word)
  /-- `SETPARAM n, x` -/
  | setParam (n : BitVec 4) (x : Word)
  /-- `FRAME l, r` -/
  | frame (l r : Word)
  /-- `PROCESSBLOCK (l1,r1) ... (ln,rn)` (42_frame.md R188) -/
  | processBlock (frames : List (Word × Word))
  /-- `EXPECT reg, word`: a read; the comparison is the script runner's. -/
  | expect (r : Reg) (w : Word)
deriving DecidableEq, Repr

/-- A script: lines, and `REPEAT n` ... `END` (30_encoding.md R101). -/
inductive Script where
  | done
  | line (l : Line) (rest : Script)
  | again (n : Nat) (body : Script) (rest : Script)
deriving DecidableEq, Repr

/-- The aligned 32-bit access of a register by a caller (30_encoding.md R102). -/
def regAccessBy (b : Build) (c : Caller) (r : Reg) (k : AccessKind) : Access :=
  { caller := c, addr := blockBase b + regOffset r, size := 4, kind := k }

/-- `FRAME l, r` (30_encoding.md R101). -/
def frameAccesses (b : Build) (c : Caller) (l r : Word) : List Access :=
  [regAccessBy b c .inL (.write l), regAccessBy b c .inR (.write r), regAccessBy b c .cmd (.write (encode .process)),
   regAccessBy b c .outL .read, regAccessBy b c .outR .read]

/-- The bus accesses of a line, in order (30_encoding.md R100-R102). -/
def lineAccesses (b : Build) (c : Caller) : Line → List Access
  | .wr r w => [regAccessBy b c r (.write w)]
  | .rd r => [regAccessBy b c r .read]
  | .cmd i => [regAccessBy b c .cmd (.write (encode i))]
  | .cmdWord w => [regAccessBy b c .cmd (.write w)]
  | .initCall t v =>
    [regAccessBy b c .arg0 (.write t), regAccessBy b c .arg1 (.write v), regAccessBy b c .cmd (.write (encode .init))]
  | .setParam n x => [regAccessBy b c .arg0 (.write x), regAccessBy b c .cmd (.write (encode (decodeSetp n)))]
  | .frame l r => frameAccesses b c l r
  | .processBlock fs => fs.flatMap fun f => frameAccesses b c f.1 f.2
  | .expect r _ => [regAccessBy b c r .read]

/-- The bus accesses of a script, in order (30_encoding.md R100, R101). -/
def scriptAccesses (b : Build) (c : Caller) : Script → List Access
  | .done => []
  | .line l rest => lineAccesses b c l ++ scriptAccesses b c rest
  | .again n body rest => (List.replicate n (scriptAccesses b c body)).flatten ++ scriptAccesses b c rest

/-- The state with a script's accesses put after the events still to come. -/
def State.withScript (s : State) (c : Caller) (p : Script) : State :=
  s.withBus (s.bus ++ (scriptAccesses s.build c p).map .access)

end Sys2Proof.Machine
end

