-- ==== Sys2Proof/Safety.lean ====
section
/-! DEFINITION. What counts as a safe state, in the terms the statements use: the machine's invariant, "in contract"
(10_state.md R45), a recorded fault (60_exceptions.md R303), a correctly rounded result (00_scope.md R16). -/

namespace Sys2Proof.Machine

/-- A range fault is recorded (60_exceptions.md R303). -/
abbrev Faulted (s : State) : Prop := faultBit s.status = true

/-- The run is over and no range fault is recorded: "a state with `STATUS.FAULT` = 1" is "never final" (60_exceptions.md
R303). -/
abbrev Final (s : State) : Prop := s.bus = [] ∧ ¬Faulted s

/-- `WIDX` is even and at most `L - 2` (10_state.md R47). -/
def widxLegal (b : Build) (w : Word) : Bool := decide (w.toNat % 2 = 0) && decide (w.toNat + 2 ≤ bufferLen b)

/-- Every listed byte belongs to a slot of the buffer: no write ever reached an index outside [0, L) (43_delay_buffer.md
R195). -/
def bufferInside (b : Build) (m : Memory) : Bool := m.all fun c => decide (c.1 < 4 * bufferLen b)

/-- What holds of every state the machine can be in: a legal build (00_scope.md R7), a legal `STATUS` (10_state.md R33), the
`WIDX` invariant (R47), and a canonical buffer with nothing outside its slots. -/
abbrev MachineInv (s : State) : Prop :=
  legalBuild s.build = true ∧ statusLegal s.status = true ∧ widxLegal s.build s.widx = true ∧
    Memory.wf s.buf = true ∧ bufferInside s.build s.buf = true

/-- `lo ≤ x ≤ hi` as IEEE comparisons: false for a NaN (00_scope.md R20). -/
def inRange (lo hi x : Word) : Bool := fle lo x && fle x hi

/-- A parameter value in [0, 1] (41_parameters.md R141). -/
def unitValue (v : Word) : Bool := inRange 0 0x3F800000 v

/-- A phase in [0, `K.TWO_PI`) (44_lfo.md R212). -/
def phaseInRange (b : Build) (p : Word) : Bool := fle 0 p && flt p b.k.twoPi

/-- In contract (10_state.md R45). The increments' NaN draws do not matter: a finite rate gives none. -/
abbrev InContract (s : State) : Prop :=
  inRange 0x3DCCCCCD 0x40400000 s.rate = true ∧ inRange 0 0x43C00000 s.depth = true ∧ unitValue s.mix = true ∧
    s.wowInc = wowIncOf s.build 0 s.rate ∧ s.fltInc = fltIncOf s.build 0 s.rate ∧
    phaseInRange s.build s.wowPhase = true ∧ phaseInRange s.build s.fltPhase = true

/-- `q` is the exact value `n / d` (in units of 2^-149) rounded to binary32, to nearest with ties to even (00_scope.md R16), said
without the model's own rounding: no finite word is nearer, of two nearest `q` is the one whose encoding is even, and `q` is an
infinity, of the exact value's sign, exactly from half an ulp above the greatest finite value on (R19). -/
def RoundedFrom (n : Int) (d : Nat) (q : Word) : Prop :=
  isNaN q = false ∧ (isInf q = true ↔ (2 ^ 25 - 1) * 2 ^ 252 * d ≤ n.natAbs) ∧
    (isInf q = true → signOf q = decide (n < 0)) ∧
    (isFinite q = true → ∀ c : Word, isFinite c = true →
      (n - valueOf q * d).natAbs ≤ (n - valueOf c * d).natAbs ∧
        ((n - valueOf q * d).natAbs = (n - valueOf c * d).natAbs → valueOf c ≠ valueOf q → magOf q % 2 = 0))

/-- The raw read position of a PROCESS in this state (42_frame.md R162, 45_interpolator.md R231). -/
def framePosition (s : State) : Word :=
  rawPosition s.build (s.draws + 9) s.widx.toNat (modAmount s.build s.draws s.wowPhase s.fltPhase s.depth)

/-- The engine state that INIT and reset leave (10_state.md R54, 40_lifecycle.md R121), for build parameters `b` and NaN draws
from `k` on: every field that a command writes, and every slot of the buffer. -/
abbrev EngineInitial (b : Build) (k : Nat) (t : State) : Prop :=
  t.status = 0 ∧ t.outL = 0 ∧ t.outR = 0 ∧ t.rate = b.k.rateDef ∧
    t.wowInc = fdiv (k + 1) (fmul k b.k.twoPi b.k.rateDef) sampleRate ∧
    t.fltInc = fdiv (k + 4) (fmul (k + 3) b.k.twoPi (fmul (k + 2) b.k.rateDef b.k.fltRatio)) sampleRate ∧
    t.depth = b.k.depthDef ∧ t.mix = b.k.mixDef ∧ t.wowPhase = 0 ∧ t.fltPhase = 0 ∧ t.lpL = 0 ∧ t.lpR = 0 ∧
    t.seed = b.noiseSeed ∧ t.widx = 0 ∧ ∀ i, memRead t.buf i = 0

/-- The registers that only commands write, and the buffer, are those of another state (10_state.md R55). -/
abbrev SameEngine (s t : State) : Prop :=
  t.status = s.status ∧ t.outL = s.outL ∧ t.outR = s.outR ∧ t.rate = s.rate ∧ t.wowInc = s.wowInc ∧ t.fltInc = s.fltInc ∧
    t.depth = s.depth ∧ t.mix = s.mix ∧ t.wowPhase = s.wowPhase ∧ t.fltPhase = s.fltPhase ∧ t.lpL = s.lpL ∧
    t.lpR = s.lpR ∧ t.seed = s.seed ∧ t.widx = s.widx ∧ t.buf = s.buf

/-- The registers that only the host writes are those of another state (10_state.md R55). -/
abbrev SameHostRegisters (s t : State) : Prop :=
  t.arg0 = s.arg0 ∧ t.arg1 = s.arg1 ∧ t.inL = s.inL ∧ t.inR = s.inR

/-- The command that the next event executes, if it is an aligned 32-bit write to `CMD` (20_memory.md R66). -/
def nextCommand (s : State) : Option Instr :=
  match s.bus with
  | .access a :: _ =>
    match a.kind with
    | .write w =>
      if inWindow s.build a.addr && wellSized s.build a && decide (a.addr - blockBase s.build = regOffset .cmd) then
        some (decodeWord w)
      else none
    | .read => none
  | _ => none

/-- The next event is a hardware reset. -/
def nextIsReset (s : State) : Bool :=
  match s.bus with
  | .reset _ :: _ => true
  | _ => false

end Sys2Proof.Machine
end

