-- ==== Sys2Proof/Certificates/Slice0/Obligations.lean ====
section
/-! DEFINITION. The statements for the provers. Each docstring names the rule of spec/ the statement formalises. -/

open Sys2Proof Sys2Proof.Machine

/-! ## Decoding and encoding (spec/30_encoding.md) -/

/-- R94, R99: decoding the canonical word of a well-formed command, or its bytes with more bytes behind them, gives the command
back. -/
def Obligations.DecodeEncodeRoundTrip : Prop :=
  ∀ (i : Instr) (rest : List Byte), i.wellFormed = true →
    decodeWord (encode i) = i ∧ decode (encodeBytes i ++ rest) = .ok (i, rest)

/-- R94: `execute_command` by `OP`, and every 32-bit word selects exactly one row of the opcode table, the decoded command's. -/
def Obligations.EveryWordSelectsExactlyOneRow : Prop :=
  ∀ w : Word,
    (w.toNat % 16 = 0 → decodeWord w = .nop) ∧ (w.toNat % 16 = 1 → decodeWord w = .init) ∧
    (w.toNat % 16 = 2 → decodeWord w = .process) ∧
    (w.toNat % 16 = 3 → decodeWord w = decodeSetp (BitVec.ofNat 4 (w.toNat / 16 % 16))) ∧
    (w.toNat % 16 = 4 → decodeWord w = .suspend) ∧ (w.toNat % 16 = 5 → decodeWord w = .resume) ∧
    (6 ≤ w.toNat % 16 → ∀ s, exec (decodeWord w) s = exec .nop s) ∧
    (decodeWord w).wellFormed = true ∧
    ∀ j (h : j < opcodeTable.length), opcodeTable[j].covers w = true ↔ j = (decodeWord w).tableRow

/-- R92: the four kinds of `IDX` under `OP` 3; an index of 3 to 15 selects no parameter. -/
def Obligations.SetpIndexSelectsTheParameter : Prop :=
  decodeSetp 0 = .setpRate ∧ decodeSetp 1 = .setpDepth ∧ decodeSetp 2 = .setpMix ∧
    ∀ (idx : BitVec 4) (s : State), 3 ≤ idx.toNat → exec (decodeSetp idx) s = .next s

/-- R93: bits 31:8, and bits 7:4 when `OP` is not 3, never matter. -/
def Obligations.IgnoredBitsSelectTheSameCommand : Prop :=
  ∀ (w v : Word) (s : State), w.toNat % 16 = v.toNat % 16 → (w.toNat % 16 = 3 → w.toNat % 256 = v.toNat % 256) →
    decodeWord w = decodeWord v ∧ exec (decodeWord w) s = exec (decodeWord v) s

/-- R99: the table of canonical words. -/
def Obligations.CanonicalCommandWords : Prop :=
  encode .nop = 0x00000000 ∧ encode .init = 0x00000001 ∧ encode .process = 0x00000002 ∧ encode .setpRate = 0x00000003 ∧
    encode .setpDepth = 0x00000013 ∧ encode .setpMix = 0x00000023 ∧ encode .suspend = 0x00000004 ∧
    encode .resume = 0x00000005 ∧
    (∀ n : BitVec 4, 3 ≤ n.toNat → encode (decodeSetp n) = BitVec.ofNat 32 (3 + 16 * n.toNat)) ∧
    ∀ k : BitVec 4, 6 ≤ k.toNat → encode (decodeWord (BitVec.ofNat 32 k.toNat)) = BitVec.ofNat 32 k.toNat

/-- R90 to R93, R64: a few command words, written out as the bytes the little-endian bus carries. That the decoder refuses three
bytes, by the name `narrow`, is the model's choice (log 13); by R67 and R68 a narrow access executes no command. -/
def Obligations.SampleCommandBytesDecode : Prop :=
  decode [0x02, 0x00, 0x00, 0x00] = .ok (.process, []) ∧ decode [0x13, 0xFF, 0xFF, 0xFF] = .ok (.setpDepth, []) ∧
    decode [0xF2, 0x00, 0x00, 0x00] = .ok (.process, []) ∧ decode [0x53, 0x00, 0x00, 0x00] = .ok (.setpIgn4 5, []) ∧
    decode [0x0F, 0x00, 0x00, 0x00] = .ok (.rsvd8 15, []) ∧ decode [0x01, 0x00, 0x00] = .error (.narrow 3)

/-! ## Commands that change nothing -/

/-- R120, R126, R127, R148, R95: these commands complete in every state and change nothing at all. -/
def Obligations.NoOperationCommandsChangeNothing : Prop :=
  ∀ (s : State) (x : BitVec 4),
    exec .nop s = .next s ∧ exec .suspend s = .next s ∧ exec .resume s = .next s ∧ exec .setpIgn3 s = .next s ∧
      exec (.setpIgn4 x) s = .next s ∧ exec (.setpIgn8 x) s = .next s ∧ exec (.rsvd6 x) s = .next s ∧
      exec (.rsvd8 x) s = .next s

/-- R95: a word with `OP` 6 to 15 executes exactly as NOP, and no state changes. -/
def Obligations.ReservedOpcodesRunAsNop : Prop :=
  ∀ (w : Word) (s : State), 6 ≤ w.toNat % 16 →
    exec (decodeWord w) s = exec .nop s ∧ exec (decodeWord w) s = .next s

/-- R96: no command word traps or faults. From every state of the machine's invariant, in a build whose `K.HALF` is 0.5, every
word's command completes; in particular PROCESS never forms a slot index outside the buffer (R13). -/
def Obligations.EveryCommandWordCompletes : Prop :=
  ∀ (w : Word) (s : State), MachineInv s → s.build.k.half = 0x3F000000 → ∃ t, exec (decodeWord w) s = .next t

/-! ## INIT and reset (spec/40_lifecycle.md, spec/70_reset_and_hazards.md) -/

/-- R125 (with the pseudocode of R121): INIT completes in every state and leaves the engine's initial state, whatever it was
before; it leaves `ARG0`, `ARG1`, `IN_L` and `IN_R` as they were, and nothing else changes. -/
def Obligations.InitWritesTheEngineState : Prop :=
  ∀ s : State, ∃ t, exec .init s = .next t ∧ EngineInitial s.build s.draws t ∧ SameHostRegisters s t ∧
    t.build = s.build ∧ t.bus = s.bus ∧ t.reply = s.reply

/-- R123: the values INIT writes with the default constants. -/
def Obligations.InitDefaultValues : Prop :=
  ∀ s : State, s.build.k = referenceConsts →
    ∃ t, exec .init s = .next t ∧ t.rate = 0x3F000000 ∧ t.wowInc = 0x3889421F ∧ t.fltInc = 0x3A4DE32E ∧
      t.depth = 0x43100000 ∧ t.mix = 0x3F000000 ∧ t.rate = s.build.k.rateDef ∧ t.depth = s.build.k.depthDef ∧
      t.fltInc = fltIncOf s.build (s.draws + 2) s.build.k.rateDef

/-- R124: no bit of `ARG0` or `ARG1` changes any effect of INIT, and INIT leaves both unchanged. -/
def Obligations.InitIgnoresItsOperands : Prop :=
  ∀ (s : State) (a v : Word), ∃ t, exec .init s = .next t ∧ t.arg0 = s.arg0 ∧ t.arg1 = s.arg1 ∧
    exec .init { s with arg0 := a, arg1 := v } = .next { t with arg0 := a, arg1 := v }

/-- R54: the value of every piece of the spec's state after reset, and that INIT of the reference build writes the same, except
for the host-written registers. The model's own fields are not stated. -/
def Obligations.ResetAndInitTableValues : Prop :=
  (State.reset.status = 0 ∧ State.reset.arg0 = 0 ∧ State.reset.arg1 = 0 ∧ State.reset.inL = 0 ∧ State.reset.inR = 0 ∧
      State.reset.outL = 0 ∧ State.reset.outR = 0 ∧ State.reset.rate = 0x3F000000 ∧ State.reset.wowInc = 0x3889421F ∧
      State.reset.fltInc = 0x3A4DE32E ∧ State.reset.depth = 0x43100000 ∧ State.reset.mix = 0x3F000000 ∧
      State.reset.wowPhase = 0 ∧ State.reset.fltPhase = 0 ∧ State.reset.lpL = 0 ∧ State.reset.lpR = 0 ∧
      State.reset.seed = 0x00003039 ∧ State.reset.widx = 0 ∧ (∀ i, memRead State.reset.buf i = 0) ∧
      readReg .nframes State.reset = 0x00000640) ∧
    ∀ s : State, s.build = referenceBuild →
      ∃ t, exec .init s = .next t ∧ SameEngine State.reset t ∧ SameHostRegisters s t ∧
        readReg .nframes t = 0x00000640

/-- R340, R341: a hardware reset is the next step whatever accesses were stalled, which have no effect; it leaves the engine
state that INIT leaves and also clears `ARG0`, `ARG1`, `IN_L` and `IN_R`. That the build, the later events and the NaN draws
stay is the model's (log 2, 4, 14). -/
def Obligations.HardwareResetEvent : Prop :=
  ∀ (s : State) (stalled : List Access) (es : List HostEvent), s.bus = .reset stalled :: es →
    ∃ t u, step s = .next t ∧ exec .init (s.withBus es) = .next u ∧ EngineInitial s.build s.draws t ∧
      t = { u with arg0 := 0, arg1 := 0, inL := 0, inR := 0, reply := .none }

/-! ## SETP (spec/41_parameters.md) -/

/-- R143, R144, R145: SETP.RATE completes in every state, writes `RATE`, `WOW_INC` and `FLT_INC` by the rules' own formulas,
and changes nothing else (the NaN draws it may use apart, log 4). -/
def Obligations.SetpRateResult : Prop :=
  ∀ s : State,
    let k := s.draws
    let r := fadd (k + 1) s.build.k.rateMin (fmul k s.arg0 s.build.k.rateSpan)
    exec .setpRate s = .next { s with
      rate := r
      wowInc := fdiv (k + 3) (fmul (k + 2) s.build.k.twoPi r) sampleRate
      fltInc := fdiv (k + 6) (fmul (k + 5) s.build.k.twoPi (fmul (k + 4) r s.build.k.fltRatio)) sampleRate
      draws := k + 7 }

/-- R143, the corner cases: values of `ARG0` and what they give, with the default constants. -/
def Obligations.SetpRateCornerCases : Prop :=
  ∀ s : State, s.build.k = referenceConsts →
    ∃ t, exec .setpRate s = .next t ∧ t.wowPhase = s.wowPhase ∧ t.fltPhase = s.fltPhase ∧
      (s.arg0 = 0x00000000 ∨ s.arg0 = 0x80000000 →
        t.rate = 0x3DCCCCCD ∧ t.wowInc = 0x375B9CFE ∧ t.fltInc = 0x3924B5BF) ∧
      (s.arg0 = 0x3F800000 → t.rate = 0x40400000 ∧ t.wowInc = 0x39CDE32E ∧ t.fltInc = 0x3B9A6A62) ∧
      (s.arg0 = 0x7F800000 → t.rate = 0x7F800000 ∧ t.wowInc = 0x7F800000 ∧ t.fltInc = 0x7F800000) ∧
      (s.arg0 = 0xFF800000 → t.rate = 0xFF800000 ∧ t.wowInc = 0xFF800000 ∧ t.fltInc = 0xFF800000) ∧
      (isNaN s.arg0 = true → isNaN t.rate = true ∧ isNaN t.wowInc = true ∧ isNaN t.fltInc = true)

/-- R146: SETP.DEPTH completes in every state, writes `ARG0 × K.DEPTH_SCALE` to `DEPTH` and changes nothing else (the NaN draw
it may use apart, log 4). -/
def Obligations.SetpDepthResult : Prop :=
  ∀ s : State,
    exec .setpDepth s = .next { s with depth := fmul s.draws s.arg0 s.build.k.depthScale, draws := s.draws + 1 }

/-- R146, the corner cases, with the default constants. -/
def Obligations.SetpDepthCornerCases : Prop :=
  ∀ s : State, s.build.k = referenceConsts →
    ∃ t, exec .setpDepth s = .next t ∧
      (s.arg0 = 0x3F800000 → t.depth = 0x43C00000) ∧ (s.arg0 = 0x00000000 → t.depth = 0x00000000) ∧
      (s.arg0 = 0x80000000 → t.depth = 0x80000000) ∧ (s.arg0 = 0x3F000000 → t.depth = 0x43400000) ∧
      (flt s.arg0 0 = true → flt t.depth 0 = true) ∧ (flt 0x3F800000 s.arg0 = true → flt 0x43C00000 t.depth = true) ∧
      (isNaN s.arg0 = true → isNaN t.depth = true)

/-- R147: SETP.MIX completes in every state, stores every bit of `ARG0` in `MIX` unchanged, and changes nothing else. -/
def Obligations.SetpMixResult : Prop :=
  decodeWord 0x00000023 = .setpMix ∧ ∀ s : State, exec .setpMix s = .next { s with mix := s.arg0 }

/-- R141, R45: with the default constants, a SETP whose value lies in [0, 1] completes and keeps a state in contract. -/
def Obligations.SetpInUnitRangeKeepsTheContract : Prop :=
  ∀ (s : State) (i : Instr), s.build.k = referenceConsts → InContract s → unitValue s.arg0 = true →
    i = .setpRate ∨ i = .setpDepth ∨ i = .setpMix → ∃ t, exec i s = .next t ∧ InContract t

/-! ## Range faults (spec/60_exceptions.md) -/

/-- R161, R304: while a fault is recorded, PROCESS changes no state. -/
def Obligations.ProcessIgnoredWhileFaulted : Prop :=
  ∀ s : State, Faulted s → exec .process s = .next s

/-- R302: recording a range fault sets `STATUS.FAULT` and `STATUS.CAUSE` and changes nothing else. The whole word is written: with
the reserved bits at 0, as R33 has them, that is the two fields (log 5). -/
def Obligations.RangeFaultWritesOnlyStatus : Prop :=
  ∀ (s : State) (c : RangeCause), ¬Faulted s →
    readTap s.build (s.draws + 9) s.widx.toNat (modAmount s.build s.draws s.wowPhase s.fltPhase s.depth) = .error c →
    exec .process s = .next { s with status := BitVec.ofNat 32 (16 * causeCode c + 1) } ∧
      faultBit (BitVec.ofNat 32 (16 * causeCode c + 1)) = true ∧
      (causeField (BitVec.ofNat 32 (16 * causeCode c + 1))).toNat = causeCode c

/-- R305: only INIT and a hardware reset clear a recorded fault, and both re-initialize all engine state. -/
def Obligations.FaultStaysUntilInitOrReset : Prop :=
  ∀ s t : State, Faulted s → step s = .next t →
    ((nextCommand s = some .init ∨ nextIsReset s = true) ∧ EngineInitial s.build s.draws t) ∨
      (nextCommand s ≠ some .init ∧ nextIsReset s = false ∧ t.status = s.status)

/-- R51, R33: `STATUS` changes from "no fault" only when a PROCESS raises a range fault, and then it holds that fault's cause. -/
def Obligations.OnlyProcessRecordsAFault : Prop :=
  ∀ s t : State, ¬Faulted s → step s = .next t → Faulted t →
    nextCommand s = some .process ∧ ∃ c, frameTap s = .error c ∧ t.status = statusOfFault c

/-- R231 to R235, R301, R307: what a PROCESS does with the raw read position `r`, in every legal build, with every operation
written out. `add` is the wrap loop's addition and `n` a number of additions that all start below 0 and do not stall: then a
stalling addition records cause 3, and a position that is not below 0 ends the loop and is checked. -/
def Obligations.RawPositionDecidesTheFault : Prop :=
  ∀ (b : Build) (k w : Nat) (mod : Word), legalBuild b = true →
    let r := fsub (k + 1) (nat2f w) (fmul k mod b.k.two)
    let len := nat2f (2 * b.nFrames)
    let add : Word → Word := fun x => fadd (k + 2) x len
    let frame : Word → Nat := fun x => floorNat (fmul (k + 3) x b.k.half)
    let older : Word → Nat := fun x => if frame x = b.nFrames then 0 else frame x
    let tap : Word → Tap := fun x =>
      { older := older x
        newer := (older x + 1) % b.nFrames
        weight := fsub (k + 4) (fmul (k + 3) x b.k.half) (nat2f (frame x)) }
    (isNaN r = true → readTap b k w mod = .error .rposNaN) ∧
      (isInf r = true → signOf r = true → readTap b k w mod = .error .wrapStall) ∧
      (flt len r = true → readTap b k w mod = .error .rposHigh) ∧
      (fle 0 r = true → fle r len = true → readTap b k w mod = .ok (tap r)) ∧
      ∀ n, (∀ j, j < n → flt (add^[j] r) 0 = true ∧ feq (add^[j + 1] r) (add^[j] r) = false) →
        (flt (add^[n] r) 0 = true → feq (add^[n + 1] r) (add^[n] r) = true → readTap b k w mod = .error .wrapStall) ∧
          (flt (add^[n] r) 0 = false → flt len (add^[n] r) = true → readTap b k w mod = .error .rposHigh) ∧
          (fle 0 (add^[n] r) = true → fle (add^[n] r) len = true → readTap b k w mod = .ok (tap (add^[n] r)))

/-- R233: with `L` = 3200, adding `L` leaves a finite negative position unchanged exactly below -2^36; and a PROCESS whose raw
read position is finite and below -2^36 records cause 3. -/
def Obligations.WrapStallsExactlyBelowMinusTwoToThe36 : Prop :=
  (∀ (k : Nat) (r : Word), isFinite r = true → flt r 0 = true →
      (feq (fadd k r (nat2f 3200)) r = true ↔ flt r 0xD1800000 = true)) ∧
    ∀ (b : Build) (k w : Nat) (mod : Word), b.nFrames = 1600 →
      isFinite (rawPosition b k w mod) = true → flt (rawPosition b k w mod) 0xD1800000 = true →
      readTap b k w mod = .error .wrapStall

/-- R232, R233, R350: in every legal build, an addition of the wrap loop that does not stall raises a finite negative position by
at least `L / 2`; so from a finite negative position `r` the loop ends with some `add^[n] r` after `n` additions, or stalls at the
addition after `n` others, and the number of additions is at most `2·|r| / L + 1`. -/
def Obligations.WrapAdditionAdvancesHalfTheLength : Prop :=
  ∀ (b : Build) (k : Nat) (r : Word), legalBuild b = true → isFinite r = true → flt r 0 = true →
    let len := nat2f (bufferLen b)
    let add : Word → Word := fun x => fadd k x len
    (feq (add r) r = false → valueOf len ≤ 2 * (valueOf (add r) - valueOf r)) ∧
      ∃ n : Nat, (∀ j, j < n → flt (add^[j] r) 0 = true ∧ feq (add^[j + 1] r) (add^[j] r) = false) ∧
        ((flt (add^[n] r) 0 = false ∧ wrapLoop k len wrapFuel r = some (add^[n] r) ∧
            (n : Int) * valueOf len ≤ -2 * valueOf r + valueOf len) ∨
          (flt (add^[n] r) 0 = true ∧ feq (add^[n + 1] r) (add^[n] r) = true ∧ wrapLoop k len wrapFuel r = none ∧
            ((n : Int) + 1) * valueOf len ≤ -2 * valueOf r + valueOf len))

/-- R220, R301: with the default constants, a NaN or infinite phase makes the next PROCESS record cause 1 and change nothing
else. That `STATUS` is then 0x11 as a whole word rests on R33's reserved bits being 0 (log 5). -/
def Obligations.NonFinitePhaseRecordsCauseOne : Prop :=
  ∀ s : State, s.build.k = referenceConsts → legalBuild s.build = true → ¬Faulted s →
    isFinite s.wowPhase = false ∨ isFinite s.fltPhase = false →
    exec .process s = .next { s with status := 0x00000011 }

/-! ## PROCESS (spec/42_frame.md to spec/47_prng.md) -/

/-- R162, with every unit's formula in the binary32 operations: R214 (`mod`), R191, R236 (`y0` and `y1` are the older and the newer
samples), R250 (`lp0`, `lp1`), R253 (`t0`, `t1`), R271 to R273 (`n0`, `n1`), R185 and R186 (`out0`, `out1`), R193, R217. A PROCESS
whose read position gives a tap (RawPositionDecidesTheFault says which) inside the buffer completes with exactly these results;
every register they do not name is unchanged (the NaN draws it may use apart, log 4). -/
def Obligations.ProcessFrameResult : Prop :=
  ∀ (s : State) (tap : Tap), ¬Faulted s →
    let c := s.build.k
    let k := s.draws
    let w := s.widx.toNat
    let len := 2 * s.build.nFrames
    let a := fmul (k + 1) (sine s.build k s.wowPhase) c.wowW
    let f := fmul (k + 4) (fmul (k + 3) (sine s.build (k + 2) s.fltPhase) c.fltW1) c.fltW2
    let mod := fmul (k + 8) (fmul (k + 7) (fadd (k + 6) (fadd (k + 5) a f) c.one) c.half) s.depth
    readTap s.build (k + 9) w mod = .ok tap → w + 1 < len → 2 * tap.older + 1 < len → 2 * tap.newer + 1 < len →
    let buf0 := memWrite s.buf w s.inL
    let s0 := fadd (k + 17) (fmul (k + 15) (memRead buf0 (2 * tap.older)) (fsub (k + 14) c.one tap.weight))
      (fmul (k + 16) (memRead buf0 (2 * tap.newer)) tap.weight)
    let lp0 := fadd (k + 20) s.lpL (fmul (k + 19) c.alpha (fsub (k + 18) s0 s.lpL))
    let t0 := fadd (k + 23) (fmul (k + 21) s0 c.toneKeep) (fmul (k + 22) lp0 c.tone)
    let seed0 := s.seed * s.build.lcgA + s.build.lcgC
    let n0 := fmul (k + 25) (fmul (k + 24) (i2f (asI32 seed0)) 0x30000000) c.noiseAmp
    let out0 := fadd (k + 30) (fmul (k + 28) (fsub (k + 27) c.one s.mix) s.inL) (fmul (k + 29) s.mix (fadd (k + 26) t0 n0))
    let buf1 := memWrite buf0 (w + 1) s.inR
    let s1 := fadd (k + 34) (fmul (k + 32) (memRead buf1 (2 * tap.older + 1)) (fsub (k + 31) c.one tap.weight))
      (fmul (k + 33) (memRead buf1 (2 * tap.newer + 1)) tap.weight)
    let lp1 := fadd (k + 37) s.lpR (fmul (k + 36) c.alpha (fsub (k + 35) s1 s.lpR))
    let t1 := fadd (k + 40) (fmul (k + 38) s1 c.toneKeep) (fmul (k + 39) lp1 c.tone)
    let seed1 := seed0 * s.build.lcgA + s.build.lcgC
    let n1 := fmul (k + 42) (fmul (k + 41) (i2f (asI32 seed1)) 0x30000000) c.noiseAmp
    let out1 := fadd (k + 47) (fmul (k + 45) (fsub (k + 44) c.one s.mix) s.inR) (fmul (k + 46) s.mix (fadd (k + 43) t1 n1))
    let pw := fadd (k + 48) s.wowPhase s.wowInc
    let pf := fadd (k + 50) s.fltPhase s.fltInc
    exec .process s = .next { s with
      buf := buf1, lpL := lp0, lpR := lp1, outL := out0, outR := out1, seed := seed1
      widx := BitVec.ofNat 32 (if len ≤ w + 2 then 0 else w + 2)
      wowPhase := if fle c.twoPi pw then fsub (k + 49) pw c.twoPi else pw
      fltPhase := if fle c.twoPi pf then fsub (k + 51) pf c.twoPi else pf
      draws := k + 52 }

/-- R191, R195: the frame of PROCESS. The only bytes stored are those of slots `W` and `W + 1`, which receive `IN_L` and `IN_R`
bit for bit; every register that PROCESS does not write is unchanged. -/
def Obligations.ProcessStoresOnlyTheCurrentFrame : Prop :=
  ∀ s t : State, ¬Faulted s → exec .process s = .next t → ¬Faulted t →
    (∀ a, a < 4 * (s.widx.toNat + channelNumber .left) ∨ 4 * (s.widx.toNat + channelNumber .right) + 4 ≤ a →
      readByte t.buf a = readByte s.buf a) ∧
      (Memory.wf s.buf = true →
        memRead t.buf (s.widx.toNat + channelNumber .left) = s.inL ∧
          memRead t.buf (s.widx.toNat + channelNumber .right) = s.inR) ∧
      SameHostRegisters s t ∧ t.build = s.build ∧ t.status = s.status ∧ t.rate = s.rate ∧ t.wowInc = s.wowInc ∧
      t.fltInc = s.fltInc ∧ t.depth = s.depth ∧ t.mix = s.mix ∧ t.bus = s.bus ∧ t.reply = s.reply

/-- R274: a PROCESS that completes steps `SEED` twice; a faulted or ignored PROCESS does not, and no other command advances it
(INIT loads it, R270). -/
def Obligations.SeedAdvancesTwicePerCompletedFrame : Prop :=
  ∀ (i : Instr) (s t : State), exec i s = .next t → i ≠ .init →
    (i = .process → ¬Faulted s → ¬Faulted t →
      t.seed = (s.seed * s.build.lcgA + s.build.lcgC) * s.build.lcgA + s.build.lcgC) ∧
      (i ≠ .process ∨ Faulted s ∨ Faulted t → t.seed = s.seed)

/-- R271: the LCG step is the exact integer recurrence modulo 2^32; with a multiplier of 1 modulo 4 and an odd increment no
state is a fixed point. -/
def Obligations.LcgStepIsExactAndHasNoFixedPoint : Prop :=
  (∀ (b : Build) (seed : Word),
      (lcgStep b seed).toNat = (seed.toNat * b.lcgA.toNat + b.lcgC.toNat) % 2 ^ 32 ∧
        (b.lcgA.toNat % 4 = 1 → b.lcgC.toNat % 2 = 1 → lcgStep b seed ≠ seed)) ∧
    lcgStep referenceBuild 0x00003039 = 0x05391C44

/-- R272: UNIFORM is the signed state rounded to binary32 and scaled by 2^-31 (the word 0x30000000); it lies in [-1, 1], both ends
included, and grows with the signed state. -/
def Obligations.UniformLiesInTheUnitRangeAndIsMonotone : Prop :=
  (∀ (k : Nat) (s : Word),
      uniform k s = fmul k (i2f (asI32 s)) 0x30000000 ∧ inRange 0xBF800000 0x3F800000 (uniform k s) = true) ∧
    (∀ (k : Nat) (s v : Word), asI32 s ≤ asI32 v → fle (uniform k s) (uniform k v) = true) ∧
    (∀ (k : Nat) (s : Word), 0x7FFFFFC0 ≤ s.toNat → s.toNat ≤ 0x7FFFFFFF → uniform k s = 0x3F800000) ∧
    ∀ k : Nat, uniform k 0x80000000 = 0xBF800000 ∧ uniform k 0 = 0

/-- R273: the noise value is `UNIFORM(SEED) × K.NOISE_AMP` of the stepped state. With the default amplitude it is never NaN or
infinite and lies within ±0x3B03126F, and it is +0.0 when the new state is 0. -/
def Obligations.NoiseLiesWithinItsAmplitude : Prop :=
  ∀ (b : Build) (k : Nat) (s : Word),
    noiseValue b k s = fmul (k + 1) (fmul k (i2f (asI32 s)) 0x30000000) b.k.noiseAmp ∧
      (b.k.noiseAmp = 0x3B03126F →
        isFinite (noiseValue b k s) = true ∧ inRange 0xBB03126F 0x3B03126F (noiseValue b k s) = true ∧
          noiseValue b k 0 = 0)

/-- R193: the write-index advance keeps the index even and below `L`, and the index returns to its start value after exactly
`N_FRAMES` frames. -/
def Obligations.WriteIndexReturnsAfterNFrames : Prop :=
  ∀ (b : Build) (w : Nat), w % 2 = 0 → w + 2 ≤ bufferLen b →
    advanceW b w % 2 = 0 ∧ advanceW b w + 2 ≤ bufferLen b ∧ advanceW b w = (w + 2) % bufferLen b ∧
      (advanceW b)^[b.nFrames] w = w ∧ ∀ n, 0 < n → n < b.nFrames → (advanceW b)^[n] w ≠ w

/-- R165, R62: the channels are coupled only through the modulation amount, the noise generator and `WIDX`. Two frames that
agree in those and in one channel's input, filter state and slots give that channel the same output, filter state and slots,
whatever the other channel holds. -/
def Obligations.ChannelsDoNotMix : Prop :=
  ∀ (s s' t t' : State),
    (s'.build = s.build ∧ s'.widx = s.widx ∧ s'.wowPhase = s.wowPhase ∧ s'.fltPhase = s.fltPhase ∧ s'.depth = s.depth ∧
      s'.mix = s.mix ∧ s'.seed = s.seed ∧ s'.draws = s.draws) →
    Memory.wf s.buf = true → Memory.wf s'.buf = true → widxLegal s.build s.widx = true →
    ¬Faulted s → ¬Faulted s' → exec .process s = .next t → exec .process s' = .next t' → ¬Faulted t →
    (s'.inL = s.inL → s'.lpL = s.lpL → (∀ i, memRead s'.buf (2 * i) = memRead s.buf (2 * i)) →
      t'.outL = t.outL ∧ t'.lpL = t.lpL ∧ ∀ i, memRead t'.buf (2 * i) = memRead t.buf (2 * i)) ∧
      (s'.inR = s.inR → s'.lpR = s.lpR → (∀ i, memRead s'.buf (2 * i + 1) = memRead s.buf (2 * i + 1)) →
        t'.outR = t.outR ∧ t'.lpR = t.lpR ∧ ∀ i, memRead t'.buf (2 * i + 1) = memRead t.buf (2 * i + 1))

/-- R219: with the default `K.TWO_PI`, a phase in [0, 2π) and an increment in [0, 1] give a phase in [0, 2π). -/
def Obligations.PhaseStepStaysInRange : Prop :=
  ∀ (b : Build) (k : Nat) (p inc : Word), b.k.twoPi = 0x40C90FDB → phaseInRange b p = true →
    inRange 0 0x3F800000 inc = true → phaseInRange b (phaseStep b k p inc) = true

/-- R217, R218: PHASE_STEP as the rule's formula, for every operand; a sum equal to `K.TWO_PI` wraps to +0.0. -/
def Obligations.PhaseSumOfTwoPiWrapsToZero : Prop :=
  ∀ (b : Build) (k : Nat) (p inc : Word),
    phaseStep b k p inc =
        (if fle b.k.twoPi (fadd k p inc) then fsub (k + 1) (fadd k p inc) b.k.twoPi else fadd k p inc) ∧
      (isFinite b.k.twoPi = true → fadd k p inc = b.k.twoPi → phaseStep b k p inc = 0)

/-- R22: the properties (a) to (d) of every build's `SIN`. -/
def Obligations.SineHasTheFourProperties : Prop :=
  ∀ (b : Build) (k : Nat) (x : Word),
    (sine b k 0x00000000 = 0x00000000 ∧ sine b k 0x80000000 = 0x80000000) ∧
      (isFinite x = true → inRange 0xBF800000 0x3F800000 (sine b k x) = true) ∧
      (isFinite x = false → isNaN (sine b k x) = true) ∧
      (isFinite x = true → ∀ k', sine b k' x = sine b k x)

/-- R214, R215, R216: the modulation amount as the rule's formula, for every operand; with the default constants, finite phases
and a depth in [0, 384] it lies between 0 and 0x43B1999A (355.2). -/
def Obligations.ModulationAmountBounds : Prop :=
  ∀ (b : Build) (k : Nat) (pw pf d : Word),
    modAmount b k pw pf d =
        fmul (k + 8) (fmul (k + 7) (fadd (k + 6) (fadd (k + 5) (fmul (k + 1) (sine b k pw) b.k.wowW)
          (fmul (k + 4) (fmul (k + 3) (sine b (k + 2) pf) b.k.fltW1) b.k.fltW2)) b.k.one) b.k.half) d ∧
      (b.k = referenceConsts → isFinite pw = true → isFinite pf = true → inRange 0 0x43C00000 d = true →
        inRange 0 0x43B1999A (modAmount b k pw pf d) = true)

/-- R238: with `DEPTH` = +0.0 and finite phases, the tap is the current buffer frame with weight +0, and a read of it after the
channel's sample write returns that sample: a delay of zero. -/
def Obligations.ZeroDepthReadsTheSampleJustWritten : Prop :=
  ∀ (s : State) (c : Channel) (x : Word), MachineInv s → s.build.k = referenceConsts → s.depth = 0 →
    isFinite s.wowPhase = true → isFinite s.fltPhase = true →
    frameTap s = .ok { older := s.widx.toNat / 2, newer := (s.widx.toNat / 2 + 1) % s.build.nFrames, weight := 0 } ∧
      memRead (sampleWrite s.widx.toNat c x s.buf) (slotOf (s.widx.toNat / 2) c) = x

/-- R236, R237: the interpolation as the rule's formula, for every tap and both channels (channel 0 reads the even slots, channel 1
the odd ones). With weight 0 it is an exact read of the older sample, up to the sign of a zero, when the newer sample is finite,
and a NaN when it is not. -/
def Obligations.WeightZeroReadsTheOlderSample : Prop :=
  ∀ (b : Build) (k : Nat) (m : Memory) (c : Channel) (t : Tap),
    let n : Nat := match c with
      | .left => 0
      | .right => 1
    let y0 := memRead m (2 * t.older + n)
    let y1 := memRead m (2 * t.newer + n)
    interp b k m c t = fadd (k + 3) (fmul (k + 1) y0 (fsub k b.k.one t.weight)) (fmul (k + 2) y1 t.weight) ∧
      (b.k.one = 0x3F800000 → t.weight = 0 →
        (isFinite y1 = false → isNaN (interp b k m c t) = true) ∧
          (isNaN y0 = false → isFinite y1 = true →
            feq (interp b k m c t) y0 = true ∧ (y0 ≠ 0x80000000 → interp b k m c t = y0) ∧
              (y0 = 0x80000000 → signOf y1 = false → interp b k m c t = 0x00000000)))

/-- R250, R253: ONEPOLE and TILT as the rules' formulas, for every operand. With the default `K.ALPHA`, an input equal to the state
leaves the state's value; a NaN stays; an infinite state and a finite input give a NaN. -/
def Obligations.OnePoleFixedPointAndNaN : Prop :=
  ∀ (b : Build) (k : Nat) (y s : Word),
    onePole b k y s = fadd (k + 2) y (fmul (k + 1) b.k.alpha (fsub k s y)) ∧
      tilt b k s y = fadd (k + 2) (fmul k s b.k.toneKeep) (fmul (k + 1) y b.k.tone) ∧
      (b.k.alpha = 0x3E19999A →
        (isFinite y = true → feq (onePole b k y y) y = true) ∧
          (isNaN y = true ∨ isNaN s = true → isNaN (onePole b k y s) = true) ∧
          (isInf y = true → isFinite s = true → isNaN (onePole b k y s) = true) ∧ onePole b k 0 0 = 0)

/-- R185, R20: the dry/wet mix as the rule's formula, for every operand, and its corner cases at `MIX` = 0, at `MIX` = 1 and at a
NaN `MIX`. -/
def Obligations.MixCornerCases : Prop :=
  ∀ (b : Build) (k : Nat) (x t n m : Word),
    let wet := fadd k t n
    mixOut b k x t n m = fadd (k + 4) (fmul (k + 2) (fsub (k + 1) b.k.one m) x) (fmul (k + 3) m wet) ∧
      (isNaN m = true → isNaN (mixOut b k x t n m) = true) ∧
      (b.k.one = 0x3F800000 →
        (isFinite wet = false → isNaN (mixOut b k x t n 0) = true) ∧
          (isNaN x = false → isFinite wet = true →
            feq (mixOut b k x t n 0) x = true ∧ (x ≠ 0x80000000 → mixOut b k x t n 0 = x)) ∧
          (isFinite x = true → isNaN wet = false → feq (mixOut b k x t n 0x3F800000) wet = true) ∧
          (isFinite x = false → isNaN (mixOut b k x t n 0x3F800000) = true))

/-- R301, R348, R232: in contract, with the default constants, a PROCESS completes without a range fault in every legal build;
with `N_FRAMES` ≥ 356 the read-position wrap makes at most one addition. -/
def Obligations.InContractProcessCompletesWithoutFault : Prop :=
  ∀ s : State, MachineInv s → s.build.k = referenceConsts → InContract s → ¬Faulted s →
    ∃ t tap, frameTap s = .ok tap ∧ exec .process s = .next t ∧ t = finishFrame s tap ∧ ¬Faulted t ∧
      (356 ≤ s.build.nFrames →
        tap = tapAt s.build (s.draws + 12)
          (if flt (framePosition s) 0 then fadd (s.draws + 11) (framePosition s) (nat2f (bufferLen s.build))
           else framePosition s))

/-! ## Invariants of the machine -/

/-- R33, R47, R48, R195: every step keeps the machine's invariant (a legal `STATUS`, the `WIDX` invariant, a canonical buffer
with nothing outside its slots). -/
def Obligations.StepKeepsMachineInvariant : Prop :=
  ∀ s t : State, MachineInv s → step s = .next t → MachineInv t

/-- R54, R45: the reset state meets the machine's invariant, is in contract and has no fault recorded. -/
def Obligations.ResetMeetsTheInvariants : Prop :=
  MachineInv State.reset ∧ InContract State.reset ∧ ¬Faulted State.reset

/-- R45, R141, R219, R301, R348: the bound discipline. With the default constants, as long as every SETP finds a value in [0, 1]
in `ARG0`, every step keeps the state in contract and no fault is ever recorded. -/
def Obligations.BoundDisciplineKeepsTheContract : Prop :=
  ∀ s t : State, MachineInv s → s.build.k = referenceConsts → InContract s → ¬Faulted s →
    (nextCommand s = some .setpRate ∨ nextCommand s = some .setpDepth ∨ nextCommand s = some .setpMix →
      unitValue s.arg0 = true) →
    step s = .next t → InContract t ∧ ¬Faulted t

/-! ## The bus (spec/20_memory.md) -/

/-- R66, R74, R76: a step whose next event is an aligned 32-bit write to `CMD` runs the decoded command on the state with that
event taken and the write answered; the word that `withFetchWord` places is run the same way. -/
def Obligations.StepRunsTheDecodedCommand : Prop :=
  (∀ (s : State) (a : Access) (w : Word) (es : List HostEvent),
      s.bus = .access a :: es → a.kind = .write w → a.addr = blockBase s.build + regOffset .cmd → a.size = 4 →
      step s = exec (decodeWord w) ((s.withBus es).withReply (.written a.caller))) ∧
    ∀ (s : State) (w : Word), step (s.withFetchWord 32 w.toNat) = exec (decodeWord w) (s.withReply (.written .audio))

/-- R31, R65, R66, R69, R70, R71: an aligned 32-bit read returns the register's bits, or 0 at `CMD` and the reserved offsets, and
changes no state of the CORE. The last clause is R31's table of offsets, written out. -/
def Obligations.BusReadReturnsTheRegister : Prop :=
  ∀ (s : State) (c : Caller) (off : Nat) (es : List HostEvent),
    s.bus = .access { caller := c, addr := blockBase s.build + off, size := 4, kind := .read } :: es →
    (∀ r, off = regOffset r →
      step s = .next { s with bus := es, reply := .data c (if r = .cmd then 0 else readReg r s) }) ∧
      (0x50 ≤ off → off ≤ 0xFC → off % 4 = 0 → step s = .next { s with bus := es, reply := .data c 0 }) ∧
      ∀ e ∈ [(0x00, 0), (0x04, s.status), (0x08, s.arg0), (0x0C, s.arg1), (0x10, s.inL), (0x14, s.inR), (0x18, s.outL),
          (0x1C, s.outR), (0x20, s.rate), (0x24, s.wowInc), (0x28, s.fltInc), (0x2C, s.depth), (0x30, s.mix),
          (0x34, s.wowPhase), (0x38, s.fltPhase), (0x3C, s.lpL), (0x40, s.lpR), (0x44, s.seed), (0x48, s.widx),
          (0x4C, BitVec.ofNat 32 s.build.nFrames)],
        off = e.1 → step s = .next { s with bus := es, reply := .data c e.2 }

/-- R31, R66, R69, R70: an aligned 32-bit write stores the word in an RW register, which then reads as that word, and has no effect
on a read-only register or at a reserved offset; at `CMD` it executes the command. R31's table of offsets and access codes is
written out, as the two functions' values and as the effect of a write at each offset. -/
def Obligations.BusWriteReachesOnlyHostRegisters : Prop :=
  (∀ e ∈ ([(.cmd, 0x00, .wo), (.status, 0x04, .roStar), (.arg0, 0x08, .rw), (.arg1, 0x0C, .rw), (.inL, 0x10, .rw),
        (.inR, 0x14, .rw), (.outL, 0x18, .roStar), (.outR, 0x1C, .roStar), (.rate, 0x20, .roStar), (.wowInc, 0x24, .roStar),
        (.fltInc, 0x28, .roStar), (.depth, 0x2C, .roStar), (.mix, 0x30, .roStar), (.wowPhase, 0x34, .roStar),
        (.fltPhase, 0x38, .roStar), (.lpL, 0x3C, .roStar), (.lpR, 0x40, .roStar), (.seed, 0x44, .roStar),
        (.widx, 0x48, .roStar), (.nframes, 0x4C, .ro)] : List (Reg × Nat × RegAccess)),
      regOffset e.1 = e.2.1 ∧ regAccess e.1 = e.2.2) ∧
    ∀ (s : State) (c : Caller) (off : Nat) (w : Word) (es : List HostEvent),
      s.bus = .access { caller := c, addr := blockBase s.build + off, size := 4, kind := .write w } :: es →
      (∀ r, off = regOffset r → regAccess r = .rw →
        ∃ t, step s = .next t ∧ readReg r t = w ∧ (∀ q, q ≠ r → readReg q t = readReg q s) ∧ t.buf = s.buf) ∧
        (∀ r, off = regOffset r → regAccess r = .ro ∨ regAccess r = .roStar →
          step s = .next { s with bus := es, reply := .written c }) ∧
        (0x50 ≤ off → off ≤ 0xFC → off % 4 = 0 → step s = .next { s with bus := es, reply := .written c }) ∧
        (off = 0x00 → step s = exec (decodeWord w) { s with bus := es, reply := .written c }) ∧
        (off = 0x08 → step s = .next { s with bus := es, reply := .written c, arg0 := w }) ∧
        (off = 0x0C → step s = .next { s with bus := es, reply := .written c, arg1 := w }) ∧
        (off = 0x10 → step s = .next { s with bus := es, reply := .written c, inL := w }) ∧
        (off = 0x14 → step s = .next { s with bus := es, reply := .written c, inR := w }) ∧
        (off = 0x04 ∨ 0x18 ≤ off ∧ off ≤ 0xFC ∧ off % 4 = 0 → step s = .next { s with bus := es, reply := .written c })

/-- R68, R306: a misaligned or narrow access of the window gets the bus error response and changes no register, no buffer slot
and no `STATUS` bit. That the response is a next state is the model's (log 6). -/
def Obligations.MisalignedOrNarrowAccessChangesNothing : Prop :=
  ∀ (s : State) (a : Access) (es : List HostEvent) (off : Nat), s.bus = .access a :: es →
    a.addr = blockBase s.build + off → off < 0x100 → off % 4 ≠ 0 ∨ a.size ≠ 4 →
    step s = .next { s with bus := es, reply := .busFault a.caller off }

/-- R64: after a host write of an RW register, bits 7:0 of the word stand at the register's own byte address and bits 31:24
three bytes above. -/
def Obligations.RegisterBytesAreLittleEndian : Prop :=
  ∀ (s : State) (r : Reg) (w : Word), regAccess r = .rw →
    let t := writeReg r w s
    let a := blockBase s.build + regOffset r
    windowByte a t = w.extractLsb' 0 8 ∧ windowByte (a + 1) t = w.extractLsb' 8 8 ∧
      windowByte (a + 2) t = w.extractLsb' 16 8 ∧ windowByte (a + 3) t = w.extractLsb' 24 8

/-- R55: no command writes `ARG0`, `ARG1`, `IN_L` or `IN_R`; a host access that executes no command writes no RO* register and
no slot. -/
def Obligations.CommandsAndHostWriteDifferentRegisters : Prop :=
  (∀ (i : Instr) (s t : State), exec i s = .next t → SameHostRegisters s t) ∧
    ∀ s t : State, step s = .next t → nextCommand s = none → nextIsReset s = false → SameEngine s t

/-- R73: with no event to come the CORE executes nothing. That the model then takes a step, one that answers the same state, is
the model's choice (log 16). -/
def Obligations.IdleCoreChangesNothing : Prop :=
  ∀ s : State, s.bus = [] → step s = .next s

/-- Log 11: an access outside the register window is no access of the CORE; the step stops with a fault that names the address.
The window is R63's; the stop is the model's choice. -/
def Obligations.AccessOutsideTheWindowStops : Prop :=
  ∀ (s : State) (a : Access) (es : List HostEvent), s.bus = .access a :: es →
    a.addr < blockBase s.build ∨ blockBase s.build + 256 ≤ a.addr → step s = .fault (.outsideWindow a.addr)

/-- R100, R101, R102, R188: the bus accesses of WR and RD (for every register, at its offset), of CMD (for every command), of
INITIALIZE, of SETPARAM (for every index), of FRAME, of a block of frames in order (a block of no frames issues none), of EXPECT
and of REPEAT. -/
def Obligations.ScriptLinesExpandToAccesses : Prop :=
  ∀ (b : Build) (c : Caller),
    let access : Nat → AccessKind → Access := fun off kind => ⟨c, blockBase b + off, 4, kind⟩
    let frame : Word × Word → List Access := fun f =>
      [access 0x10 (.write f.1), access 0x14 (.write f.2), access 0x00 (.write 2), access 0x18 .read, access 0x1C .read]
    (∀ (r : Reg) (x : Word), lineAccesses b c (.wr r x) = [access (regOffset r) (.write x)] ∧
        lineAccesses b c (.rd r) = [access (regOffset r) .read] ∧
        lineAccesses b c (.expect r x) = [access (regOffset r) .read]) ∧
      (∀ (i : Instr) (x : Word), lineAccesses b c (.cmd i) = [access 0x00 (.write (encode i))] ∧
        lineAccesses b c (.cmdWord x) = [access 0x00 (.write x)]) ∧
      (∀ x y : Word, lineAccesses b c (.initCall x y) =
        [access 0x08 (.write x), access 0x0C (.write y), access 0x00 (.write 1)]) ∧
      (∀ (n : BitVec 4) (x : Word), lineAccesses b c (.setParam n x) =
        [access 0x08 (.write x), access 0x00 (.write (BitVec.ofNat 32 (3 + 16 * n.toNat)))]) ∧
      (∀ x y : Word, lineAccesses b c (.frame x y) = frame (x, y)) ∧
      (∀ fs : List (Word × Word), lineAccesses b c (.processBlock fs) = (fs.map frame).flatten) ∧
      lineAccesses b c (.processBlock []) = [] ∧
      ∀ (n : Nat) (p q : Script), scriptAccesses b c (.again 0 p q) = scriptAccesses b c q ∧
        scriptAccesses b c (.again (n + 1) p q) = scriptAccesses b c p ++ scriptAccesses b c (.again n p q)

/-! ## The arithmetic (spec/00_scope.md) -/

/-- R16, R17, R19: the sum and the difference of finite operands are the exact ones rounded to nearest, ties to even, with overflow
to the infinity of the exact result's sign; an exact zero is -0 only for (-0) + (-0) and (-0) - (+0). -/
def Obligations.SumIsRoundedToNearestEven : Prop :=
  ∀ (k : Nat) (a b : Word), isFinite a = true → isFinite b = true →
    RoundedFrom (valueOf a + valueOf b) 1 (fadd k a b) ∧ RoundedFrom (valueOf a - valueOf b) 1 (fsub k a b) ∧
      (valueOf a + valueOf b = 0 → fadd k a b = if signOf a && signOf b then 0x80000000 else 0) ∧
      (valueOf a - valueOf b = 0 → fsub k a b = if signOf a && !signOf b then 0x80000000 else 0)

/-- R16, R17, R19: the product of finite operands, and the quotient by a divisor that is not 0, are the exact ones rounded to nearest,
ties to even, with overflow to infinity, and have the sign of the operands' signs together. Values are in units of 2^-149, so the
exact product is `valueOf a * valueOf b / 2^149` units. A value that is not 0 divided by 0 is an infinity, and 0 / 0 a NaN. -/
def Obligations.ProductIsRoundedToNearestEven : Prop :=
  ∀ (k : Nat) (a b : Word), isFinite a = true → isFinite b = true →
    RoundedFrom (valueOf a * valueOf b) (2 ^ 149) (fmul k a b) ∧ signOf (fmul k a b) = (signOf a != signOf b) ∧
      (isZero b = false →
        RoundedFrom (if signOf b then -(valueOf a * 2 ^ 149) else valueOf a * 2 ^ 149) (unitsOf b) (fdiv k a b)) ∧
      (isZero b = false ∨ isZero a = false → signOf (fdiv k a b) = (signOf a != signOf b)) ∧
      (isZero b = true → isZero a = false → isInf (fdiv k a b) = true) ∧
      (isZero b = true → isZero a = true → isNaN (fdiv k a b) = true)

/-- R24 (c): for a finite `x` in [0, 2^23) the fractional part is exact and lies in [0, 1). -/
def Obligations.FractionalPartIsExact : Prop :=
  ∀ (k : Nat) (x : Word), fle 0 x = true → flt x 0x4B000000 = true →
    valueOf (fsub k x (nat2f (floorNat x))) = valueOf x - (floorNat x : Int) * 2 ^ 149 ∧
      0 ≤ valueOf x - (floorNat x : Int) * 2 ^ 149 ∧ valueOf x - (floorNat x : Int) * 2 ^ 149 < 2 ^ 149
end

