-- ==== Sys2Proof/Laws/Float.lean ====
section
/-! SUPPORT. Laws of the binary32 arithmetic: the fields of a word, rounding (exact on representable values, monotone), and the
order of the words. -/

namespace Sys2Proof.Machine

/-! ## The fields of a word -/

theorem magOf_lt (x : Word) : magOf x < 2 ^ 31 := Nat.mod_lt _ (by decide)

theorem infMag_lt : infMag < 2 ^ 31 := by decide

theorem toNat_eq (x : Word) : x.toNat = (if signOf x then 2 ^ 31 else 0) + magOf x := by
  have h := x.isLt
  unfold signOf magOf
  by_cases hs : 2 ^ 31 ≤ x.toNat
  · simp only [hs, decide_true, if_true]; omega
  · simp only [hs, decide_false, Bool.false_eq_true, if_false]; omega

@[simp] theorem magOf_packFloat {n : Bool} {m : Nat} (h : m < 2 ^ 31) : magOf (packFloat n m) = m := by
  unfold magOf packFloat
  cases n <;> simp <;> omega

@[simp] theorem signOf_packFloat {n : Bool} {m : Nat} (h : m < 2 ^ 31) : signOf (packFloat n m) = n := by
  unfold signOf packFloat
  cases n <;> simp <;> omega

theorem packFloat_sign_mag (x : Word) : packFloat (signOf x) (magOf x) = x := by
  apply BitVec.eq_of_toNat_eq
  have h := toNat_eq x
  have hm := magOf_lt x
  unfold packFloat
  rw [BitVec.toNat_ofNat, ← h]
  exact Nat.mod_eq_of_lt x.isLt

theorem eq_of_sign_mag {x y : Word} (hs : signOf x = signOf y) (hm : magOf x = magOf y) : x = y := by
  rw [← packFloat_sign_mag x, ← packFloat_sign_mag y, hs, hm]

@[simp] theorem isNaN_iff (x : Word) : isNaN x = true ↔ infMag < magOf x := by simp [isNaN]
@[simp] theorem isInf_iff (x : Word) : isInf x = true ↔ magOf x = infMag := by simp [isInf]
@[simp] theorem isZero_iff (x : Word) : isZero x = true ↔ magOf x = 0 := by simp [isZero]
@[simp] theorem isFinite_iff (x : Word) : isFinite x = true ↔ magOf x < infMag := by simp [isFinite]

theorem isNaN_false_iff (x : Word) : isNaN x = false ↔ magOf x ≤ infMag := by simp [isNaN]

theorem not_isNaN_of_isFinite {x : Word} (h : isFinite x = true) : isNaN x = false := by
  rw [isFinite_iff] at h; rw [isNaN_false_iff]; omega

theorem not_isInf_of_isFinite {x : Word} (h : isFinite x = true) : isInf x = false := by
  rw [isFinite_iff] at h
  simp only [isInf, decide_eq_false_iff_not]; omega

/-- The NaN of a draw is a NaN (00_scope.md R18). -/
@[simp] theorem isNaN_freeNaN (k : Nat) : isNaN (freeNaN k) = true := by
  have hm : infMag + 2 ^ 22 + (Config.nanBits k).toNat % 2 ^ 22 < 2 ^ 31 := by
    have := Nat.mod_lt (Config.nanBits k).toNat (show 0 < 2 ^ 22 by decide)
    unfold infMag; omega
  rw [isNaN_iff, freeNaN, magOf_packFloat hm]
  omega

@[simp] theorem magOf_negate (x : Word) : magOf (negate x) = magOf x := magOf_packFloat (magOf_lt x)

@[simp] theorem signOf_negate (x : Word) : signOf (negate x) = !signOf x := signOf_packFloat (magOf_lt x)

@[simp] theorem unitsOf_negate (x : Word) : unitsOf (negate x) = unitsOf x := by simp [unitsOf]

@[simp] theorem valueOf_negate (x : Word) : valueOf (negate x) = -valueOf x := by
  unfold valueOf
  cases h : signOf x <;> simp [h]

/-! ## Units -/

theorem unitsOfMag_of_lt {g : Nat} (h : g < 2 ^ 23) : unitsOfMag g = g := by rw [unitsOfMag, if_pos h]

/-- The form of a magnitude that is not subnormal: exponent field `e + 1`, significand `2^23 + f`. -/
theorem mag_split {g : Nat} (h : 2 ^ 23 ≤ g) :
    ∃ e f, f < 2 ^ 23 ∧ g = (e + 1) * 2 ^ 23 + f ∧ unitsOfMag g = (2 ^ 23 + f) * 2 ^ e := by
  refine ⟨g / 2 ^ 23 - 1, g % 2 ^ 23, Nat.mod_lt _ (by decide), ?_, ?_⟩
  · have := Nat.div_add_mod g (2 ^ 23)
    omega
  · rw [unitsOfMag, if_neg (Nat.not_lt.mpr h)]

theorem unitsOfMag_strictMono {g h : Nat} (hgh : g < h) : unitsOfMag g < unitsOfMag h := by
  by_cases h1 : h < 2 ^ 23
  · rw [unitsOfMag_of_lt h1, unitsOfMag_of_lt (by omega)]; exact hgh
  · obtain ⟨e, f, hf, he, hu⟩ := mag_split (Nat.not_lt.mp h1)
    have hp : 1 ≤ 2 ^ e := Nat.one_le_two_pow
    by_cases h2 : g < 2 ^ 23
    · rw [unitsOfMag_of_lt h2, hu]
      nlinarith
    · obtain ⟨e', f', hf', he', hu'⟩ := mag_split (Nat.not_lt.mp h2)
      rw [hu, hu']
      rcases Nat.lt_or_ge e' e with hee | hee
      · have : 2 ^ (e' + 1) ≤ 2 ^ e := Nat.pow_le_pow_right (by decide) hee
        rw [pow_succ] at this
        calc (2 ^ 23 + f') * 2 ^ e' < 2 ^ 24 * 2 ^ e' := by
              apply Nat.mul_lt_mul_of_pos_right (by omega) (by positivity)
          _ = 2 ^ 23 * (2 ^ e' * 2) := by ring
          _ ≤ 2 ^ 23 * 2 ^ e := Nat.mul_le_mul_left _ this
          _ ≤ (2 ^ 23 + f) * 2 ^ e := Nat.mul_le_mul_right _ (by omega)
      · have hee' : e' = e := by
          by_contra hne
          have : e + 1 ≤ e' := by omega
          have : (e + 1) * 2 ^ 23 + 2 ^ 23 ≤ (e' + 1) * 2 ^ 23 := by nlinarith
          omega
        subst hee'
        apply Nat.mul_lt_mul_of_pos_right (by omega) (by positivity)

theorem unitsOfMag_mono {g h : Nat} (hgh : g ≤ h) : unitsOfMag g ≤ unitsOfMag h := by
  rcases Nat.lt_or_ge g h with h1 | h1
  · exact Nat.le_of_lt (unitsOfMag_strictMono h1)
  · rw [Nat.le_antisymm hgh h1]

@[simp] theorem unitsOfMag_zero : unitsOfMag 0 = 0 := by decide

theorem unitsOfMag_eq_zero {g : Nat} : unitsOfMag g = 0 ↔ g = 0 := by
  constructor
  · intro h
    by_contra hg
    have := unitsOfMag_strictMono (Nat.pos_of_ne_zero hg)
    simp at this; omega
  · rintro rfl; simp

/-! ## Rounding to a natural number -/

theorem roundNearest_lower {n d : Nat} (hd : 0 < d) :
    2 * (roundNearest n d * d) ≤ 2 * n + d ∧ (2 * (roundNearest n d * d) = 2 * n + d → roundNearest n d % 2 = 0) := by
  have h := Nat.div_add_mod n d
  have hm := Nat.mod_lt n hd
  unfold roundNearest
  generalize n / d = q at *
  generalize n % d = r at *
  subst h
  rw [show d * q = q * d from Nat.mul_comm d q]
  split
  · rename_i hc
    rw [Nat.add_mul, Nat.one_mul]
    generalize q * d = p
    omega
  · rw [Nat.add_zero]
    generalize q * d = p
    omega

theorem roundNearest_upper {n d : Nat} (hd : 0 < d) :
    2 * n ≤ 2 * (roundNearest n d * d) + d ∧ (2 * n = 2 * (roundNearest n d * d) + d → roundNearest n d % 2 = 0) := by
  have h := Nat.div_add_mod n d
  have hm := Nat.mod_lt n hd
  unfold roundNearest
  generalize n / d = q at *
  generalize n % d = r at *
  subst h
  rw [show d * q = q * d from Nat.mul_comm d q]
  split
  · rename_i hc
    rw [Nat.add_mul, Nat.one_mul]
    generalize q * d = p
    omega
  · rw [Nat.add_zero]
    generalize q * d = p
    omega

/-- Rounding to the nearest natural number is monotone. -/
theorem roundNearest_mono {n d n' d' : Nat} (hd : 0 < d) (hd' : 0 < d') (h : n * d' ≤ n' * d) :
    roundNearest n d ≤ roundNearest n' d' := by
  by_contra hlt
  push Not at hlt
  obtain ⟨l1, l2⟩ := roundNearest_lower (n := n) hd
  obtain ⟨u1, u2⟩ := roundNearest_upper (n := n') hd'
  generalize roundNearest n d = a at *
  generalize roundNearest n' d' = b at *
  have e1 : 2 * (a * d) * d' ≤ (2 * n + d) * d' := Nat.mul_le_mul_right _ l1
  have e2 : 2 * n' * d ≤ (2 * (b * d') + d') * d := Nat.mul_le_mul_right _ u1
  have e3 : (b + 1) * (d * d') ≤ a * (d * d') := Nat.mul_le_mul_right _ hlt
  have hdd : 0 < d * d' := Nat.mul_pos hd hd'
  have k1 : 2 * (a * d) * d' = (2 * n + d) * d' := by nlinarith
  have k2 : 2 * n' * d = (2 * (b * d') + d') * d := by nlinarith
  have k3 : a = b + 1 := by
    apply Nat.eq_of_mul_eq_mul_right hdd
    nlinarith
  have p1 := l2 (Nat.eq_of_mul_eq_mul_right hd' k1)
  have p2 := u2 (Nat.eq_of_mul_eq_mul_right hd k2)
  omega

/-- A multiple is rounded to itself. -/
theorem roundNearest_mul {q d : Nat} (hd : 0 < d) : roundNearest (q * d) d = q := by
  unfold roundNearest
  rw [Nat.mul_div_cancel _ hd, Nat.mul_mod_left]
  split <;> omega

theorem le_roundNearest {q n d : Nat} (hd : 0 < d) (h : q * d ≤ n) : q ≤ roundNearest n d := by
  have := roundNearest_mono (n := q) (d := 1) (n' := n) (d' := d) (by decide) hd (by omega)
  rwa [show roundNearest q 1 = q by simpa using roundNearest_mul (q := q) (d := 1) (by decide)] at this

theorem roundNearest_le {q n d : Nat} (hd : 0 < d) (h : n ≤ q * d) : roundNearest n d ≤ q := by
  have := roundNearest_mono (n := n) (d := d) (n' := q) (d' := 1) hd (by decide) (by omega)
  rwa [show roundNearest q 1 = q by simpa using roundNearest_mul (q := q) (d := 1) (by decide)] at this

/-! ## Rounding to a magnitude -/

/-- The exponent step that `roundMag` takes for a quotient `q`. -/
theorem log2_step (q : Nat) : q < 2 ^ (Nat.log2 q - 23 + 24) := by
  rcases Nat.eq_zero_or_pos q with h | h
  · subst h; positivity
  · calc q < 2 ^ (Nat.log2 q + 1) := Nat.lt_log2_self
      _ ≤ _ := Nat.pow_le_pow_right (by decide) (by omega)

theorem roundMag_le (n d : Nat) : roundMag n d ≤ infMag := Nat.min_le_left _ _

theorem roundMag_lt (n d : Nat) : roundMag n d < 2 ^ 31 := Nat.lt_of_le_of_lt (roundMag_le n d) infMag_lt

/-- Rounding to a magnitude is monotone. -/
theorem roundMag_mono {n d n' d' : Nat} (hd : 0 < d) (hd' : 0 < d') (h : n * d' ≤ n' * d) :
    roundMag n d ≤ roundMag n' d' := by
  have hq : n / d ≤ n' / d' := by
    rw [Nat.le_div_iff_mul_le hd']
    have h1 : n / d * d' * d ≤ n' * d := by
      calc n / d * d' * d = n / d * d * d' := by ring
        _ ≤ n * d' := Nat.mul_le_mul_right _ (Nat.div_mul_le_self n d)
        _ ≤ n' * d := h
    exact Nat.le_of_mul_le_mul_right h1 hd
  have hb := log2_step (n / d)
  have hstep : Nat.log2 (n / d) ≤ Nat.log2 (n' / d') := by
    rcases Nat.eq_zero_or_pos (n / d) with h0 | h0
    · rw [h0]; simp
    · rw [Nat.le_log2 (by omega)]
      exact Nat.le_trans (Nat.log2_self_le (by omega)) hq
  unfold roundMag
  apply min_le_min_left
  rcases Nat.lt_or_ge (Nat.log2 (n / d) - 23) (Nat.log2 (n' / d') - 23) with hlt | hge
  · have hpos : n' / d' ≠ 0 := by
      intro h0; rw [h0] at hlt; simp at hlt
    have hs : 2 ^ 23 * 2 ^ (Nat.log2 (n' / d') - 23) ≤ n' / d' := by
      rw [← pow_add, show 23 + (Nat.log2 (n' / d') - 23) = Nat.log2 (n' / d') by omega]
      exact Nat.log2_self_le hpos
    generalize Nat.log2 (n / d) - 23 = t at *
    generalize Nat.log2 (n' / d') - 23 = t' at *
    have hu : roundNearest n (d * 2 ^ t) ≤ 2 ^ 24 := by
      apply roundNearest_le (by positivity)
      have : n < (n / d + 1) * d := by
        have := Nat.lt_div_mul_add hd (a := n)
        nlinarith
      have h2 : n / d + 1 ≤ 2 ^ (t + 24) := hb
      calc n ≤ (n / d + 1) * d := Nat.le_of_lt this
        _ ≤ 2 ^ (t + 24) * d := Nat.mul_le_mul_right _ h2
        _ = 2 ^ 24 * (d * 2 ^ t) := by rw [pow_add]; ring
    have hl : 2 ^ 23 ≤ roundNearest n' (d' * 2 ^ t') := by
      apply le_roundNearest (by positivity)
      calc 2 ^ 23 * (d' * 2 ^ t') = (2 ^ 23 * 2 ^ t') * d' := by ring
        _ ≤ n' / d' * d' := Nat.mul_le_mul_right _ hs
        _ ≤ n' := Nat.div_mul_le_self n' d'
    have : (t + 1) * 2 ^ 23 ≤ t' * 2 ^ 23 := Nat.mul_le_mul_right _ hlt
    omega
  · have he : Nat.log2 (n / d) - 23 = Nat.log2 (n' / d') - 23 := by omega
    rw [he]
    apply Nat.add_le_add_left
    apply roundNearest_mono (by positivity) (by positivity)
    calc n * (d' * 2 ^ (Nat.log2 (n' / d') - 23)) = n * d' * 2 ^ (Nat.log2 (n' / d') - 23) := by ring
      _ ≤ n' * d * 2 ^ (Nat.log2 (n' / d') - 23) := Nat.mul_le_mul_right _ h
      _ = _ := by ring

/-- A representable magnitude is rounded to itself. -/
theorem roundMag_exact {g d : Nat} (hd : 0 < d) (hg : g ≤ infMag) : roundMag (unitsOfMag g * d) d = g := by
  unfold roundMag
  rw [Nat.mul_div_cancel _ hd]
  by_cases h : g < 2 ^ 23
  · rw [unitsOfMag_of_lt h]
    have hl : Nat.log2 g - 23 = 0 := by
      rcases Nat.eq_zero_or_pos g with h0 | h0
      · subst h0; simp
      · have := (Nat.log2_lt (by omega)).mpr h
        omega
    simp only [hl, Nat.zero_mul, Nat.zero_add, pow_zero, Nat.mul_one, roundNearest_mul hd]
    omega
  · obtain ⟨e, f, hf, he, hu⟩ := mag_split (Nat.not_lt.mp h)
    have hne : (2 ^ 23 + f) * 2 ^ e ≠ 0 := by positivity
    have hl : Nat.log2 ((2 ^ 23 + f) * 2 ^ e) = e + 23 := by
      rw [Nat.log2_eq_iff hne]
      constructor
      · rw [pow_add]; nlinarith [Nat.one_le_two_pow (n := e)]
      · rw [show e + 23 + 1 = e + 24 by omega, pow_add]
        nlinarith [Nat.one_le_two_pow (n := e)]
    rw [hu, hl, show e + 23 - 23 = e by omega]
    dsimp only
    rw [show (2 ^ 23 + f) * 2 ^ e * d = (2 ^ 23 + f) * (d * 2 ^ e) by ring, roundNearest_mul (by positivity)]
    rw [he, Nat.add_mul, Nat.one_mul] at hg ⊢
    omega

theorem roundMag_exact_one {g : Nat} (hg : g ≤ infMag) : roundMag (unitsOfMag g) 1 = g := by
  simpa using roundMag_exact (d := 1) (by decide) hg

/-- Rounding stays at or below a representable bound. -/
theorem roundMag_le_of {n d g : Nat} (hd : 0 < d) (hg : g ≤ infMag) (h : n ≤ unitsOfMag g * d) : roundMag n d ≤ g := by
  have := roundMag_mono (n := n) (d := d) (n' := unitsOfMag g) (d' := 1) hd (by decide) (by omega)
  rwa [roundMag_exact_one hg] at this

/-- Rounding stays at or above a representable bound. -/
theorem le_roundMag_of {n d g : Nat} (hd : 0 < d) (hg : g ≤ infMag) (h : unitsOfMag g * d ≤ n) : g ≤ roundMag n d := by
  have := roundMag_mono (n := unitsOfMag g) (d := 1) (n' := n) (d' := d) (by decide) hd (by omega)
  rwa [roundMag_exact_one hg] at this

/-! ## The order of the words -/

theorem orderKey_packFloat {n : Bool} {m : Nat} (h : m < 2 ^ 31) :
    orderKey (packFloat n m) = if n then -(m : Int) else (m : Int) := by
  rw [orderKey, signOf_packFloat h, magOf_packFloat h]

theorem orderKey_negate (x : Word) : orderKey (negate x) = -orderKey x := by
  unfold orderKey
  cases h : signOf x <;> simp [h]

theorem orderKey_natAbs (x : Word) : (orderKey x).natAbs = magOf x := by
  unfold orderKey; split <;> simp

/-- On words that are no NaN, the order of the keys is the order of the values. -/
theorem valueOf_le_iff (x y : Word) : valueOf x ≤ valueOf y ↔ orderKey x ≤ orderKey y := by
  have key : ∀ a b : Nat, unitsOfMag a ≤ unitsOfMag b ↔ a ≤ b := fun a b =>
    ⟨fun h => by
      by_contra hc
      have := unitsOfMag_strictMono (Nat.lt_of_not_le hc)
      omega, unitsOfMag_mono⟩
  have z : ∀ a : Nat, unitsOfMag a = 0 ↔ a = 0 := fun a => unitsOfMag_eq_zero
  have h1 := key (magOf x) (magOf y)
  have h2 := key (magOf y) (magOf x)
  have z1 := z (magOf x)
  have z2 := z (magOf y)
  unfold valueOf orderKey unitsOf
  cases signOf x <;> cases signOf y <;> simp only [Bool.false_eq_true, if_true, if_false] <;> omega

theorem valueOf_lt_iff (x y : Word) : valueOf x < valueOf y ↔ orderKey x < orderKey y := by
  rw [← Int.not_le, ← Int.not_le, valueOf_le_iff]

theorem valueOf_eq_iff (x y : Word) : valueOf x = valueOf y ↔ orderKey x = orderKey y := by
  have := valueOf_le_iff x y
  have := valueOf_le_iff y x
  omega

theorem fle_iff (a b : Word) : fle a b = true ↔ isNaN a = false ∧ isNaN b = false ∧ orderKey a ≤ orderKey b := by
  simp [fle, and_assoc]

theorem flt_iff (a b : Word) : flt a b = true ↔ isNaN a = false ∧ isNaN b = false ∧ orderKey a < orderKey b := by
  simp [flt, and_assoc]

theorem feq_iff (a b : Word) : feq a b = true ↔ isNaN a = false ∧ isNaN b = false ∧ orderKey a = orderKey b := by
  simp [feq, and_assoc]

/-! ## Signed rounding, and the operations on finite operands -/

/-- A signed number of units rounded to a word; zero is +0. -/
def roundValue (v : Int) : Word := packFloat (decide (v < 0)) (roundMag v.natAbs 1)

theorem orderKey_roundValue (v : Int) :
    orderKey (roundValue v) = if v < 0 then -(roundMag v.natAbs 1 : Int) else (roundMag v.natAbs 1 : Int) := by
  rw [roundValue, orderKey_packFloat (roundMag_lt _ _)]
  by_cases h : v < 0 <;> simp [h]

/-- Signed rounding is monotone. -/
theorem orderKey_roundValue_mono {v w : Int} (h : v ≤ w) : orderKey (roundValue v) ≤ orderKey (roundValue w) := by
  have key : ∀ a b : Nat, a ≤ b → roundMag a 1 ≤ roundMag b 1 := fun a b hab =>
    roundMag_mono (by decide) (by decide) (by omega)
  rw [orderKey_roundValue, orderKey_roundValue]
  by_cases hv : v < 0 <;> by_cases hw : w < 0
  · have := key w.natAbs v.natAbs (by omega)
    simp only [hv, hw, if_true]; omega
  · simp only [hv, hw, if_true, if_false]; omega
  · omega
  · have := key v.natAbs w.natAbs (by omega)
    simp only [hv, hw, if_false]; omega

/-- A representable value is rounded to the word that holds it. -/
theorem orderKey_roundValue_valueOf {x : Word} (h : magOf x ≤ infMag) : orderKey (roundValue (valueOf x)) = orderKey x := by
  rw [orderKey_roundValue]
  have hr : ∀ n : Nat, n = unitsOf x → roundMag n 1 = magOf x := fun n hn => by
    rw [hn]; exact roundMag_exact_one h
  have hz := unitsOfMag_eq_zero (g := magOf x)
  unfold orderKey valueOf
  cases signOf x
  · simp only [Bool.false_eq_true, if_false]
    rw [if_neg (by omega), hr _ (by simp)]
  · simp only [if_true]
    rw [hr _ (by simp)]
    unfold unitsOf
    split <;> omega

/-- The sum of two finite operands is the exact sum, rounded once (00_scope.md R16), up to the sign of a zero. -/
theorem orderKey_fadd {k : Nat} {a b : Word} (ha : isFinite a = true) (hb : isFinite b = true) :
    orderKey (fadd k a b) = orderKey (roundValue (valueOf a + valueOf b)) := by
  unfold fadd
  simp only [not_isNaN_of_isFinite ha, not_isNaN_of_isFinite hb, not_isInf_of_isFinite ha, not_isInf_of_isFinite hb,
    Bool.or_self, Bool.false_eq_true, if_false]
  split
  · rename_i h
    rw [h]
    cases signOf a <;> cases signOf b <;> decide
  · rfl

theorem isNaN_fadd {k : Nat} {a b : Word} (ha : isFinite a = true) (hb : isFinite b = true) :
    isNaN (fadd k a b) = false := by
  unfold fadd
  simp only [not_isNaN_of_isFinite ha, not_isNaN_of_isFinite hb, not_isInf_of_isFinite ha, not_isInf_of_isFinite hb,
    Bool.or_self, Bool.false_eq_true, if_false]
  rw [isNaN_false_iff]
  split
  · rw [magOf_packFloat (by decide)]; omega
  · rw [magOf_packFloat (roundMag_lt _ _)]; exact roundMag_le _ _

@[simp] theorem isFinite_negate (x : Word) : isFinite (negate x) = isFinite x := by simp [isFinite]

@[simp] theorem isNaN_negate (x : Word) : isNaN (negate x) = isNaN x := by simp [isNaN]

/-- Subtraction of a word that is no NaN is addition of the negated word. -/
theorem fsub_eq {k : Nat} {a b : Word} (hb : isNaN b = false) : fsub k a b = fadd k a (negate b) := by simp [fsub, hb]

/-- The difference of two finite operands is the exact difference, rounded once, up to the sign of a zero. -/
theorem orderKey_fsub {k : Nat} {a b : Word} (ha : isFinite a = true) (hb : isFinite b = true) :
    orderKey (fsub k a b) = orderKey (roundValue (valueOf a - valueOf b)) := by
  rw [fsub_eq (not_isNaN_of_isFinite hb), orderKey_fadd ha (by simpa using hb), valueOf_negate]
  rfl

theorem isNaN_fsub {k : Nat} {a b : Word} (ha : isFinite a = true) (hb : isFinite b = true) :
    isNaN (fsub k a b) = false := by
  rw [fsub_eq (not_isNaN_of_isFinite hb)]
  exact isNaN_fadd ha (by simpa using hb)

/-- The product of two finite operands: the signs' product, and the exact product rounded once (00_scope.md R16). -/
theorem fmul_eq {k : Nat} {a b : Word} (ha : isFinite a = true) (hb : isFinite b = true) :
    fmul k a b = packFloat (signOf a != signOf b) (roundMag (unitsOf a * unitsOf b) (2 ^ 149)) := by
  unfold fmul
  simp [not_isNaN_of_isFinite ha, not_isNaN_of_isFinite hb, not_isInf_of_isFinite ha, not_isInf_of_isFinite hb]

/-- The quotient of two finite operands, the divisor no zero: the exact quotient rounded once (00_scope.md R16). -/
theorem fdiv_eq {k : Nat} {a b : Word} (ha : isFinite a = true) (hb : isFinite b = true) (hz : isZero b = false) :
    fdiv k a b = packFloat (signOf a != signOf b) (roundMag (unitsOf a * 2 ^ 149) (unitsOf b)) := by
  unfold fdiv
  simp [not_isNaN_of_isFinite ha, not_isNaN_of_isFinite hb, not_isInf_of_isFinite ha, not_isInf_of_isFinite hb, hz]

theorem isNaN_fmul {k : Nat} {a b : Word} (ha : isFinite a = true) (hb : isFinite b = true) :
    isNaN (fmul k a b) = false := by
  rw [fmul_eq ha hb, isNaN_false_iff, magOf_packFloat (roundMag_lt _ _)]
  exact roundMag_le _ _

@[simp] theorem magOf_nat2f (n : Nat) : magOf (nat2f n) = roundMag (n * 2 ^ 149) 1 := magOf_packFloat (roundMag_lt _ _)

@[simp] theorem signOf_nat2f (n : Nat) : signOf (nat2f n) = false := signOf_packFloat (roundMag_lt _ _)

end Sys2Proof.Machine
end

