-- ==== Sys2Proof/Laws/Tap.lean ====
section
/-! SUPPORT. Laws of the wrap loop: every addition moves up, so the recursion's fuel never decides (assumption 18), and what a
wrapped position satisfies. -/

namespace Sys2Proof.Machine

/-- Adding a finite word that is not negative never moves a finite word down. -/
theorem orderKey_le_fadd {k : Nat} {r len : Word} (hr : isFinite r = true) (hl : isFinite len = true)
    (hs : signOf len = false) : orderKey r ≤ orderKey (fadd k r len) := by
  have hv : valueOf r ≤ valueOf r + valueOf len := by
    unfold valueOf; rw [hs]; simp
  have hm : magOf r ≤ infMag := by rw [isFinite_iff] at hr; omega
  rw [orderKey_fadd hr hl, ← orderKey_roundValue_valueOf hm]
  exact orderKey_roundValue_mono hv

/-- -∞ plus a finite word is -∞. -/
theorem fadd_inf_left {k : Nat} {r len : Word} (hr : isInf r = true) (hl : isFinite len = true) : fadd k r len = r := by
  have h1 : isNaN r = false := by rw [isInf_iff] at hr; rw [isNaN_false_iff]; omega
  simp [fadd, h1, not_isNaN_of_isFinite hl, not_isInf_of_isFinite hl, hr]

theorem feq_self {r : Word} (h : isNaN r = false) : feq r r = true := by rw [feq_iff]; exact ⟨h, h, rfl⟩

/-- A position that is not below 0 is not moved. -/
theorem wrapLoop_of_not_neg {k : Nat} {len r : Word} {f : Nat} (h : flt r 0 = false) : wrapLoop k len (f + 1) r = some r := by
  rw [wrapLoop, if_neg (by rw [h]; decide)]

/-- With a length that is not negative, more fuel than there are words between `r` and 0 changes nothing. -/
theorem wrapLoop_fuel {k : Nat} {len : Word} (hl : isFinite len = true) (hs : signOf len = false) (f : Nat) :
    ∀ (g : Nat) (r : Word), -orderKey r < f → -orderKey r < g → wrapLoop k len (f + 1) r = wrapLoop k len (g + 1) r := by
  induction f with
  | zero =>
    intro g r hf _
    have hn : flt r 0 = false := by
      rw [Bool.eq_false_iff, ne_eq, flt_iff]
      rintro ⟨_, _, h⟩
      have : orderKey (0 : Word) = 0 := by decide
      omega
    rw [wrapLoop_of_not_neg hn, wrapLoop_of_not_neg hn]
  | succ f ih =>
    intro g r hf hg
    by_cases hn : flt r 0 = true
    · have h0 : orderKey (0 : Word) = 0 := by decide
      obtain ⟨hnan, _, hlt⟩ := (flt_iff _ _).mp hn
      obtain ⟨g', rfl⟩ : ∃ g', g = g' + 1 := ⟨g - 1, by omega⟩
      rw [wrapLoop, wrapLoop, if_pos hn, if_pos hn]
      dsimp only
      by_cases he : feq (fadd k r len) r = true
      · rw [if_pos he, if_pos he]
      · rw [if_neg he, if_neg he]
        have hfin : isFinite r = true := by
          by_contra hc
          have hi : isInf r = true := by
            rw [isFinite_iff] at hc; rw [isNaN_false_iff] at hnan; rw [isInf_iff]; omega
          rw [fadd_inf_left hi hl] at he
          exact he (feq_self hnan)
        have hle := orderKey_le_fadd (k := k) hfin hl hs
        have hne : orderKey (fadd k r len) ≠ orderKey r := by
          intro heq
          exact he ((feq_iff _ _).mpr ⟨isNaN_fadd hfin hl, hnan, heq⟩)
        exact ih g' _ (by omega) (by omega)
    · have hn : flt r 0 = false := Bool.eq_false_iff.mpr hn
      rw [wrapLoop_of_not_neg hn, wrapLoop_of_not_neg hn]

/-- The fuel of the model is enough: any more gives the same answer, for every build's length and every position. -/
theorem wrapLoop_wrapFuel {k : Nat} {len : Word} (hl : isFinite len = true) (hs : signOf len = false) {g : Nat}
    (hg : wrapFuel ≤ g) (r : Word) : wrapLoop k len g r = wrapLoop k len wrapFuel r := by
  have hk : -orderKey r < (2 ^ 31 : Nat) := by
    have := magOf_lt r
    unfold orderKey
    split <;> omega
  unfold wrapFuel at *
  obtain ⟨g', rfl⟩ : ∃ g', g = g' + 1 := ⟨g - 1, by omega⟩
  by_cases hn : flt r 0 = true
  · by_cases hnan : isNaN r = true
    · rw [flt_iff] at hn; simp [hn.1] at hnan
    · have hm : magOf r ≤ infMag := by simpa using hnan
      have hb := infMag_lt
      have hk2 : -orderKey r < ((2 ^ 31 - 1 : Nat) : Int) := by
        have : infMag < 2 ^ 31 - 1 := by decide
        unfold orderKey
        split <;> omega
      exact wrapLoop_fuel hl hs g' (2 ^ 31 - 1) r (by omega) hk2
  · have hn : flt r 0 = false := Bool.eq_false_iff.mpr hn
    rw [show (2 : Nat) ^ 31 = (2 ^ 31 - 1) + 1 by decide, wrapLoop_of_not_neg hn, wrapLoop_of_not_neg hn]

/-- An addition of the wrap loop that does not stall moves a position below 0 up in the order of the reals. -/
theorem orderKey_lt_fadd {k : Nat} {r len : Word} (hl : isFinite len = true) (hs : signOf len = false) (hn : flt r 0 = true)
    (he : feq (fadd k r len) r = false) : orderKey r < orderKey (fadd k r len) := by
  obtain ⟨hnan, _, _⟩ := (flt_iff _ _).mp hn
  have hfin : isFinite r = true := by
    by_contra hc
    have hi : isInf r = true := by
      rw [isFinite_iff] at hc; rw [isNaN_false_iff] at hnan; rw [isInf_iff]; omega
    rw [fadd_inf_left hi hl, feq_self hnan] at he
    exact absurd he (by decide)
  have hle := orderKey_le_fadd (k := k) hfin hl hs
  have hne : orderKey (fadd k r len) ≠ orderKey r := fun heq => by
    rw [(feq_iff _ _).mpr ⟨isNaN_fadd hfin hl, hnan, heq⟩] at he
    exact absurd he (by decide)
  omega

/-- The wrap loop after `n` additions that start below 0 and do not stall (45_interpolator.md R232, R233): a stalling addition ends
it with no position, a position that is not below 0 is its answer. -/
theorem wrapLoop_iterate {k : Nat} {len : Word} (hl : isFinite len = true) (hs : signOf len = false) (n : Nat) :
    ∀ (f : Nat) (r : Word), -orderKey r < f →
      (∀ j, j < n → flt ((fun x => fadd k x len)^[j] r) 0 = true ∧
        feq ((fun x => fadd k x len)^[j + 1] r) ((fun x => fadd k x len)^[j] r) = false) →
      (flt ((fun x => fadd k x len)^[n] r) 0 = false →
        wrapLoop k len (f + 1) r = some ((fun x => fadd k x len)^[n] r)) ∧
      (flt ((fun x => fadd k x len)^[n] r) 0 = true →
        feq ((fun x => fadd k x len)^[n + 1] r) ((fun x => fadd k x len)^[n] r) = true → wrapLoop k len (f + 1) r = none) := by
  induction n with
  | zero =>
    intro f r _ _
    refine ⟨fun h => wrapLoop_of_not_neg h, fun h he => ?_⟩
    simp only [Function.iterate_succ_apply', Function.iterate_zero, id_eq] at h he
    rw [wrapLoop, if_pos h]
    dsimp only
    rw [if_pos he]
  | succ n ih =>
    intro f r hf hc
    obtain ⟨h0, he⟩ := hc 0 (by omega)
    simp only [Function.iterate_succ_apply, Function.iterate_zero, id_eq] at h0 he
    have hup := orderKey_lt_fadd hl hs h0 he
    have hk : orderKey r < 0 := by
      have := ((flt_iff _ _).mp h0).2.2
      have h00 : orderKey (0 : Word) = 0 := by decide
      omega
    obtain ⟨f', rfl⟩ : ∃ f', f = f' + 1 := ⟨f - 1, by omega⟩
    have hs' : wrapLoop k len (f' + 1 + 1) r = wrapLoop k len (f' + 1) (fadd k r len) := by
      rw [wrapLoop, if_pos h0]
      dsimp only
      rw [if_neg (by rw [he]; decide)]
    rw [hs']
    exact ih f' (fadd k r len) (by omega) fun j hj => hc (j + 1) (by omega)

/-- The same with the model's fuel. -/
theorem wrapLoop_wrapFuel_iterate {k : Nat} {len r : Word} (hl : isFinite len = true) (hs : signOf len = false) {n : Nat}
    (hc : ∀ j, j < n → flt ((fun x => fadd k x len)^[j] r) 0 = true ∧
      feq ((fun x => fadd k x len)^[j + 1] r) ((fun x => fadd k x len)^[j] r) = false) :
    (flt ((fun x => fadd k x len)^[n] r) 0 = false →
        wrapLoop k len wrapFuel r = some ((fun x => fadd k x len)^[n] r)) ∧
      (flt ((fun x => fadd k x len)^[n] r) 0 = true →
        feq ((fun x => fadd k x len)^[n + 1] r) ((fun x => fadd k x len)^[n] r) = true →
        wrapLoop k len wrapFuel r = none) := by
  have hk : -orderKey r < (2 ^ 31 : Nat) := by
    have := magOf_lt r
    unfold orderKey
    split <;> omega
  rw [← wrapLoop_wrapFuel hl hs (show wrapFuel ≤ 2 ^ 31 + 1 by unfold wrapFuel; omega) r]
  exact wrapLoop_iterate hl hs n (2 ^ 31) r hk hc

/-- A wrapped position is not below 0. -/
theorem wrapLoop_not_neg {k : Nat} {len r q : Word} {f : Nat} (h : wrapLoop k len f r = some q) : flt q 0 = false := by
  induction f generalizing r with
  | zero => simp [wrapLoop] at h
  | succ f ih =>
    by_cases hn : flt r 0 = true
    · rw [wrapLoop, if_pos hn] at h
      dsimp only at h
      split at h
      · simp at h
      · exact ih h
    · have hn : flt r 0 = false := Bool.eq_false_iff.mpr hn
      rw [wrapLoop_of_not_neg hn] at h
      rw [← Option.some.inj h]; exact hn

/-- What READ_TAP answers, and when (45_interpolator.md R230-R235). -/
theorem readTap_ok {b : Build} {k w : Nat} {mod : Word} {t : Tap} (h : readTap b k w mod = .ok t) :
    ∃ r, wrapLoop (k + 2) (nat2f (bufferLen b)) wrapFuel (rawPosition b k w mod) = some r ∧ isNaN r = false ∧
      flt r 0 = false ∧ flt (nat2f (bufferLen b)) r = false ∧ t = tapAt b (k + 3) r := by
  unfold readTap at h
  split at h
  · simp at h
  · rename_i r hr
    split at h
    · simp at h
    · rename_i hnan
      split at h
      · simp at h
      · rename_i hhigh
        refine ⟨r, hr, ?_, wrapLoop_not_neg hr, ?_, ?_⟩
        · rw [Bool.eq_false_iff]; exact hnan
        · rw [Bool.eq_false_iff]; exact hhigh
        · simpa using h.symm

end Sys2Proof.Machine
end

