-- ==== Sys2Proof/Laws/Arith.lean ====
section
/-! SUPPORT. Laws of the binary32 operations (00_scope.md R16-R20): NaN operands, zeros, ones, exact results, monotony, and
that a result that is no NaN does not depend on the NaN draw. -/

namespace Sys2Proof.Machine

/-- Every word is a NaN, an infinity or finite. -/
theorem word_cases (x : Word) : isNaN x = true ∨ isInf x = true ∨ isFinite x = true := by
  rw [isNaN_iff, isInf_iff, isFinite_iff]; omega

/-- An infinity is no NaN. -/
theorem not_isNaN_of_isInf {x : Word} (h : isInf x = true) : isNaN x = false := by
  rw [isInf_iff] at h; rw [isNaN_false_iff]; omega

/-- The key of +0. -/
theorem orderKey_zero : orderKey (0:Word) = 0 := by decide

/-- +0 is no NaN. -/
theorem isNaN_zero : isNaN (0:Word) = false := by decide

/-- A NaN operand gives a NaN sum (00_scope.md R16, R18). -/
theorem isNaN_fadd_of_isNaN {k : Nat} {a b : Word} (h : isNaN a = true ∨ isNaN b = true) : isNaN (fadd k a b) = true := by
  unfold fadd
  rw [if_pos (by rcases h with h | h <;> simp only [h, Bool.true_or, Bool.or_true])]
  exact isNaN_freeNaN k

/-- A NaN operand gives a NaN difference. -/
theorem isNaN_fsub_of_isNaN {k : Nat} {a b : Word} (h : isNaN a = true ∨ isNaN b = true) : isNaN (fsub k a b) = true := by
  unfold fsub
  split
  · exact isNaN_freeNaN k
  · rename_i hb; rcases h with h | h
    · exact isNaN_fadd_of_isNaN (.inl h)
    · exact absurd h hb

/-- A NaN operand gives a NaN product. -/
theorem isNaN_fmul_of_isNaN {k : Nat} {a b : Word} (h : isNaN a = true ∨ isNaN b = true) : isNaN (fmul k a b) = true := by
  unfold fmul
  simp only []
  rw [if_pos (by rcases h with h | h <;> simp only [h, Bool.true_or, Bool.or_true])]
  exact isNaN_freeNaN k

/-- A NaN operand gives a NaN quotient. -/
theorem isNaN_fdiv_of_isNaN {k : Nat} {a b : Word} (h : isNaN a = true ∨ isNaN b = true) : isNaN (fdiv k a b) = true := by
  unfold fdiv
  simp only []
  rw [if_pos (by rcases h with h | h <;> simp only [h, Bool.true_or, Bool.or_true])]
  exact isNaN_freeNaN k

/-- A product that is no NaN does not depend on the draw. -/
theorem fmul_draw_irrelevant {k k' : Nat} {a b : Word} (h : isNaN (fmul k' a b) = false) : fmul k a b = fmul k' a b := by
  unfold fmul at *
  simp only [] at *
  split
  · rename_i hc; rw [if_pos hc, isNaN_freeNaN] at h; simp at h
  · rename_i hc; rw [if_neg hc] at h
    split
    · rename_i hi; rw [if_pos hi] at h
      split
      · rename_i hz; rw [if_pos hz, isNaN_freeNaN] at h; simp at h
      · rfl
    · rfl

/-- A sum that is no NaN does not depend on the draw. -/
theorem fadd_draw_irrelevant {k k' : Nat} {a b : Word} (h : isNaN (fadd k' a b) = false) : fadd k a b = fadd k' a b := by
  unfold fadd at *
  split
  · rename_i hc; rw [if_pos hc, isNaN_freeNaN] at h; simp at h
  · rename_i hc; rw [if_neg hc] at h
    split
    · rename_i hi; rw [if_pos hi] at h
      split
      · rename_i hz; rw [if_pos hz, isNaN_freeNaN] at h; simp at h
      · rfl
    · rfl

/-- A difference that is no NaN does not depend on the draw. -/
theorem fsub_draw_irrelevant {k k' : Nat} {a b : Word} (h : isNaN (fsub k' a b) = false) : fsub k a b = fsub k' a b := by
  unfold fsub at *
  split
  · rename_i hc; rw [if_pos hc, isNaN_freeNaN] at h; simp at h
  · rename_i hc; rw [if_neg hc] at h; exact fadd_draw_irrelevant h

/-- A quotient that is no NaN does not depend on the draw. -/
theorem fdiv_draw_irrelevant {k k' : Nat} {a b : Word} (h : isNaN (fdiv k' a b) = false) : fdiv k a b = fdiv k' a b := by
  unfold fdiv at *
  simp only [] at *
  split
  · rename_i hc; rw [if_pos hc, isNaN_freeNaN] at h; simp at h
  · rename_i hc; rw [if_neg hc] at h
    split
    · rename_i hi; rw [if_pos hi] at h
      split
      · rename_i hz; rw [if_pos hz, isNaN_freeNaN] at h; simp at h
      · rfl
    · rename_i hi; rw [if_neg hi] at h
      split
      · rfl
      · rename_i h2; rw [if_neg h2] at h
        split
        · rename_i h3; rw [if_pos h3] at h
          split
          · rename_i hz; rw [if_pos hz, isNaN_freeNaN] at h; simp at h
          · rfl
        · rfl

/-- The sum of two finite operands, written out: the exact sum rounded once, and the sign of an exact zero. -/
theorem fadd_eq {k : Nat} {a b : Word} (ha : isFinite a = true) (hb : isFinite b = true) :
    fadd k a b = if valueOf a + valueOf b = 0 then packFloat (signOf a && signOf b) 0
      else roundValue (valueOf a + valueOf b) := by
  unfold fadd
  simp only [not_isNaN_of_isFinite ha, not_isNaN_of_isFinite hb, not_isInf_of_isFinite ha, not_isInf_of_isFinite hb,
    Bool.or_self, Bool.false_eq_true, if_false]
  rfl

/-- A finite word plus an infinity is that infinity. -/
theorem fadd_inf_right {k : Nat} {a b : Word} (ha : isFinite a = true) (hb : isInf b = true) : fadd k a b = b := by
  simp [fadd, not_isNaN_of_isFinite ha, not_isNaN_of_isInf hb, not_isInf_of_isFinite ha, hb]

/-- The sum of infinities of opposite signs is a NaN. -/
theorem isNaN_fadd_inf_inf {k : Nat} {a b : Word} (ha : isInf a = true) (hb : isInf b = true) (h : signOf a ≠ signOf b) :
    isNaN (fadd k a b) = true := by
  have : (signOf a != signOf b) = true := by simpa using h
  unfold fadd
  simp only [not_isNaN_of_isInf ha, not_isNaN_of_isInf hb, ha, hb, this]
  exact isNaN_freeNaN k

/-- Only the two zeros have the value 0. -/
theorem valueOf_zero_iff (x : Word) : valueOf x = 0 ↔ magOf x = 0 := by
  have := unitsOfMag_eq_zero (g := magOf x)
  unfold valueOf unitsOf; split <;> omega

/-- Rounding the value of a word that is no zero gives the word. -/
theorem roundValue_valueOf {x : Word} (h : magOf x ≤ infMag) (h0 : valueOf x ≠ 0) : roundValue (valueOf x) = x := by
  have hz := valueOf_zero_iff x
  apply eq_of_sign_mag
  · unfold roundValue; rw [signOf_packFloat (roundMag_lt _ _)]
    unfold valueOf at *; cases hs : signOf x <;> simp [hs] at *
    omega
  · unfold roundValue; rw [magOf_packFloat (roundMag_lt _ _)]
    have : (valueOf x).natAbs = unitsOf x := by unfold valueOf; split <;> simp
    rw [this]; exact roundMag_exact_one h

/-- A sum whose exact value is that of a word that is no zero is that word. -/
theorem fadd_exact {k : Nat} {a b c : Word} (ha : isFinite a = true) (hb : isFinite b = true) (hc : magOf c ≤ infMag)
    (h : valueOf a + valueOf b = valueOf c) (h0 : valueOf c ≠ 0) : fadd k a b = c := by
  rw [fadd_eq ha hb, h, if_neg h0]; exact roundValue_valueOf hc h0

/-- Adding a zero leaves the value, every bit of a word other than -0, and of two zeros the IEEE zero. -/
theorem fadd_zero_right {k : Nat} {x z : Word} (hx : isNaN x = false) (hz : isZero z = true) :
    feq (fadd k x z) x = true ∧ (x ≠ 0x80000000 → fadd k x z = x) ∧
      (isZero x = true → fadd k x z = packFloat (signOf x && signOf z) 0) := by
  have hzf : isFinite z = true := by rw [isZero_iff] at hz; rw [isFinite_iff, hz]; decide
  have hvz : valueOf z = 0 := (valueOf_zero_iff z).mpr (by simpa using hz)
  rcases word_cases x with h | h | h
  · rw [hx] at h; simp at h
  · have e : fadd k x z = x := fadd_inf_left h hzf
    rw [e]; refine ⟨feq_self hx, fun _ => rfl, fun h' => ?_⟩
    rw [isInf_iff] at h; rw [isZero_iff, h] at h'; simp [infMag] at h'
  · by_cases h0 : valueOf x = 0
    · have hm := (valueOf_zero_iff x).mp h0
      have e : fadd k x z = packFloat (signOf x && signOf z) 0 := by rw [fadd_eq h hzf, if_pos (by omega)]
      rw [e]
      refine ⟨?_, ?_, fun _ => rfl⟩
      · rw [feq_iff]; refine ⟨?_, hx, ?_⟩
        · rw [isNaN_false_iff, magOf_packFloat (by decide)]; omega
        · rw [orderKey_packFloat (by decide)]; unfold orderKey; rw [hm]; simp
      · intro hne
        apply eq_of_sign_mag
        · rw [signOf_packFloat (by decide)]
          cases hs : signOf x
          · rfl
          · exfalso; apply hne; rw [← packFloat_sign_mag x, hs, hm]; rfl
        · rw [magOf_packFloat (by decide), hm]
    · have e : fadd k x z = x := fadd_exact h hzf (by rw [isFinite_iff] at h; omega) (by omega) h0
      rw [e]; refine ⟨feq_self hx, fun _ => rfl, fun h' => ?_⟩
      rw [isZero_iff] at h'; exact absurd ((valueOf_zero_iff x).mpr h') h0

/-- Addition of finite words commutes. -/
theorem fadd_comm_of_isFinite {k : Nat} {a b : Word} (ha : isFinite a = true) (hb : isFinite b = true) :
    fadd k a b = fadd k b a := by
  rw [fadd_eq ha hb, fadd_eq hb ha, Int.add_comm, Bool.and_comm]

/-- Adding to a zero leaves the value. -/
theorem fadd_zero_left {k : Nat} {x z : Word} (hx : isNaN x = false) (hz : isZero z = true) : feq (fadd k z x) x = true := by
  have hzf : isFinite z = true := by rw [isZero_iff] at hz; rw [isFinite_iff, hz]; decide
  rcases word_cases x with h | h | h
  · rw [hx] at h; simp at h
  · rw [fadd_inf_right hzf h]; exact feq_self hx
  · rw [fadd_comm_of_isFinite hzf h]; exact (fadd_zero_right hx hz).1

/-- Multiplication commutes, in the NaN draw too. -/
theorem fmul_comm (k : Nat) (a b : Word) : fmul k a b = fmul k b a := by
  unfold fmul
  simp only [Bool.or_comm (isNaN a), Bool.or_comm (isInf a), Bool.or_comm (isZero a), Nat.mul_comm (unitsOf a)]
  rw [show (signOf a != signOf b) = (signOf b != signOf a) by cases signOf a <;> cases signOf b <;> rfl]

/-- Multiplication by 1.0 leaves every bit. -/
theorem fmul_one_right {k : Nat} {x : Word} (hx : isNaN x = false) : fmul k x 0x3F800000 = x := by
  have hs : (signOf x != signOf (0x3F800000 : Word)) = signOf x := by
    rw [show signOf (0x3F800000 : Word) = false by decide]; cases signOf x <;> rfl
  rcases word_cases x with h | h | h
  · rw [hx] at h; simp at h
  · unfold fmul
    simp only [hx, h, show isNaN (0x3F800000 : Word) = false by decide,
      show isZero (0x3F800000 : Word) = false by decide, hs]
    have hz : isZero x = false := by rw [isInf_iff] at h; simp [isZero, h, infMag]
    rw [hz]; simp only [Bool.or_self, Bool.false_eq_true, if_false, Bool.true_or, if_true]
    rw [isInf_iff] at h; rw [← h]; exact packFloat_sign_mag x
  · rw [fmul_eq h (by decide), hs, show unitsOf (0x3F800000 : Word) = 2^149 by decide]
    unfold unitsOf
    rw [roundMag_exact (by decide) (by rw [isFinite_iff] at h; omega)]
    exact packFloat_sign_mag x

/-- Multiplication of 1.0 leaves every bit. -/
theorem fmul_one_left {k : Nat} {x : Word} (hx : isNaN x = false) : fmul k 0x3F800000 x = x := by
  rw [fmul_comm]; exact fmul_one_right hx

/-- Zero rounds to zero. -/
theorem roundMag_zero (d : Nat) : roundMag 0 d = 0 := by
  unfold roundMag roundNearest; simp

/-- A finite word times a zero is a zero. -/
theorem fmul_zero_right {k : Nat} {x z : Word} (hz : isZero z = true) (hx : isFinite x = true) :
    fmul k x z = packFloat (signOf x != signOf z) 0 := by
  have hzf : isFinite z = true := by rw [isZero_iff] at hz; rw [isFinite_iff, hz]; decide
  rw [isZero_iff] at hz
  rw [fmul_eq hx hzf, show unitsOf z = 0 by unfold unitsOf; rw [hz]; decide, Nat.mul_zero, roundMag_zero]

/-- An infinity or a NaN times a zero is a NaN. -/
theorem isNaN_fmul_zero {k : Nat} {x z : Word} (hz : isZero z = true) (hx : isFinite x = false) :
    isNaN (fmul k x z) = true := by
  have hzf : isFinite z = true := by rw [isZero_iff] at hz; rw [isFinite_iff, hz]; decide
  rcases word_cases x with h | h | h
  · exact isNaN_fmul_of_isNaN (.inl h)
  · unfold fmul; simp only [h, hz, not_isNaN_of_isInf h, not_isNaN_of_isFinite hzf]; simp
  · rw [hx] at h; simp at h

/-- A word of magnitude 0 is a zero. -/
theorem isZero_packFloat_zero {n : Bool} : isZero (packFloat n 0) = true := by cases n <;> decide

/-- A word whose key is bounded by a finite magnitude is finite. -/
theorem isFinite_of_orderKey {x : Word} {m : Nat} (h1 : -(m : Int) ≤ orderKey x) (h2 : orderKey x ≤ m) (hm : m < infMag) :
    isFinite x = true := by
  have := orderKey_natAbs x
  rw [isFinite_iff]; omega

/-- A word of magnitude at most a finite one is finite. -/
theorem isFinite_of_magOf_le {x : Word} {m : Nat} (h : magOf x ≤ m) (hm : m < infMag) :
    isFinite x = true := by rw [isFinite_iff]; omega

/-- The units grow with the magnitude. -/
theorem unitsOf_mono {x y : Word} (h : magOf x ≤ magOf y) : unitsOf x ≤ unitsOf y := unitsOfMag_mono h

/-- A key that is not negative: a positive sign, or a zero. -/
theorem orderKey_nonneg_iff {x : Word} : 0 ≤ orderKey x ↔ (signOf x = false ∨ magOf x = 0) := by
  unfold orderKey; cases signOf x <;> simp

/-- A key that is not negative is the magnitude. -/
theorem orderKey_of_nonneg {x : Word} (h : 0 ≤ orderKey x) : orderKey x = magOf x := by
  have := orderKey_natAbs x; omega

/-- A bound of a key that is not negative bounds the magnitude. -/
theorem magOf_le_of_orderKey {x : Word} {m : Nat} (h0 : 0 ≤ orderKey x) (h : orderKey x ≤ m) : magOf x ≤ m := by
  rw [orderKey_of_nonneg h0] at h; omega

/-- A magnitude bounds the key on both sides. -/
theorem orderKey_bounds_of_magOf {x : Word} {m : Nat} (h : magOf x ≤ m) : -(m:Int) ≤ orderKey x ∧ orderKey x ≤ m := by
  have := orderKey_natAbs x; omega

/-- A word whose key is not negative is not below 0. -/
theorem not_flt_zero_of_nonneg {r : Word} (h : 0 ≤ orderKey r) : flt r 0 = false := by
  rw [Bool.eq_false_iff]; intro hc; rw [flt_iff, orderKey_zero] at hc; omega

/-- Addition of finite words is monotone in both operands. -/
theorem orderKey_fadd_mono {k k' : Nat} {a b c d : Word} (ha : isFinite a = true) (hb : isFinite b = true)
    (hc : isFinite c = true) (hd : isFinite d = true) (h1 : orderKey a ≤ orderKey c) (h2 : orderKey b ≤ orderKey d) :
    orderKey (fadd k a b) ≤ orderKey (fadd k' c d) := by
  rw [orderKey_fadd ha hb, orderKey_fadd hc hd]
  have := (valueOf_le_iff a c).mpr h1
  have := (valueOf_le_iff b d).mpr h2
  exact orderKey_roundValue_mono (by omega)

/-- The magnitude of a product grows with the magnitudes of its operands. -/
theorem magOf_fmul_mono {k k' : Nat} {a b c d : Word} (hc : isFinite c = true)
    (hd : isFinite d = true) (h1 : magOf a ≤ magOf c) (h2 : magOf b ≤ magOf d) :
    magOf (fmul k a b) ≤ magOf (fmul k' c d) := by
  have ha : isFinite a = true := by rw [isFinite_iff] at *; omega
  have hb : isFinite b = true := by rw [isFinite_iff] at *; omega
  rw [fmul_eq ha hb, fmul_eq hc hd, magOf_packFloat (roundMag_lt _ _), magOf_packFloat (roundMag_lt _ _)]
  apply roundMag_mono (by decide) (by decide)
  exact Nat.mul_le_mul_right _ (Nat.mul_le_mul (unitsOf_mono h1) (unitsOf_mono h2))

/-- The product of words that are not negative is not negative. -/
theorem orderKey_fmul_nonneg {k : Nat} {a b : Word} (ha : isFinite a = true) (hb : isFinite b = true) (h1 : 0 ≤ orderKey a)
    (h2 : 0 ≤ orderKey b) :
    0 ≤ orderKey (fmul k a b) := by
  rw [orderKey_nonneg_iff] at *
  rw [fmul_eq ha hb, signOf_packFloat (roundMag_lt _ _), magOf_packFloat (roundMag_lt _ _)]
  by_cases hz : unitsOf a * unitsOf b = 0
  · right; rw [hz]; exact roundMag_zero _
  · left
    have h3 : magOf a ≠ 0 := fun h => hz (by unfold unitsOf; rw [h]; simp)
    have h4 : magOf b ≠ 0 := fun h => hz (by unfold unitsOf; rw [h]; simp)
    simp [h3] at h1; simp [h4] at h2; rw [h1, h2]; rfl

/-- Multiplication by a positive constant is monotone. -/
theorem orderKey_fmul_const_mono {k k' : Nat} {x y c : Word} (hx : isFinite x = true) (hy : isFinite y = true) (hc : isFinite c = true)
    (hs : signOf c = false) (h : orderKey x ≤ orderKey y) : orderKey (fmul k x c) ≤ orderKey (fmul k' y c) := by
  rw [fmul_eq hx hc, fmul_eq hy hc, orderKey_packFloat (roundMag_lt _ _), orderKey_packFloat (roundMag_lt _ _), hs]
  have mono : ∀ u v : Word,
      magOf u ≤ magOf v → roundMag (unitsOf u * unitsOf c) (2^149) ≤ roundMag (unitsOf v * unitsOf c) (2^149) :=
    fun u v huv =>
    roundMag_mono (by decide) (by decide) (Nat.mul_le_mul_right _ (Nat.mul_le_mul_right _ (unitsOf_mono huv)))
  unfold orderKey at h
  cases hx' : signOf x <;> cases hy' : signOf y <;> simp [hx', hy'] at h ⊢
  · exact mono _ _ h
  · have h1 : magOf x = 0 := by omega
    have h2 : magOf y = 0 := by omega
    rw [show unitsOf x = 0 by unfold unitsOf; rw [h1]; decide, show unitsOf y = 0 by unfold unitsOf; rw [h2]; decide]
    simp [roundMag_zero]
  · exact mono _ _ h

/-- `inRange` in terms of keys. -/
theorem inRange_iff {lo hi x : Word} (hl : isNaN lo = false) (hh : isNaN hi = false) :
    inRange lo hi x = true ↔ isNaN x = false ∧ orderKey lo ≤ orderKey x ∧ orderKey x ≤ orderKey hi := by
  unfold inRange; rw [Bool.and_eq_true, fle_iff, fle_iff]
  constructor
  · rintro ⟨⟨_, h1, h2⟩, _, _, h3⟩; exact ⟨h1, h2, h3⟩
  · rintro ⟨h1, h2, h3⟩; exact ⟨⟨hl, h1, h2⟩, h1, hh, h3⟩

/-- A word between finite bounds is finite. -/
theorem isFinite_of_inRange {lo hi x : Word} (hl : isFinite lo = true) (hh : isFinite hi = true) (h : inRange lo hi x = true) :
    isFinite x = true := by
  have h' := (inRange_iff (not_isNaN_of_isFinite hl) (not_isNaN_of_isFinite hh)).mp h
  have := orderKey_natAbs x; have := orderKey_natAbs lo; have := orderKey_natAbs hi
  rw [isFinite_iff] at *; omega

/-- The sine of a finite word has magnitude at most that of 1.0 (00_scope.md R22 (b)). -/
theorem magOf_sine_le (b : Build) (k : Nat) {x : Word} (h : isFinite x = true) : magOf (sine b k x) ≤ 0x3F800000 := by
  have hcl : ∀ y, magOf (clampUnit y) ≤ 0x3F800000 := by
    intro y; unfold clampUnit; split
    · assumption
    · rw [magOf_packFloat (by decide)]
  unfold sine
  simp only [not_isNaN_of_isFinite h, not_isInf_of_isFinite h, Bool.or_self, Bool.false_eq_true, if_false]
  split
  · rename_i hz; rw [isZero_iff] at hz; omega
  · split <;> exact hcl _

end Sys2Proof.Machine
end

