-- ==== Sys2Proof/Laws/Memory.lean ====
section
/-! SUPPORT. Laws of the delay buffer: the canonical form is kept, a read after a write, and what a write leaves alone. -/

namespace Sys2Proof.Machine

/-! ## The canonical form -/

/-- A list is canonical when its head is listed rightly, lies below the rest, and the rest is canonical. -/
theorem Memory.wf_cons (c : Host.Cell) (m : Memory) :
    Memory.wf (c :: m) = true ↔ c.2 ≠ 0 ∧ (∀ d ∈ m, c.1 < d.1) ∧ Memory.wf m = true := by
  induction m generalizing c with
  | nil => simp [Memory.wf]
  | cons d m ih =>
    have hd := ih d
    simp only [Memory.wf, Bool.and_eq_true, decide_eq_true_eq, List.mem_cons, forall_eq_or_imp]
    constructor
    · rintro ⟨⟨h1, h2⟩, h3⟩
      exact ⟨h1, ⟨h2, fun e he => Nat.lt_trans h2 ((hd.mp h3).2.1 e he)⟩, h3⟩
    · rintro ⟨h1, ⟨h2, _⟩, h3⟩
      exact ⟨⟨h1, h2⟩, h3⟩

/-- Every address a write lists was listed or is the written one. -/
theorem mem_writeByte {m : Memory} {x : Nat} {v : Byte} {c : Host.Cell} (h : c ∈ writeByte m x v) :
    c.1 = x ∨ c ∈ m := by
  induction m with
  | nil => simp only [writeByte] at h; split at h <;> simp_all
  | cons d m ih =>
    obtain ⟨a, u⟩ := d
    simp only [writeByte] at h
    split at h
    · split at h <;> simp_all
      rcases h with rfl | h <;> simp_all
    · split at h
      · split at h <;> simp_all
        rcases h with rfl | h <;> simp_all
      · rcases List.mem_cons.mp h with h | h
        · simp [h]
        · rcases ih h with h | h <;> simp [h]

/-- A byte write keeps the canonical form. -/
theorem writeByte_wf {m : Memory} (x : Nat) (v : Byte) (h : Memory.wf m = true) : Memory.wf (writeByte m x v) = true := by
  induction m with
  | nil => simp only [writeByte]; split <;> simp_all [Memory.wf]
  | cons d m ih =>
    obtain ⟨a, u⟩ := d
    obtain ⟨h1, h2, h3⟩ := (Memory.wf_cons _ _).mp h
    simp only [writeByte]
    split
    · rename_i hlt
      split
      · exact h
      · refine (Memory.wf_cons _ _).mpr ⟨by assumption, ?_, h⟩
        intro e he
        rcases List.mem_cons.mp he with rfl | he
        · exact hlt
        · exact Nat.lt_trans hlt (h2 e he)
    · split
      · rename_i heq
        subst heq
        split
        · exact h3
        · exact (Memory.wf_cons _ _).mpr ⟨by assumption, h2, h3⟩
      · refine (Memory.wf_cons _ _).mpr ⟨h1, ?_, ih h3⟩
        intro e he
        rcases mem_writeByte he with he | he
        · simp only [he]; omega
        · exact h2 e he

/-- A slot write keeps the canonical form. -/
theorem memWrite_wf {m : Memory} (i : Nat) (v : Word) (h : Memory.wf m = true) : Memory.wf (memWrite m i v) = true :=
  writeByte_wf _ _ (writeByte_wf _ _ (writeByte_wf _ _ (writeByte_wf _ _ h)))

/-! ## Reads after writes -/

/-- A byte below every listed address reads 0. -/
theorem readByte_eq_zero {m : Memory} {x : Nat} (h : ∀ c ∈ m, c.1 ≠ x) : readByte m x = 0 := by
  induction m with
  | nil => rfl
  | cons d m ih =>
    obtain ⟨a, u⟩ := d
    simp only [readByte]
    rw [if_neg (h (a, u) (by simp)), ih fun c hc => h c (by simp [hc])]

/-- A byte write leaves every other byte alone, in every list. -/
theorem readByte_writeByte_of_ne {m : Memory} {x y : Nat} (v : Byte) (hne : y ≠ x) :
    readByte (writeByte m x v) y = readByte m y := by
  induction m with
  | nil => simp only [writeByte]; split <;> simp [readByte, hne.symm]
  | cons d m ih =>
    obtain ⟨a, u⟩ := d
    simp only [writeByte]
    split
    · split <;> simp [readByte, hne.symm]
    · split
      · rename_i heq; subst heq
        split <;> simp [readByte, hne.symm]
      · simp only [readByte, ih]

/-- In the canonical form, the written byte reads back. -/
theorem readByte_writeByte_self {m : Memory} (x : Nat) (v : Byte) (h : Memory.wf m = true) :
    readByte (writeByte m x v) x = v := by
  induction m with
  | nil => simp only [writeByte]; split <;> simp_all [readByte]
  | cons d m ih =>
    obtain ⟨a, u⟩ := d
    obtain ⟨_, h2, h3⟩ := (Memory.wf_cons _ _).mp h
    simp only [writeByte]
    split
    · rename_i hlt
      split
      · rename_i hv; subst hv
        apply readByte_eq_zero
        intro c hc
        rcases List.mem_cons.mp hc with rfl | hc
        · simp only; omega
        · have := h2 c hc; simp only at this; omega
      · simp [readByte]
    · split
      · rename_i heq; subst heq
        split
        · rename_i hv; subst hv
          apply readByte_eq_zero
          intro c hc
          have := h2 c hc; simp only at this; omega
        · simp [readByte]
      · rename_i hne
        simp only [readByte]
        rw [if_neg (by omega), ih h3]

/-- A slot write leaves every byte outside the slot alone. -/
theorem readByte_memWrite_of_outside {m : Memory} {i a : Nat} (v : Word) (h : a < 4 * i ∨ 4 * i + 4 ≤ a) :
    readByte (memWrite m i v) a = readByte m a := by
  unfold memWrite
  rw [readByte_writeByte_of_ne _ (by omega), readByte_writeByte_of_ne _ (by omega),
    readByte_writeByte_of_ne _ (by omega), readByte_writeByte_of_ne _ (by omega)]

/-- A slot write leaves every other slot alone. -/
theorem memRead_memWrite_of_ne {m : Memory} {i j : Nat} (v : Word) (h : j ≠ i) :
    memRead (memWrite m i v) j = memRead m j := by
  unfold memRead
  rw [readByte_memWrite_of_outside _ (by omega), readByte_memWrite_of_outside _ (by omega),
    readByte_memWrite_of_outside _ (by omega), readByte_memWrite_of_outside _ (by omega)]

/-- A word is the join of its bytes (20_memory.md R64). -/
theorem joinBytes_wordByte (w : Word) : joinBytes (wordByte w 0) (wordByte w 1) (wordByte w 2) (wordByte w 3) = w := by
  unfold joinBytes wordByte
  ext i hi
  simp only [BitVec.getElem_append, BitVec.getElem_extractLsb']
  rw [← BitVec.getLsbD_eq_getElem]
  by_cases h1 : i < 8
  · simp [h1]
  · by_cases h2 : i < 16
    · simp [h1, show i - 8 < 8 by omega, show 8 + (i - 8) = i by omega]
    · by_cases h3 : i < 24
      · simp [h1, show ¬i - 8 < 8 by omega, show i - 8 - 8 < 8 by omega, show 16 + (i - 8 - 8) = i by omega]
      · simp [h1, show ¬i - 8 < 8 by omega, show ¬i - 8 - 8 < 8 by omega, show 24 + (i - 8 - 8 - 8) = i by omega]

/-- In the canonical form, the written slot reads back bit for bit (00_scope.md R13). -/
theorem memRead_memWrite_self {m : Memory} (i : Nat) (v : Word) (h : Memory.wf m = true) :
    memRead (memWrite m i v) i = v := by
  have w1 := writeByte_wf (4 * i) (wordByte v 0) h
  have w2 := writeByte_wf (4 * i + 1) (wordByte v 1) w1
  have w3 := writeByte_wf (4 * i + 2) (wordByte v 2) w2
  have b3 := readByte_writeByte_self (4 * i + 3) (wordByte v 3) w3
  have b2 := readByte_writeByte_self (4 * i + 2) (wordByte v 2) w2
  have b1 := readByte_writeByte_self (4 * i + 1) (wordByte v 1) w1
  have b0 := readByte_writeByte_self (4 * i) (wordByte v 0) h
  unfold memRead memWrite
  rw [b3, readByte_writeByte_of_ne _ (show 4 * i + 2 ≠ 4 * i + 3 by omega), b2,
    readByte_writeByte_of_ne _ (show 4 * i + 1 ≠ 4 * i + 3 by omega),
    readByte_writeByte_of_ne _ (show 4 * i + 1 ≠ 4 * i + 2 by omega), b1,
    readByte_writeByte_of_ne _ (show 4 * i ≠ 4 * i + 3 by omega),
    readByte_writeByte_of_ne _ (show 4 * i ≠ 4 * i + 2 by omega),
    readByte_writeByte_of_ne _ (show 4 * i ≠ 4 * i + 1 by omega), b0]
  exact joinBytes_wordByte v

/-- A slot write inside the buffer lists nothing outside it. -/
theorem memWrite_inside {b : Build} {m : Memory} {i : Nat} (v : Word) (hi : i < bufferLen b)
    (h : bufferInside b m = true) : bufferInside b (memWrite m i v) = true := by
  unfold bufferInside at *
  rw [List.all_eq_true] at *
  intro c hc
  unfold memWrite at hc
  rcases mem_writeByte hc with hc | hc
  · simp only [hc, decide_eq_true_eq]; omega
  rcases mem_writeByte hc with hc | hc
  · simp only [hc, decide_eq_true_eq]; omega
  rcases mem_writeByte hc with hc | hc
  · simp only [hc, decide_eq_true_eq]; omega
  rcases mem_writeByte hc with hc | hc
  · simp only [hc, decide_eq_true_eq]; omega
  exact h c hc

@[simp] theorem readByte_nil (a : Nat) : readByte [] a = 0 := rfl

@[simp] theorem memRead_nil (i : Nat) : memRead [] i = 0 :=
  show joinBytes 0 0 0 0 = 0 by decide

/-- Reset's memory has the canonical form. -/
theorem reset_buf_wf : Memory.wf State.reset.buf = true := rfl

end Sys2Proof.Machine
end

