-- ==== Sys2Proof/Laws/State.lean ====
section
/-! SUPPORT. What each named update of the state leaves in each field: one lemma per field per update. -/

namespace Sys2Proof.Machine

/-! ## withReply -/

@[simp] theorem withReply_build (s : State) (r : BusReply) : (s.withReply r).build = s.build := rfl
@[simp] theorem withReply_status (s : State) (r : BusReply) : (s.withReply r).status = s.status := rfl
@[simp] theorem withReply_arg0 (s : State) (r : BusReply) : (s.withReply r).arg0 = s.arg0 := rfl
@[simp] theorem withReply_arg1 (s : State) (r : BusReply) : (s.withReply r).arg1 = s.arg1 := rfl
@[simp] theorem withReply_inL (s : State) (r : BusReply) : (s.withReply r).inL = s.inL := rfl
@[simp] theorem withReply_inR (s : State) (r : BusReply) : (s.withReply r).inR = s.inR := rfl
@[simp] theorem withReply_outL (s : State) (r : BusReply) : (s.withReply r).outL = s.outL := rfl
@[simp] theorem withReply_outR (s : State) (r : BusReply) : (s.withReply r).outR = s.outR := rfl
@[simp] theorem withReply_rate (s : State) (r : BusReply) : (s.withReply r).rate = s.rate := rfl
@[simp] theorem withReply_wowInc (s : State) (r : BusReply) : (s.withReply r).wowInc = s.wowInc := rfl
@[simp] theorem withReply_fltInc (s : State) (r : BusReply) : (s.withReply r).fltInc = s.fltInc := rfl
@[simp] theorem withReply_depth (s : State) (r : BusReply) : (s.withReply r).depth = s.depth := rfl
@[simp] theorem withReply_mix (s : State) (r : BusReply) : (s.withReply r).mix = s.mix := rfl
@[simp] theorem withReply_wowPhase (s : State) (r : BusReply) : (s.withReply r).wowPhase = s.wowPhase := rfl
@[simp] theorem withReply_fltPhase (s : State) (r : BusReply) : (s.withReply r).fltPhase = s.fltPhase := rfl
@[simp] theorem withReply_lpL (s : State) (r : BusReply) : (s.withReply r).lpL = s.lpL := rfl
@[simp] theorem withReply_lpR (s : State) (r : BusReply) : (s.withReply r).lpR = s.lpR := rfl
@[simp] theorem withReply_seed (s : State) (r : BusReply) : (s.withReply r).seed = s.seed := rfl
@[simp] theorem withReply_widx (s : State) (r : BusReply) : (s.withReply r).widx = s.widx := rfl
@[simp] theorem withReply_buf (s : State) (r : BusReply) : (s.withReply r).buf = s.buf := rfl
@[simp] theorem withReply_bus (s : State) (r : BusReply) : (s.withReply r).bus = s.bus := rfl
@[simp] theorem withReply_reply (s : State) (r : BusReply) : (s.withReply r).reply = r := rfl
@[simp] theorem withReply_draws (s : State) (r : BusReply) : (s.withReply r).draws = s.draws := rfl

/-! ## withBus -/

@[simp] theorem withBus_build (s : State) (es : List HostEvent) : (s.withBus es).build = s.build := rfl
@[simp] theorem withBus_status (s : State) (es : List HostEvent) : (s.withBus es).status = s.status := rfl
@[simp] theorem withBus_arg0 (s : State) (es : List HostEvent) : (s.withBus es).arg0 = s.arg0 := rfl
@[simp] theorem withBus_arg1 (s : State) (es : List HostEvent) : (s.withBus es).arg1 = s.arg1 := rfl
@[simp] theorem withBus_inL (s : State) (es : List HostEvent) : (s.withBus es).inL = s.inL := rfl
@[simp] theorem withBus_inR (s : State) (es : List HostEvent) : (s.withBus es).inR = s.inR := rfl
@[simp] theorem withBus_outL (s : State) (es : List HostEvent) : (s.withBus es).outL = s.outL := rfl
@[simp] theorem withBus_outR (s : State) (es : List HostEvent) : (s.withBus es).outR = s.outR := rfl
@[simp] theorem withBus_rate (s : State) (es : List HostEvent) : (s.withBus es).rate = s.rate := rfl
@[simp] theorem withBus_wowInc (s : State) (es : List HostEvent) : (s.withBus es).wowInc = s.wowInc := rfl
@[simp] theorem withBus_fltInc (s : State) (es : List HostEvent) : (s.withBus es).fltInc = s.fltInc := rfl
@[simp] theorem withBus_depth (s : State) (es : List HostEvent) : (s.withBus es).depth = s.depth := rfl
@[simp] theorem withBus_mix (s : State) (es : List HostEvent) : (s.withBus es).mix = s.mix := rfl
@[simp] theorem withBus_wowPhase (s : State) (es : List HostEvent) : (s.withBus es).wowPhase = s.wowPhase := rfl
@[simp] theorem withBus_fltPhase (s : State) (es : List HostEvent) : (s.withBus es).fltPhase = s.fltPhase := rfl
@[simp] theorem withBus_lpL (s : State) (es : List HostEvent) : (s.withBus es).lpL = s.lpL := rfl
@[simp] theorem withBus_lpR (s : State) (es : List HostEvent) : (s.withBus es).lpR = s.lpR := rfl
@[simp] theorem withBus_seed (s : State) (es : List HostEvent) : (s.withBus es).seed = s.seed := rfl
@[simp] theorem withBus_widx (s : State) (es : List HostEvent) : (s.withBus es).widx = s.widx := rfl
@[simp] theorem withBus_buf (s : State) (es : List HostEvent) : (s.withBus es).buf = s.buf := rfl
@[simp] theorem withBus_bus (s : State) (es : List HostEvent) : (s.withBus es).bus = es := rfl
@[simp] theorem withBus_reply (s : State) (es : List HostEvent) : (s.withBus es).reply = s.reply := rfl
@[simp] theorem withBus_draws (s : State) (es : List HostEvent) : (s.withBus es).draws = s.draws := rfl

/-! ## useDraws -/

@[simp] theorem useDraws_build (s : State) (n : Nat) : (s.useDraws n).build = s.build := rfl
@[simp] theorem useDraws_status (s : State) (n : Nat) : (s.useDraws n).status = s.status := rfl
@[simp] theorem useDraws_arg0 (s : State) (n : Nat) : (s.useDraws n).arg0 = s.arg0 := rfl
@[simp] theorem useDraws_arg1 (s : State) (n : Nat) : (s.useDraws n).arg1 = s.arg1 := rfl
@[simp] theorem useDraws_inL (s : State) (n : Nat) : (s.useDraws n).inL = s.inL := rfl
@[simp] theorem useDraws_inR (s : State) (n : Nat) : (s.useDraws n).inR = s.inR := rfl
@[simp] theorem useDraws_outL (s : State) (n : Nat) : (s.useDraws n).outL = s.outL := rfl
@[simp] theorem useDraws_outR (s : State) (n : Nat) : (s.useDraws n).outR = s.outR := rfl
@[simp] theorem useDraws_rate (s : State) (n : Nat) : (s.useDraws n).rate = s.rate := rfl
@[simp] theorem useDraws_wowInc (s : State) (n : Nat) : (s.useDraws n).wowInc = s.wowInc := rfl
@[simp] theorem useDraws_fltInc (s : State) (n : Nat) : (s.useDraws n).fltInc = s.fltInc := rfl
@[simp] theorem useDraws_depth (s : State) (n : Nat) : (s.useDraws n).depth = s.depth := rfl
@[simp] theorem useDraws_mix (s : State) (n : Nat) : (s.useDraws n).mix = s.mix := rfl
@[simp] theorem useDraws_wowPhase (s : State) (n : Nat) : (s.useDraws n).wowPhase = s.wowPhase := rfl
@[simp] theorem useDraws_fltPhase (s : State) (n : Nat) : (s.useDraws n).fltPhase = s.fltPhase := rfl
@[simp] theorem useDraws_lpL (s : State) (n : Nat) : (s.useDraws n).lpL = s.lpL := rfl
@[simp] theorem useDraws_lpR (s : State) (n : Nat) : (s.useDraws n).lpR = s.lpR := rfl
@[simp] theorem useDraws_seed (s : State) (n : Nat) : (s.useDraws n).seed = s.seed := rfl
@[simp] theorem useDraws_widx (s : State) (n : Nat) : (s.useDraws n).widx = s.widx := rfl
@[simp] theorem useDraws_buf (s : State) (n : Nat) : (s.useDraws n).buf = s.buf := rfl
@[simp] theorem useDraws_bus (s : State) (n : Nat) : (s.useDraws n).bus = s.bus := rfl
@[simp] theorem useDraws_reply (s : State) (n : Nat) : (s.useDraws n).reply = s.reply := rfl
@[simp] theorem useDraws_draws (s : State) (n : Nat) : (s.useDraws n).draws = s.draws + n := rfl

/-! ## recordRangeFault -/

@[simp] theorem recordRangeFault_build (c : RangeCause) (s : State) : (recordRangeFault c s).build = s.build := rfl
@[simp] theorem recordRangeFault_status (c : RangeCause) (s : State) : (recordRangeFault c s).status = statusOfFault c := rfl
@[simp] theorem recordRangeFault_arg0 (c : RangeCause) (s : State) : (recordRangeFault c s).arg0 = s.arg0 := rfl
@[simp] theorem recordRangeFault_arg1 (c : RangeCause) (s : State) : (recordRangeFault c s).arg1 = s.arg1 := rfl
@[simp] theorem recordRangeFault_inL (c : RangeCause) (s : State) : (recordRangeFault c s).inL = s.inL := rfl
@[simp] theorem recordRangeFault_inR (c : RangeCause) (s : State) : (recordRangeFault c s).inR = s.inR := rfl
@[simp] theorem recordRangeFault_outL (c : RangeCause) (s : State) : (recordRangeFault c s).outL = s.outL := rfl
@[simp] theorem recordRangeFault_outR (c : RangeCause) (s : State) : (recordRangeFault c s).outR = s.outR := rfl
@[simp] theorem recordRangeFault_rate (c : RangeCause) (s : State) : (recordRangeFault c s).rate = s.rate := rfl
@[simp] theorem recordRangeFault_wowInc (c : RangeCause) (s : State) : (recordRangeFault c s).wowInc = s.wowInc := rfl
@[simp] theorem recordRangeFault_fltInc (c : RangeCause) (s : State) : (recordRangeFault c s).fltInc = s.fltInc := rfl
@[simp] theorem recordRangeFault_depth (c : RangeCause) (s : State) : (recordRangeFault c s).depth = s.depth := rfl
@[simp] theorem recordRangeFault_mix (c : RangeCause) (s : State) : (recordRangeFault c s).mix = s.mix := rfl
@[simp] theorem recordRangeFault_wowPhase (c : RangeCause) (s : State) : (recordRangeFault c s).wowPhase = s.wowPhase := rfl
@[simp] theorem recordRangeFault_fltPhase (c : RangeCause) (s : State) : (recordRangeFault c s).fltPhase = s.fltPhase := rfl
@[simp] theorem recordRangeFault_lpL (c : RangeCause) (s : State) : (recordRangeFault c s).lpL = s.lpL := rfl
@[simp] theorem recordRangeFault_lpR (c : RangeCause) (s : State) : (recordRangeFault c s).lpR = s.lpR := rfl
@[simp] theorem recordRangeFault_seed (c : RangeCause) (s : State) : (recordRangeFault c s).seed = s.seed := rfl
@[simp] theorem recordRangeFault_widx (c : RangeCause) (s : State) : (recordRangeFault c s).widx = s.widx := rfl
@[simp] theorem recordRangeFault_buf (c : RangeCause) (s : State) : (recordRangeFault c s).buf = s.buf := rfl
@[simp] theorem recordRangeFault_bus (c : RangeCause) (s : State) : (recordRangeFault c s).bus = s.bus := rfl
@[simp] theorem recordRangeFault_reply (c : RangeCause) (s : State) : (recordRangeFault c s).reply = s.reply := rfl
@[simp] theorem recordRangeFault_draws (c : RangeCause) (s : State) : (recordRangeFault c s).draws = s.draws := rfl

/-! ## clearRangeFault -/

@[simp] theorem clearRangeFault_build (s : State) : (clearRangeFault s).build = s.build := rfl
@[simp] theorem clearRangeFault_status (s : State) : (clearRangeFault s).status = 0 := rfl
@[simp] theorem clearRangeFault_arg0 (s : State) : (clearRangeFault s).arg0 = s.arg0 := rfl
@[simp] theorem clearRangeFault_arg1 (s : State) : (clearRangeFault s).arg1 = s.arg1 := rfl
@[simp] theorem clearRangeFault_inL (s : State) : (clearRangeFault s).inL = s.inL := rfl
@[simp] theorem clearRangeFault_inR (s : State) : (clearRangeFault s).inR = s.inR := rfl
@[simp] theorem clearRangeFault_outL (s : State) : (clearRangeFault s).outL = s.outL := rfl
@[simp] theorem clearRangeFault_outR (s : State) : (clearRangeFault s).outR = s.outR := rfl
@[simp] theorem clearRangeFault_rate (s : State) : (clearRangeFault s).rate = s.rate := rfl
@[simp] theorem clearRangeFault_wowInc (s : State) : (clearRangeFault s).wowInc = s.wowInc := rfl
@[simp] theorem clearRangeFault_fltInc (s : State) : (clearRangeFault s).fltInc = s.fltInc := rfl
@[simp] theorem clearRangeFault_depth (s : State) : (clearRangeFault s).depth = s.depth := rfl
@[simp] theorem clearRangeFault_mix (s : State) : (clearRangeFault s).mix = s.mix := rfl
@[simp] theorem clearRangeFault_wowPhase (s : State) : (clearRangeFault s).wowPhase = s.wowPhase := rfl
@[simp] theorem clearRangeFault_fltPhase (s : State) : (clearRangeFault s).fltPhase = s.fltPhase := rfl
@[simp] theorem clearRangeFault_lpL (s : State) : (clearRangeFault s).lpL = s.lpL := rfl
@[simp] theorem clearRangeFault_lpR (s : State) : (clearRangeFault s).lpR = s.lpR := rfl
@[simp] theorem clearRangeFault_seed (s : State) : (clearRangeFault s).seed = s.seed := rfl
@[simp] theorem clearRangeFault_widx (s : State) : (clearRangeFault s).widx = s.widx := rfl
@[simp] theorem clearRangeFault_buf (s : State) : (clearRangeFault s).buf = s.buf := rfl
@[simp] theorem clearRangeFault_bus (s : State) : (clearRangeFault s).bus = s.bus := rfl
@[simp] theorem clearRangeFault_reply (s : State) : (clearRangeFault s).reply = s.reply := rfl
@[simp] theorem clearRangeFault_draws (s : State) : (clearRangeFault s).draws = s.draws := rfl

/-! ## storeRate -/

@[simp] theorem storeRate_build (k : Nat) (r : Word) (s : State) : (storeRate k r s).build = s.build := rfl
@[simp] theorem storeRate_status (k : Nat) (r : Word) (s : State) : (storeRate k r s).status = s.status := rfl
@[simp] theorem storeRate_arg0 (k : Nat) (r : Word) (s : State) : (storeRate k r s).arg0 = s.arg0 := rfl
@[simp] theorem storeRate_arg1 (k : Nat) (r : Word) (s : State) : (storeRate k r s).arg1 = s.arg1 := rfl
@[simp] theorem storeRate_inL (k : Nat) (r : Word) (s : State) : (storeRate k r s).inL = s.inL := rfl
@[simp] theorem storeRate_inR (k : Nat) (r : Word) (s : State) : (storeRate k r s).inR = s.inR := rfl
@[simp] theorem storeRate_outL (k : Nat) (r : Word) (s : State) : (storeRate k r s).outL = s.outL := rfl
@[simp] theorem storeRate_outR (k : Nat) (r : Word) (s : State) : (storeRate k r s).outR = s.outR := rfl
@[simp] theorem storeRate_rate (k : Nat) (r : Word) (s : State) : (storeRate k r s).rate = r := rfl
@[simp] theorem storeRate_wowInc (k : Nat) (r : Word) (s : State) : (storeRate k r s).wowInc = wowIncOf s.build k r := rfl
@[simp] theorem storeRate_fltInc (k : Nat) (r : Word) (s : State) : (storeRate k r s).fltInc = fltIncOf s.build (k + 2) r := rfl
@[simp] theorem storeRate_depth (k : Nat) (r : Word) (s : State) : (storeRate k r s).depth = s.depth := rfl
@[simp] theorem storeRate_mix (k : Nat) (r : Word) (s : State) : (storeRate k r s).mix = s.mix := rfl
@[simp] theorem storeRate_wowPhase (k : Nat) (r : Word) (s : State) : (storeRate k r s).wowPhase = s.wowPhase := rfl
@[simp] theorem storeRate_fltPhase (k : Nat) (r : Word) (s : State) : (storeRate k r s).fltPhase = s.fltPhase := rfl
@[simp] theorem storeRate_lpL (k : Nat) (r : Word) (s : State) : (storeRate k r s).lpL = s.lpL := rfl
@[simp] theorem storeRate_lpR (k : Nat) (r : Word) (s : State) : (storeRate k r s).lpR = s.lpR := rfl
@[simp] theorem storeRate_seed (k : Nat) (r : Word) (s : State) : (storeRate k r s).seed = s.seed := rfl
@[simp] theorem storeRate_widx (k : Nat) (r : Word) (s : State) : (storeRate k r s).widx = s.widx := rfl
@[simp] theorem storeRate_buf (k : Nat) (r : Word) (s : State) : (storeRate k r s).buf = s.buf := rfl
@[simp] theorem storeRate_bus (k : Nat) (r : Word) (s : State) : (storeRate k r s).bus = s.bus := rfl
@[simp] theorem storeRate_reply (k : Nat) (r : Word) (s : State) : (storeRate k r s).reply = s.reply := rfl
@[simp] theorem storeRate_draws (k : Nat) (r : Word) (s : State) : (storeRate k r s).draws = s.draws := rfl

/-! ## storeDepth -/

@[simp] theorem storeDepth_build (d : Word) (s : State) : (storeDepth d s).build = s.build := rfl
@[simp] theorem storeDepth_status (d : Word) (s : State) : (storeDepth d s).status = s.status := rfl
@[simp] theorem storeDepth_arg0 (d : Word) (s : State) : (storeDepth d s).arg0 = s.arg0 := rfl
@[simp] theorem storeDepth_arg1 (d : Word) (s : State) : (storeDepth d s).arg1 = s.arg1 := rfl
@[simp] theorem storeDepth_inL (d : Word) (s : State) : (storeDepth d s).inL = s.inL := rfl
@[simp] theorem storeDepth_inR (d : Word) (s : State) : (storeDepth d s).inR = s.inR := rfl
@[simp] theorem storeDepth_outL (d : Word) (s : State) : (storeDepth d s).outL = s.outL := rfl
@[simp] theorem storeDepth_outR (d : Word) (s : State) : (storeDepth d s).outR = s.outR := rfl
@[simp] theorem storeDepth_rate (d : Word) (s : State) : (storeDepth d s).rate = s.rate := rfl
@[simp] theorem storeDepth_wowInc (d : Word) (s : State) : (storeDepth d s).wowInc = s.wowInc := rfl
@[simp] theorem storeDepth_fltInc (d : Word) (s : State) : (storeDepth d s).fltInc = s.fltInc := rfl
@[simp] theorem storeDepth_depth (d : Word) (s : State) : (storeDepth d s).depth = d := rfl
@[simp] theorem storeDepth_mix (d : Word) (s : State) : (storeDepth d s).mix = s.mix := rfl
@[simp] theorem storeDepth_wowPhase (d : Word) (s : State) : (storeDepth d s).wowPhase = s.wowPhase := rfl
@[simp] theorem storeDepth_fltPhase (d : Word) (s : State) : (storeDepth d s).fltPhase = s.fltPhase := rfl
@[simp] theorem storeDepth_lpL (d : Word) (s : State) : (storeDepth d s).lpL = s.lpL := rfl
@[simp] theorem storeDepth_lpR (d : Word) (s : State) : (storeDepth d s).lpR = s.lpR := rfl
@[simp] theorem storeDepth_seed (d : Word) (s : State) : (storeDepth d s).seed = s.seed := rfl
@[simp] theorem storeDepth_widx (d : Word) (s : State) : (storeDepth d s).widx = s.widx := rfl
@[simp] theorem storeDepth_buf (d : Word) (s : State) : (storeDepth d s).buf = s.buf := rfl
@[simp] theorem storeDepth_bus (d : Word) (s : State) : (storeDepth d s).bus = s.bus := rfl
@[simp] theorem storeDepth_reply (d : Word) (s : State) : (storeDepth d s).reply = s.reply := rfl
@[simp] theorem storeDepth_draws (d : Word) (s : State) : (storeDepth d s).draws = s.draws := rfl

/-! ## storeMix -/

@[simp] theorem storeMix_build (m : Word) (s : State) : (storeMix m s).build = s.build := rfl
@[simp] theorem storeMix_status (m : Word) (s : State) : (storeMix m s).status = s.status := rfl
@[simp] theorem storeMix_arg0 (m : Word) (s : State) : (storeMix m s).arg0 = s.arg0 := rfl
@[simp] theorem storeMix_arg1 (m : Word) (s : State) : (storeMix m s).arg1 = s.arg1 := rfl
@[simp] theorem storeMix_inL (m : Word) (s : State) : (storeMix m s).inL = s.inL := rfl
@[simp] theorem storeMix_inR (m : Word) (s : State) : (storeMix m s).inR = s.inR := rfl
@[simp] theorem storeMix_outL (m : Word) (s : State) : (storeMix m s).outL = s.outL := rfl
@[simp] theorem storeMix_outR (m : Word) (s : State) : (storeMix m s).outR = s.outR := rfl
@[simp] theorem storeMix_rate (m : Word) (s : State) : (storeMix m s).rate = s.rate := rfl
@[simp] theorem storeMix_wowInc (m : Word) (s : State) : (storeMix m s).wowInc = s.wowInc := rfl
@[simp] theorem storeMix_fltInc (m : Word) (s : State) : (storeMix m s).fltInc = s.fltInc := rfl
@[simp] theorem storeMix_depth (m : Word) (s : State) : (storeMix m s).depth = s.depth := rfl
@[simp] theorem storeMix_mix (m : Word) (s : State) : (storeMix m s).mix = m := rfl
@[simp] theorem storeMix_wowPhase (m : Word) (s : State) : (storeMix m s).wowPhase = s.wowPhase := rfl
@[simp] theorem storeMix_fltPhase (m : Word) (s : State) : (storeMix m s).fltPhase = s.fltPhase := rfl
@[simp] theorem storeMix_lpL (m : Word) (s : State) : (storeMix m s).lpL = s.lpL := rfl
@[simp] theorem storeMix_lpR (m : Word) (s : State) : (storeMix m s).lpR = s.lpR := rfl
@[simp] theorem storeMix_seed (m : Word) (s : State) : (storeMix m s).seed = s.seed := rfl
@[simp] theorem storeMix_widx (m : Word) (s : State) : (storeMix m s).widx = s.widx := rfl
@[simp] theorem storeMix_buf (m : Word) (s : State) : (storeMix m s).buf = s.buf := rfl
@[simp] theorem storeMix_bus (m : Word) (s : State) : (storeMix m s).bus = s.bus := rfl
@[simp] theorem storeMix_reply (m : Word) (s : State) : (storeMix m s).reply = s.reply := rfl
@[simp] theorem storeMix_draws (m : Word) (s : State) : (storeMix m s).draws = s.draws := rfl

/-! ## initEngine -/

@[simp] theorem initEngine_build (s : State) : (initEngine s).build = s.build := rfl
@[simp] theorem initEngine_status (s : State) : (initEngine s).status = 0 := rfl
@[simp] theorem initEngine_arg0 (s : State) : (initEngine s).arg0 = s.arg0 := rfl
@[simp] theorem initEngine_arg1 (s : State) : (initEngine s).arg1 = s.arg1 := rfl
@[simp] theorem initEngine_inL (s : State) : (initEngine s).inL = s.inL := rfl
@[simp] theorem initEngine_inR (s : State) : (initEngine s).inR = s.inR := rfl
@[simp] theorem initEngine_outL (s : State) : (initEngine s).outL = 0 := rfl
@[simp] theorem initEngine_outR (s : State) : (initEngine s).outR = 0 := rfl
@[simp] theorem initEngine_rate (s : State) : (initEngine s).rate = s.build.k.rateDef := rfl
@[simp] theorem initEngine_wowInc (s : State) : (initEngine s).wowInc = wowIncOf s.build s.draws s.build.k.rateDef := rfl
@[simp] theorem initEngine_fltInc (s : State) : (initEngine s).fltInc = fltIncOf s.build (s.draws + 2) s.build.k.rateDef := rfl
@[simp] theorem initEngine_depth (s : State) : (initEngine s).depth = s.build.k.depthDef := rfl
@[simp] theorem initEngine_mix (s : State) : (initEngine s).mix = s.build.k.mixDef := rfl
@[simp] theorem initEngine_wowPhase (s : State) : (initEngine s).wowPhase = 0 := rfl
@[simp] theorem initEngine_fltPhase (s : State) : (initEngine s).fltPhase = 0 := rfl
@[simp] theorem initEngine_lpL (s : State) : (initEngine s).lpL = 0 := rfl
@[simp] theorem initEngine_lpR (s : State) : (initEngine s).lpR = 0 := rfl
@[simp] theorem initEngine_seed (s : State) : (initEngine s).seed = s.build.noiseSeed := rfl
@[simp] theorem initEngine_widx (s : State) : (initEngine s).widx = 0 := rfl
@[simp] theorem initEngine_buf (s : State) : (initEngine s).buf = [] := rfl
@[simp] theorem initEngine_bus (s : State) : (initEngine s).bus = s.bus := rfl
@[simp] theorem initEngine_reply (s : State) : (initEngine s).reply = s.reply := rfl
@[simp] theorem initEngine_draws (s : State) : (initEngine s).draws = s.draws + initDraws := rfl

/-! ## hardwareReset -/

@[simp] theorem hardwareReset_build (s : State) : (hardwareReset s).build = s.build := rfl
@[simp] theorem hardwareReset_status (s : State) : (hardwareReset s).status = (initEngine s).status := rfl
@[simp] theorem hardwareReset_arg0 (s : State) : (hardwareReset s).arg0 = 0 := rfl
@[simp] theorem hardwareReset_arg1 (s : State) : (hardwareReset s).arg1 = 0 := rfl
@[simp] theorem hardwareReset_inL (s : State) : (hardwareReset s).inL = 0 := rfl
@[simp] theorem hardwareReset_inR (s : State) : (hardwareReset s).inR = 0 := rfl
@[simp] theorem hardwareReset_outL (s : State) : (hardwareReset s).outL = (initEngine s).outL := rfl
@[simp] theorem hardwareReset_outR (s : State) : (hardwareReset s).outR = (initEngine s).outR := rfl
@[simp] theorem hardwareReset_rate (s : State) : (hardwareReset s).rate = (initEngine s).rate := rfl
@[simp] theorem hardwareReset_wowInc (s : State) : (hardwareReset s).wowInc = (initEngine s).wowInc := rfl
@[simp] theorem hardwareReset_fltInc (s : State) : (hardwareReset s).fltInc = (initEngine s).fltInc := rfl
@[simp] theorem hardwareReset_depth (s : State) : (hardwareReset s).depth = (initEngine s).depth := rfl
@[simp] theorem hardwareReset_mix (s : State) : (hardwareReset s).mix = (initEngine s).mix := rfl
@[simp] theorem hardwareReset_wowPhase (s : State) : (hardwareReset s).wowPhase = (initEngine s).wowPhase := rfl
@[simp] theorem hardwareReset_fltPhase (s : State) : (hardwareReset s).fltPhase = (initEngine s).fltPhase := rfl
@[simp] theorem hardwareReset_lpL (s : State) : (hardwareReset s).lpL = (initEngine s).lpL := rfl
@[simp] theorem hardwareReset_lpR (s : State) : (hardwareReset s).lpR = (initEngine s).lpR := rfl
@[simp] theorem hardwareReset_seed (s : State) : (hardwareReset s).seed = (initEngine s).seed := rfl
@[simp] theorem hardwareReset_widx (s : State) : (hardwareReset s).widx = (initEngine s).widx := rfl
@[simp] theorem hardwareReset_buf (s : State) : (hardwareReset s).buf = (initEngine s).buf := rfl
@[simp] theorem hardwareReset_bus (s : State) : (hardwareReset s).bus = s.bus := rfl
@[simp] theorem hardwareReset_reply (s : State) : (hardwareReset s).reply = .none := rfl
@[simp] theorem hardwareReset_draws (s : State) : (hardwareReset s).draws = (initEngine s).draws := rfl

/-! ## finishFrame -/

@[simp] theorem finishFrame_build (s : State) (t : Tap) : (finishFrame s t).build = s.build := rfl
@[simp] theorem finishFrame_status (s : State) (t : Tap) : (finishFrame s t).status = s.status := rfl
@[simp] theorem finishFrame_arg0 (s : State) (t : Tap) : (finishFrame s t).arg0 = s.arg0 := rfl
@[simp] theorem finishFrame_arg1 (s : State) (t : Tap) : (finishFrame s t).arg1 = s.arg1 := rfl
@[simp] theorem finishFrame_inL (s : State) (t : Tap) : (finishFrame s t).inL = s.inL := rfl
@[simp] theorem finishFrame_inR (s : State) (t : Tap) : (finishFrame s t).inR = s.inR := rfl
@[simp] theorem finishFrame_outL (s : State) (t : Tap) : (finishFrame s t).outL = (leftResult s t).out := rfl
@[simp] theorem finishFrame_outR (s : State) (t : Tap) : (finishFrame s t).outR = (rightResult s t).out := rfl
@[simp] theorem finishFrame_rate (s : State) (t : Tap) : (finishFrame s t).rate = s.rate := rfl
@[simp] theorem finishFrame_wowInc (s : State) (t : Tap) : (finishFrame s t).wowInc = s.wowInc := rfl
@[simp] theorem finishFrame_fltInc (s : State) (t : Tap) : (finishFrame s t).fltInc = s.fltInc := rfl
@[simp] theorem finishFrame_depth (s : State) (t : Tap) : (finishFrame s t).depth = s.depth := rfl
@[simp] theorem finishFrame_mix (s : State) (t : Tap) : (finishFrame s t).mix = s.mix := rfl
@[simp] theorem finishFrame_wowPhase (s : State) (t : Tap) : (finishFrame s t).wowPhase = phaseStep s.build (s.draws + 14 + 2 * channelDraws) s.wowPhase s.wowInc :=
  rfl
@[simp] theorem finishFrame_fltPhase (s : State) (t : Tap) : (finishFrame s t).fltPhase = phaseStep s.build (s.draws + 16 + 2 * channelDraws) s.fltPhase s.fltInc :=
  rfl
@[simp] theorem finishFrame_lpL (s : State) (t : Tap) : (finishFrame s t).lpL = (leftResult s t).lp := rfl
@[simp] theorem finishFrame_lpR (s : State) (t : Tap) : (finishFrame s t).lpR = (rightResult s t).lp := rfl
@[simp] theorem finishFrame_seed (s : State) (t : Tap) : (finishFrame s t).seed = (rightResult s t).seed := rfl
@[simp] theorem finishFrame_widx (s : State) (t : Tap) : (finishFrame s t).widx = BitVec.ofNat 32 (advanceW s.build s.widx.toNat) :=
  rfl
@[simp] theorem finishFrame_buf (s : State) (t : Tap) : (finishFrame s t).buf = (rightResult s t).buf := rfl
@[simp] theorem finishFrame_bus (s : State) (t : Tap) : (finishFrame s t).bus = s.bus := rfl
@[simp] theorem finishFrame_reply (s : State) (t : Tap) : (finishFrame s t).reply = s.reply := rfl
@[simp] theorem finishFrame_draws (s : State) (t : Tap) : (finishFrame s t).draws = s.draws + frameDraws := rfl

/-! ## writeReg: only the four RW registers take a host write -/

@[simp] theorem writeReg_build (r : Reg) (w : Word) (s : State) : (writeReg r w s).build = s.build := by cases r <;> rfl
@[simp] theorem writeReg_status (r : Reg) (w : Word) (s : State) : (writeReg r w s).status = s.status := by cases r <;> rfl
@[simp] theorem writeReg_arg0 (r : Reg) (w : Word) (s : State) :
    (writeReg r w s).arg0 = if r = .arg0 then w else s.arg0 := by cases r <;> rfl
@[simp] theorem writeReg_arg1 (r : Reg) (w : Word) (s : State) :
    (writeReg r w s).arg1 = if r = .arg1 then w else s.arg1 := by cases r <;> rfl
@[simp] theorem writeReg_inL (r : Reg) (w : Word) (s : State) :
    (writeReg r w s).inL = if r = .inL then w else s.inL := by cases r <;> rfl
@[simp] theorem writeReg_inR (r : Reg) (w : Word) (s : State) :
    (writeReg r w s).inR = if r = .inR then w else s.inR := by cases r <;> rfl
@[simp] theorem writeReg_outL (r : Reg) (w : Word) (s : State) : (writeReg r w s).outL = s.outL := by cases r <;> rfl
@[simp] theorem writeReg_outR (r : Reg) (w : Word) (s : State) : (writeReg r w s).outR = s.outR := by cases r <;> rfl
@[simp] theorem writeReg_rate (r : Reg) (w : Word) (s : State) : (writeReg r w s).rate = s.rate := by cases r <;> rfl
@[simp] theorem writeReg_wowInc (r : Reg) (w : Word) (s : State) : (writeReg r w s).wowInc = s.wowInc := by cases r <;> rfl
@[simp] theorem writeReg_fltInc (r : Reg) (w : Word) (s : State) : (writeReg r w s).fltInc = s.fltInc := by cases r <;> rfl
@[simp] theorem writeReg_depth (r : Reg) (w : Word) (s : State) : (writeReg r w s).depth = s.depth := by cases r <;> rfl
@[simp] theorem writeReg_mix (r : Reg) (w : Word) (s : State) : (writeReg r w s).mix = s.mix := by cases r <;> rfl
@[simp] theorem writeReg_wowPhase (r : Reg) (w : Word) (s : State) : (writeReg r w s).wowPhase = s.wowPhase := by cases r <;> rfl
@[simp] theorem writeReg_fltPhase (r : Reg) (w : Word) (s : State) : (writeReg r w s).fltPhase = s.fltPhase := by cases r <;> rfl
@[simp] theorem writeReg_lpL (r : Reg) (w : Word) (s : State) : (writeReg r w s).lpL = s.lpL := by cases r <;> rfl
@[simp] theorem writeReg_lpR (r : Reg) (w : Word) (s : State) : (writeReg r w s).lpR = s.lpR := by cases r <;> rfl
@[simp] theorem writeReg_seed (r : Reg) (w : Word) (s : State) : (writeReg r w s).seed = s.seed := by cases r <;> rfl
@[simp] theorem writeReg_widx (r : Reg) (w : Word) (s : State) : (writeReg r w s).widx = s.widx := by cases r <;> rfl
@[simp] theorem writeReg_buf (r : Reg) (w : Word) (s : State) : (writeReg r w s).buf = s.buf := by cases r <;> rfl
@[simp] theorem writeReg_bus (r : Reg) (w : Word) (s : State) : (writeReg r w s).bus = s.bus := by cases r <;> rfl
@[simp] theorem writeReg_reply (r : Reg) (w : Word) (s : State) : (writeReg r w s).reply = s.reply := by cases r <;> rfl
@[simp] theorem writeReg_draws (r : Reg) (w : Word) (s : State) : (writeReg r w s).draws = s.draws := by cases r <;> rfl

end Sys2Proof.Machine
end

