-- ==== Sys2Proof/Laws/Step.lean ====
section
/-! SUPPORT. What each shared operation, each command and each step can do, said once. -/

namespace Sys2Proof.Machine

/-- What PROCESS can do when it answers a next state (42_frame.md R161-R163). -/
theorem execProcess_cases {s t : State} (h : execProcess s = .next t) :
    (faultBit s.status = true ∧ t = s) ∨
      (faultBit s.status = false ∧ ∃ c, frameTap s = .error c ∧ t = recordRangeFault c s) ∨
      (faultBit s.status = false ∧ ∃ tap, frameTap s = .ok tap ∧ frameSlotsExist s.build s.widx.toNat tap = true ∧
        t = finishFrame s tap) := by
  unfold execProcess at h
  split at h
  · rename_i hf
    exact .inl ⟨hf, by simpa using h.symm⟩
  · rename_i hf
    have hf : faultBit s.status = false := by simpa using hf
    split at h
    · rename_i c hc
      exact .inr (.inl ⟨hf, c, hc, by simpa using h.symm⟩)
    · rename_i tap htap
      split at h
      · rename_i hs
        exact .inr (.inr ⟨hf, tap, htap, hs, by simpa using h.symm⟩)
      · simp at h

/-- What a command can do when it answers a next state: nothing, one parameter update, INIT's state, or PROCESS's. -/
theorem exec_cases {i : Instr} {s t : State} (h : exec i s = .next t) :
    t = s ∨ (i = .init ∧ t = initEngine s) ∨
      (i = .setpRate ∧ t = (storeRate (s.draws + 2) (rateOf s.build s.draws s.arg0) s).useDraws 7) ∨
      (i = .setpDepth ∧ t = (storeDepth (depthOf s.build s.draws s.arg0) s).useDraws 1) ∨
      (i = .setpMix ∧ t = storeMix s.arg0 s) ∨ (i = .process ∧ execProcess s = .next t) := by
  cases i with
  | init => exact .inr (.inl ⟨rfl, by simpa [exec, execInit] using h.symm⟩)
  | setpRate => exact .inr (.inr (.inl ⟨rfl, by simpa [exec, execSetpRate, setpValue] using h.symm⟩))
  | setpDepth => exact .inr (.inr (.inr (.inl ⟨rfl, by simpa [exec, execSetpDepth, setpValue] using h.symm⟩)))
  | setpMix => exact .inr (.inr (.inr (.inr (.inl ⟨rfl, by simpa [exec, execSetpMix, setpValue] using h.symm⟩))))
  | process => exact .inr (.inr (.inr (.inr (.inr ⟨rfl, h⟩))))
  | nop => exact .inl (by simpa [exec, execNop, noOperation] using h.symm)
  | suspend => exact .inl (by simpa [exec, execSuspend, noOperation] using h.symm)
  | resume => exact .inl (by simpa [exec, execResume, noOperation] using h.symm)
  | rsvd6 op => exact .inl (by simpa [exec, execRsvd6, noOperation] using h.symm)
  | rsvd8 op => exact .inl (by simpa [exec, execRsvd8, noOperation] using h.symm)
  | setpIgn3 => exact .inl (by simpa [exec, execSetpIgn3, ignoredIndex] using h.symm)
  | setpIgn4 idx => exact .inl (by simpa [exec, execSetpIgn4, ignoredIndex] using h.symm)
  | setpIgn8 idx => exact .inl (by simpa [exec, execSetpIgn8, ignoredIndex] using h.symm)

/-- No command changes the build, the events still to come, the last reply or the host's registers (10_state.md R55). -/
theorem exec_keeps_host_side {i : Instr} {s t : State} (h : exec i s = .next t) :
    t.build = s.build ∧ t.bus = s.bus ∧ t.reply = s.reply ∧ t.arg0 = s.arg0 ∧ t.arg1 = s.arg1 ∧ t.inL = s.inL ∧
      t.inR = s.inR := by
  rcases exec_cases h with rfl | ⟨_, rfl⟩ | ⟨_, rfl⟩ | ⟨_, rfl⟩ | ⟨_, rfl⟩ | ⟨_, hp⟩
  all_goals first
    | (refine ⟨?_, ?_, ?_, ?_, ?_, ?_, ?_⟩ <;> simp; done)
    | skip
  rcases execProcess_cases hp with ⟨_, rfl⟩ | ⟨_, c, _, rfl⟩ | ⟨_, tap, _, _, rfl⟩ <;> simp

/-- What one access can do when it answers a next state: the bus error reply, a read, a register write, or a command
(20_memory.md R66, R68). -/
theorem busAccess_cases {a : Access} {s t : State} (h : busAccess a s = .next t) :
    inWindow s.build a.addr = true ∧
      ((wellSized s.build a = false ∧ t = s.withReply (.busFault a.caller (a.addr - blockBase s.build))) ∨
        (wellSized s.build a = true ∧
          ((a.kind = .read ∧ t = s.withReply (.data a.caller (readOffset (a.addr - blockBase s.build) s))) ∨
            ∃ w, a.kind = .write w ∧
              ((a.addr - blockBase s.build = 0 ∧ exec (decodeWord w) (s.withReply (.written a.caller)) = .next t) ∨
                (a.addr - blockBase s.build ≠ 0 ∧
                  t = (writeOffset (a.addr - blockBase s.build) w s).withReply (.written a.caller)))))) := by
  unfold busAccess at h
  split at h
  · rename_i hw
    refine ⟨hw, ?_⟩
    dsimp only at h
    split at h
    · rename_i hz
      refine .inr ⟨hz, ?_⟩
      split at h
      · rename_i hk
        exact .inl ⟨hk, by simpa using h.symm⟩
      · rename_i w hk
        refine .inr ⟨w, hk, ?_⟩
        split at h
        · rename_i h0
          exact .inl ⟨h0, h⟩
        · rename_i h0
          exact .inr ⟨h0, by simpa using h.symm⟩
    · rename_i hz
      exact .inl ⟨by simpa using hz, by simpa using h.symm⟩
  · simp at h

/-- What a step can do when it answers a next state (20_memory.md R73, R76; 70_reset_and_hazards.md R340). -/
theorem step_cases {s t : State} (h : step s = .next t) :
    (s.bus = [] ∧ t = s) ∨ (∃ l es, s.bus = .reset l :: es ∧ t = hardwareReset (s.withBus es)) ∨
      ∃ a es, s.bus = .access a :: es ∧ busAccess a (s.withBus es) = .next t := by
  unfold step nextStep at h
  split at h
  · rename_i hb
    exact .inl ⟨hb, by simpa using h.symm⟩
  · rename_i e es hb
    cases e with
    | access a => exact .inr (.inr ⟨a, es, hb, h⟩)
    | reset l => exact .inr (.inl ⟨l, es, hb, by simpa [busEvent] using h.symm⟩)

/-- No command is ever refused. -/
theorem exec_ne_refused (i : Instr) (s : State) (r : Refusal) : exec i s ≠ .refused r := by
  cases i with
  | process =>
    simp only [exec, execProcess]
    split
    · simp
    · split
      · simp
      · split <;> simp
  | nop => simp [exec, execNop, noOperation]
  | init => simp [exec, execInit]
  | setpRate => simp [exec, execSetpRate]
  | setpDepth => simp [exec, execSetpDepth]
  | setpMix => simp [exec, execSetpMix]
  | setpIgn3 => simp [exec, execSetpIgn3, ignoredIndex]
  | setpIgn4 idx => simp [exec, execSetpIgn4, ignoredIndex]
  | setpIgn8 idx => simp [exec, execSetpIgn8, ignoredIndex]
  | suspend => simp [exec, execSuspend, noOperation]
  | resume => simp [exec, execResume, noOperation]
  | rsvd6 op => simp [exec, execRsvd6, noOperation]
  | rsvd8 op => simp [exec, execRsvd8, noOperation]

end Sys2Proof.Machine
end

