-- ==== Sys2Proof/Laws/Bus.lean ====
section
/-! SUPPORT. What a step can do, by the kind of its event: a reset, a command, or an access that executes no command
(20_memory.md R66, R76). -/

namespace Sys2Proof.Machine

/-- An offset below 256 lies in the window (20_memory.md R63). -/
theorem inWindow_add {b : Build} {off : Nat} (h : off < 256) : inWindow b (blockBase b + off) = true := by
  simp [inWindow, windowSize]; omega

/-- The register at its own offset (10_state.md R31). -/
theorem regAt_regOffset (r : Reg) : regAt (regOffset r) = some r := by cases r <;> rfl

/-- An offset of 0x50 or more belongs to no register (20_memory.md R69). -/
theorem regAt_reserved {off : Nat} (h : 0x50 ≤ off) : regAt off = none := by
  unfold regAt; split <;> first | rfl | omega

/-- The next command, when the next event is an access (20_memory.md R66). -/
theorem nextCommand_access {s : State} {a : Access} {es : List HostEvent} (h : s.bus = .access a :: es) :
    nextCommand s = match a.kind with
      | .write w =>
        if inWindow s.build a.addr && wellSized s.build a && decide (a.addr - blockBase s.build = regOffset .cmd) then
          some (decodeWord w)
        else none
      | .read => none := by
  unfold nextCommand; rw [h] <;> rfl

/-- A register write changes nothing that commands write (10_state.md R55). -/
theorem writeOffset_sameEngine (off : Nat) (w : Word) (s : State) :
    SameEngine s (writeOffset off w s) ∧ (writeOffset off w s).build = s.build ∧ (writeOffset off w s).draws = s.draws := by
  unfold writeOffset
  split
  · rename_i q _; cases q <;> simp [writeReg, SameEngine]
  · simp [SameEngine]

/-- A step that answers a next state is a hardware reset, a command, or changes nothing of the engine (10_state.md R55,
20_memory.md R71, R73). -/
theorem step_kinds {s t : State} (h : step s = .next t) :
    (nextIsReset s = true ∧ nextCommand s = none ∧ ∃ es, t = hardwareReset (s.withBus es)) ∨
      (nextIsReset s = false ∧
        ∃ i es r, nextCommand s = some i ∧ exec i ((s.withBus es).withReply r) = .next t) ∨
      (nextIsReset s = false ∧ nextCommand s = none ∧ SameEngine s t ∧ t.build = s.build ∧ t.draws = s.draws) := by
  rcases step_cases h with ⟨hb, rfl⟩ | ⟨l, es, hb, rfl⟩ | ⟨a, es, hb, ha⟩
  · refine .inr (.inr ⟨by unfold nextIsReset; rw [hb], by unfold nextCommand; rw [hb], ?_⟩); simp [SameEngine]
  · exact .inl ⟨by unfold nextIsReset; rw [hb], by unfold nextCommand; rw [hb], es, rfl⟩
  · have hr : nextIsReset s = false := by unfold nextIsReset; rw [hb]
    have hn := nextCommand_access hb
    obtain ⟨hw, hc⟩ := busAccess_cases ha
    simp only [withBus_build] at hw hc
    rcases hc with ⟨hz, rfl⟩ | ⟨hz, ⟨hk, rfl⟩ | ⟨w, hk, ⟨h0, he⟩ | ⟨h0, rfl⟩⟩⟩
    · refine .inr (.inr ⟨hr, ?_, ?_⟩)
      · rw [hn]; split <;> simp [hz]
      · simp [SameEngine]
    · refine .inr (.inr ⟨hr, ?_, ?_⟩)
      · rw [hn, hk]
      · simp [SameEngine]
    · refine .inr (.inl ⟨hr, decodeWord w, es, _, ?_, he⟩)
      rw [hn, hk]; simp [hw, hz, h0, regOffset]
    · refine .inr (.inr ⟨hr, ?_, ?_⟩)
      · rw [hn, hk]; simp [h0, regOffset]
      · simpa [SameEngine] using writeOffset_sameEngine (a.addr - blockBase s.build) w (s.withBus es)

end Sys2Proof.Machine
end

