-- ==== Sys2Proof/Laws/Convert.lean ====
section
/-! SUPPORT. Laws of the conversions (00_scope.md R21, R24): which numbers are exact, and bounds. -/

namespace Sys2Proof.Machine

/-- A significand below 2^24 at any exponent is the units of a magnitude. -/
theorem exists_unitsOfMag_eq : ∀ (e m : Nat), m < 16777216 → ∃ g, unitsOfMag g = m * 2^e ∧ g < (e+2) * 8388608 := by
  intro e
  induction e with
  | zero =>
    intro m hm
    refine ⟨m, ?_, by omega⟩
    by_cases h : m < 2^23
    · rw [unitsOfMag_of_lt h]; simp
    · unfold unitsOfMag; rw [if_neg h, show m / 2^23 - 1 = 0 by omega, show 2^23 + m % 2^23 = m by omega]
  | succ e ih =>
    intro m hm
    by_cases h : m < 8388608
    · obtain ⟨g, h1, h2⟩ := ih (2*m) (by omega)
      exact ⟨g, by rw [h1]; ring, Nat.lt_of_lt_of_le h2 (Nat.mul_le_mul_right _ (Nat.le_succ _))⟩
    · have h5 : (e+1) * 8388608 + m < (e+1+2) * 8388608 := by omega
      have h6 : unitsOfMag ((e+1) * 8388608 + m) = m * 2^(e+1) := by
        unfold unitsOfMag
        rw [if_neg (by omega), show ((e+1)*8388608 + m) / 2^23 - 1 = e+1 by omega,
          show 2^23 + ((e+1)*8388608+m) % 2^23 = m by omega]
      exact Exists.intro _ (And.intro h6 h5)

/-- The conversion of a natural number up to 2^24 is exact (00_scope.md R21). -/
theorem unitsOf_nat2f {n : Nat} (h : n < 2^24 ∨ n = 2^24) :
    unitsOf (nat2f n) = n * 2^149 ∧ magOf (nat2f n) < 0x4B800001 := by
  have hr : ∃ g, unitsOfMag g = n * 2^149 ∧ g < infMag := by
    rcases h with h | h
    · obtain ⟨g, h1, h2⟩ := exists_unitsOfMag_eq 149 n h; exact ⟨g, h1, by unfold infMag; omega⟩
    · obtain ⟨g, h1, h2⟩ := exists_unitsOfMag_eq 150 (2^23) (by decide)
      exact ⟨g, by rw [h1, h]; ring, by clear h1; unfold infMag; omega⟩
  obtain ⟨g, h1, h2⟩ := hr
  have e : magOf (nat2f n) = g := by rw [magOf_nat2f, ← h1, roundMag_exact_one (by omega)]
  refine ⟨by unfold unitsOf; rw [e, h1], ?_⟩
  rw [e]
  by_contra hc
  have := unitsOfMag_mono (Nat.not_lt.mp hc)
  have h3 : unitsOfMag 0x4B800001 = (2^24+2)*2^149 := by decide +kernel
  rw [h1, h3] at this
  have := Nat.le_of_mul_le_mul_right this (by positivity)
  omega

/-- A natural number up to 2^24 converts to a finite word. -/
theorem isFinite_nat2f {n : Nat} (h : n ≤ 2^24) : isFinite (nat2f n) = true := by
  have := (unitsOf_nat2f (n := n) (by omega)).2
  rw [isFinite_iff]; unfold infMag; omega

/-- The value of a converted natural number up to 2^24. -/
theorem valueOf_nat2f {n : Nat} (h : n ≤ 2^24) : valueOf (nat2f n) = n * 2^149 := by
  unfold valueOf; rw [signOf_nat2f, (unitsOf_nat2f (n := n) (by omega)).1]; simp

/-- The conversion of natural numbers is monotone. -/
theorem orderKey_nat2f_mono {n m : Nat} (h : n ≤ m) (hm : m ≤ 2^24) : orderKey (nat2f n) ≤ orderKey (nat2f m) := by
  rw [← valueOf_le_iff, valueOf_nat2f (by omega), valueOf_nat2f hm]
  exact_mod_cast Nat.mul_le_mul_right _ h

/-- A converted natural number is not negative. -/
theorem orderKey_nat2f_nonneg (n : Nat) : 0 ≤ orderKey (nat2f n) := by rw [orderKey_nonneg_iff]; left; simp

/-- `floor_nat` undoes the conversion (00_scope.md R21). -/
theorem floorNat_nat2f {n : Nat} (hn : n ≤ 2^24) : floorNat (nat2f n) = n := by
  unfold floorNat; rw [(unitsOf_nat2f (n := n) (by omega)).1]; exact Nat.mul_div_cancel _ (by positivity)

/-- `i2f` is the exact integer, rounded once (00_scope.md R21). -/
theorem i2f_eq_roundValue (v : Int) : i2f v = roundValue (v * 2^149) := by
  have hn : (v * 2^149).natAbs = v.natAbs * 2^149 := by rw [Int.natAbs_mul]; rfl
  have hd : decide (v < 0) = decide (v * 2^149 < 0) := by
    have hp : (0:Int) < 2^149 := by positivity
    generalize (2:Int)^149 = q at *
    by_cases h : v < 0
    · simp [h, Int.mul_neg_of_neg_of_pos h hp]
    · have : ¬ v * q < 0 := by push Not at *; exact Int.mul_nonneg h (le_of_lt hp)
      simp [h, this]
  unfold i2f roundValue
  rw [hn, hd]

/-- The range of `as_i32` (00_scope.md R21). -/
theorem asI32_range (s : Word) : -2^31 ≤ asI32 s ∧ asI32 s ≤ 2^31 - 1 := by
  have := s.isLt; unfold asI32; split <;> omega

/-- A converted `i32` lies within ±2^31. -/
theorem orderKey_i2f_bounds {s : Word} :
    -(0x4F000000:Int) ≤ orderKey (i2f (asI32 s)) ∧ orderKey (i2f (asI32 s)) ≤ 0x4F000000 := by
  have h := asI32_range s
  rw [i2f_eq_roundValue]
  have u := orderKey_roundValue_mono (v := asI32 s * 2^149) (w := 2^31 * 2^149)
    (by nlinarith [show (0:Int) < 2^149 by positivity])
  have l := orderKey_roundValue_mono (w := asI32 s * 2^149) (v := -2^31 * 2^149)
    (by nlinarith [show (0:Int) < 2^149 by positivity])
  exact ⟨le_trans (by decide +kernel) l, le_trans u (by decide +kernel)⟩

/-- A converted `i32` is finite. -/
theorem isFinite_i2f (s : Word) : isFinite (i2f (asI32 s)) = true :=
  isFinite_of_orderKey (m := 0x4F000000) orderKey_i2f_bounds.1 orderKey_i2f_bounds.2 (by decide)

/-- Halving a converted even number is exact (00_scope.md R24). -/
theorem fmul_nat2f_half (k : Nat) (n : Nat) (hn : n ≤ 8388608) :
    fmul k (nat2f (2*n)) 0x3F000000 = nat2f n := by
  have h1 : isFinite (nat2f (2*n)) = true := isFinite_nat2f (by omega)
  rw [fmul_eq h1 (by decide), signOf_nat2f, (unitsOf_nat2f (n := 2*n) (by omega)).1,
    show unitsOf (0x3F000000:Word) = 2^148 by decide]
  have h2 := (unitsOf_nat2f (n := n) (by omega)).1
  unfold unitsOf at h2
  have h3 : isFinite (nat2f n) = true := isFinite_nat2f (by omega)
  rw [isFinite_iff] at h3
  have hm : roundMag (2 * n * 2^149 * 2^148) (2^149) = magOf (nat2f n) := by
    rw [show 2 * n * 2^149 * 2^148 = n * 2^149 * 2^149 by ring, ← h2,
      roundMag_exact (by positivity) (Nat.le_of_lt h3)]
  rw [hm, show (false != signOf (0x3F000000:Word)) = signOf (nat2f n) by rw [signOf_nat2f]; decide]
  exact packFloat_sign_mag _

/-- The bounds of `N_FRAMES` in a legal build (00_scope.md R7). -/
theorem legalBuild_bounds {b : Build} (h : legalBuild b = true) : 1 ≤ b.nFrames ∧ b.nFrames ≤ 8388608 := by
  simp [legalBuild] at h; omega

/-- The length of a legal build converts to a finite word. -/
theorem isFinite_bufferLen {b : Build} (h : legalBuild b = true) : isFinite (nat2f (bufferLen b)) = true := by
  have := legalBuild_bounds h; exact isFinite_nat2f (by unfold bufferLen; omega)

end Sys2Proof.Machine
end

