-- ==== Sys2Proof/Laws/Nearest.lean ====
section
/-! SUPPORT. `roundMag` is rounding to nearest, ties to even (00_scope.md R16): no magnitude is nearer the exact fraction, and of
two nearest the even one is taken. -/

namespace Sys2Proof.Machine

/-- The units of a significand at an exponent step. -/
theorem unitsOfMag_step {t q : Nat} (hq : q ≤ 2 ^ 24) (h : t = 0 ∨ 2 ^ 23 ≤ q) :
    unitsOfMag (t * 2 ^ 23 + q) = q * 2 ^ t := by
  by_cases h1 : q < 2 ^ 23
  · rcases h with rfl | h
    · rw [Nat.zero_mul, Nat.zero_add, unitsOfMag_of_lt h1]; simp
    · omega
  · unfold unitsOfMag
    by_cases h2 : q = 2 ^ 24
    · rw [if_neg (by omega), show (t * 2 ^ 23 + q) / 2 ^ 23 - 1 = t + 1 by omega,
        show 2 ^ 23 + (t * 2 ^ 23 + q) % 2 ^ 23 = 2 ^ 23 by omega, h2, Nat.pow_succ]
      ring
    · rw [if_neg (by omega), show (t * 2 ^ 23 + q) / 2 ^ 23 - 1 = t by omega,
        show 2 ^ 23 + (t * 2 ^ 23 + q) % 2 ^ 23 = q by omega]

/-- The parts of a finite rounded magnitude. -/
theorem roundMag_parts {n d : Nat} (hd : 0 < d) (h : roundMag n d < infMag) :
    ∃ t, roundMag n d = t * 2 ^ 23 + roundNearest n (d * 2 ^ t) ∧ roundNearest n (d * 2 ^ t) ≤ 2 ^ 24 ∧
      (t = 0 ∨ 2 ^ 23 * (d * 2 ^ t) ≤ n) := by
  refine ⟨Nat.log2 (n / d) - 23, ?_, ?_, ?_⟩
  · unfold roundMag at h ⊢
    simp only [] at *
    omega
  · apply roundNearest_le (by positivity)
    have := log2_step (n / d)
    rw [Nat.div_lt_iff_lt_mul hd, Nat.pow_add] at this
    calc n ≤ 2 ^ (Nat.log2 (n / d) - 23) * 2 ^ 24 * d := Nat.le_of_lt this
      _ = _ := by ring
  · by_cases h0 : Nat.log2 (n / d) ≤ 23
    · left; omega
    · right
      have hne : n / d ≠ 0 := fun hc => h0 (by rw [hc]; decide)
      have := Nat.log2_self_le hne
      rw [Nat.le_div_iff_mul_le hd] at this
      calc 2 ^ 23 * (d * 2 ^ (Nat.log2 (n / d) - 23)) = 2 ^ (Nat.log2 (n / d) - 23 + 23) * d := by rw [Nat.pow_add]; ring
        _ = 2 ^ Nat.log2 (n / d) * d := by rw [Nat.sub_add_cancel (by omega)]
        _ ≤ n := this

/-- Of the multiples of a step, the rounded quotient's is nearest; of two nearest it is the even one's. -/
theorem roundNearest_nearest {n D : Nat} (hD : 0 < D) (p : Nat) :
    ((n : Int) - (roundNearest n D * D : Nat)).natAbs ≤ ((n : Int) - (p * D : Nat)).natAbs ∧
      (((n : Int) - (roundNearest n D * D : Nat)).natAbs = ((n : Int) - (p * D : Nat)).natAbs → p ≠ roundNearest n D →
        roundNearest n D % 2 = 0) := by
  obtain ⟨l1, l2⟩ := roundNearest_lower (n := n) hD
  obtain ⟨u1, u2⟩ := roundNearest_upper (n := n) hD
  generalize roundNearest n D = q at *
  rcases Nat.lt_trichotomy p q with h | h | h
  · have : (p + 1) * D ≤ q * D := Nat.mul_le_mul_right _ h
    rw [Nat.succ_mul] at this
    generalize p * D = a at *
    generalize q * D = c at *
    exact ⟨by omega, fun ht _ => l2 (by omega)⟩
  · subst h; exact ⟨le_refl _, fun _ h => absurd rfl h⟩
  · have : (q + 1) * D ≤ p * D := Nat.mul_le_mul_right _ h
    rw [Nat.succ_mul] at this
    generalize p * D = a at *
    generalize q * D = c at *
    exact ⟨by omega, fun ht _ => u2 (by omega)⟩

/-- Rounding to a magnitude is to nearest, ties to even (00_scope.md R16). -/
theorem roundMag_nearest {n d : Nat} (hd : 0 < d) (hR : roundMag n d < infMag) (g : Nat) :
    ((n : Int) - (unitsOfMag (roundMag n d) * d : Nat)).natAbs ≤ ((n : Int) - (unitsOfMag g * d : Nat)).natAbs ∧
      (((n : Int) - (unitsOfMag (roundMag n d) * d : Nat)).natAbs = ((n : Int) - (unitsOfMag g * d : Nat)).natAbs →
        unitsOfMag g ≠ unitsOfMag (roundMag n d) → roundMag n d % 2 = 0) := by
  obtain ⟨t, e, hq, ht⟩ := roundMag_parts hd hR
  have hD : 0 < d * 2 ^ t := by positivity
  have ht' : t = 0 ∨ 2 ^ 23 ≤ roundNearest n (d * 2 ^ t) := ht.imp_right fun h => le_roundNearest hD h
  have hu : unitsOfMag (roundMag n d) = roundNearest n (d * 2 ^ t) * 2 ^ t := by rw [e, unitsOfMag_step hq ht']
  have hev : roundNearest n (d * 2 ^ t) % 2 = 0 → roundMag n d % 2 = 0 := fun h => by
    rw [e, show t * 2 ^ 23 = 2 * (t * 2 ^ 22) by ring]; omega
  have hm : ∀ p, p * 2 ^ t * d = p * (d * 2 ^ t) := fun p => by ring
  rw [hu, hm]
  by_cases hg : ∃ p, unitsOfMag g = p * 2 ^ t
  · obtain ⟨p, hp⟩ := hg
    rw [hp, hm]
    obtain ⟨h1, h2⟩ := roundNearest_nearest (n := n) hD p
    exact ⟨h1, fun h3 h4 => hev (h2 h3 fun h5 => h4 (by rw [h5]))⟩
  · have ht0 : t ≠ 0 := fun h => hg ⟨unitsOfMag g, by rw [h]; simp⟩
    have hlt : g < (t + 1) * 2 ^ 23 := by
      by_contra hc
      apply hg
      refine ⟨(2 ^ 23 + g % 2 ^ 23) * 2 ^ (g / 2 ^ 23 - 1 - t), ?_⟩
      rw [unitsOfMag, if_neg (by omega), Nat.mul_assoc, ← Nat.pow_add, Nat.sub_add_cancel (by omega)]
    have h3 := unitsOfMag_strictMono hlt
    rw [show (t + 1) * 2 ^ 23 = t * 2 ^ 23 + 2 ^ 23 by ring, unitsOfMag_step (by decide) (.inr (le_refl _))] at h3
    have h4 : unitsOfMag g * d < 2 ^ 23 * (d * 2 ^ t) := by
      rw [← hm]; exact Nat.mul_lt_mul_of_pos_right h3 hd
    have h5 := ht.resolve_left ht0
    obtain ⟨h1, _⟩ := roundNearest_nearest (n := n) hD (2 ^ 23)
    generalize 2 ^ 23 * (d * 2 ^ t) = a at *
    generalize unitsOfMag g * d = b at *
    generalize roundNearest n (d * 2 ^ t) * (d * 2 ^ t) = c at *
    exact ⟨by omega, fun h6 _ => by omega⟩

/-- Rounding overflows exactly from half an ulp above the greatest finite value on (00_scope.md R19). -/
theorem roundMag_eq_infMag_iff {n d : Nat} (hd : 0 < d) : roundMag n d = infMag ↔ (2 ^ 25 - 1) * 2 ^ 252 * d ≤ n := by
  constructor
  · intro h
    by_contra hc
    push Not at hc
    have hq : n / d < 2 ^ 277 := by
      rw [Nat.div_lt_iff_lt_mul hd]
      calc n < (2 ^ 25 - 1) * 2 ^ 252 * d := hc
        _ ≤ 2 ^ 277 * d := Nat.mul_le_mul_right _ (by decide)
    have hlog : Nat.log2 (n / d) ≤ 276 := by
      by_cases h0 : n / d = 0
      · rw [h0]; decide
      · have := (Nat.log2_lt h0).mpr hq; omega
    have hstep := log2_step (n / d)
    unfold roundMag at h
    simp only [] at h
    have hb : roundNearest n (d * 2 ^ (Nat.log2 (n / d) - 23)) ≤ 2 ^ 24 := by
      apply roundNearest_le (by positivity)
      rw [Nat.div_lt_iff_lt_mul hd, Nat.pow_add] at hstep
      calc n ≤ 2 ^ (Nat.log2 (n / d) - 23) * 2 ^ 24 * d := Nat.le_of_lt hstep
        _ = _ := by ring
    have hinf : infMag = 255 * 2 ^ 23 := by decide
    by_cases h3 : Nat.log2 (n / d) - 23 = 253
    · rw [h3] at h hb
      obtain ⟨l1, l2⟩ := roundNearest_lower (n := n) (d := d * 2 ^ 253) (by positivity)
      have h24 : roundNearest n (d * 2 ^ 253) = 2 ^ 24 := by omega
      rw [h24] at l1
      have : 2 * (2 ^ 24 * (d * 2 ^ 253)) = d * 2 ^ 253 + 2 * ((2 ^ 25 - 1) * 2 ^ 252 * d) := by ring
      omega
    · omega
  · intro h
    refine Nat.le_antisymm (roundMag_le _ _) ?_
    have := roundMag_mono (n := (2 ^ 25 - 1) * 2 ^ 252) (d := 1) (n' := n) (d' := d) (by decide) hd (by omega)
    have hc : roundMag ((2 ^ 25 - 1) * 2 ^ 252) 1 = infMag := by decide +kernel
    omega

/-- The step from one magnitude to the next: one ulp. -/
theorem unitsOfMag_succ (g : Nat) : unitsOfMag (g + 1) = unitsOfMag g + 2 ^ (g / 2 ^ 23 - 1) := by
  by_cases h1 : g + 1 < 2 ^ 23
  · rw [unitsOfMag_of_lt h1, unitsOfMag_of_lt (by omega), show g / 2 ^ 23 - 1 = 0 by omega]; rfl
  · by_cases h2 : g < 2 ^ 23
    · have : g = 2 ^ 23 - 1 := by omega
      subst this; decide
    · unfold unitsOfMag
      rw [if_neg (by omega), if_neg (by omega)]
      by_cases h3 : (g + 1) % 2 ^ 23 = 0
      · rw [show (g + 1) / 2 ^ 23 - 1 = (g / 2 ^ 23 - 1) + 1 by omega, h3, show g % 2 ^ 23 = 2 ^ 23 - 1 by omega, Nat.pow_succ]
        norm_num; ring
      · rw [show (g + 1) / 2 ^ 23 = g / 2 ^ 23 by omega, show (g + 1) % 2 ^ 23 = g % 2 ^ 23 + 1 by omega]
        ring

/-- The value of a word given by its sign and magnitude. -/
theorem valueOf_packFloat {n : Bool} {m : Nat} (h : m < 2 ^ 31) :
    valueOf (packFloat n m) = if n then -(unitsOfMag m : Int) else unitsOfMag m := by
  unfold valueOf unitsOf; rw [signOf_packFloat h, magOf_packFloat h]

/-- Rounding the absolute value and putting the sign on is correct rounding (00_scope.md R16, R19). -/
theorem roundedFrom_packFloat {v : Int} {d : Nat} {s : Bool} (hd : 0 < d) (hs : v ≠ 0 → s = decide (v < 0)) :
    RoundedFrom v d (packFloat s (roundMag v.natAbs d)) := by
  have hlt := roundMag_lt v.natAbs d
  refine ⟨?_, ?_, ?_, ?_⟩
  · rw [isNaN_false_iff, magOf_packFloat hlt]; exact roundMag_le _ _
  · rw [isInf_iff, magOf_packFloat hlt]; exact roundMag_eq_infMag_iff hd
  · intro h
    rw [isInf_iff, magOf_packFloat hlt, roundMag_eq_infMag_iff hd] at h
    rw [signOf_packFloat hlt]
    apply hs
    rintro rfl
    simp at h
    omega
  · intro hf c hc
    rw [isFinite_iff, magOf_packFloat hlt] at hf
    rw [valueOf_packFloat hlt, magOf_packFloat hlt]
    obtain ⟨hn, ht⟩ := roundMag_nearest (n := v.natAbs) hd hf (magOf c)
    obtain ⟨hz, _⟩ := roundMag_nearest (n := v.natAbs) hd hf 0
    have hcv : valueOf c = if signOf c then -(unitsOfMag (magOf c) : Int) else unitsOfMag (magOf c) := rfl
    rw [hcv]
    simp only [unitsOfMag_zero, Nat.zero_mul] at hz
    by_cases h0 : v = 0
    · subst h0
      have : roundMag (0:Int).natAbs d = 0 := by simpa using roundMag_zero d
      rw [this]
      refine ⟨by simp, fun _ _ => rfl⟩
    · rw [hs h0]
      generalize unitsOfMag (magOf c) = u at *
      generalize hR : roundMag v.natAbs d = R at *
      generalize unitsOfMag R = q at *
      have e1 : ((q * d : Nat) : Int) = (q : Int) * d := by push_cast; rfl
      have e2 : ((u * d : Nat) : Int) = (u : Int) * d := by push_cast; rfl
      have hu0 : 0 ≤ (u : Int) * d := by positivity
      have hq0 : 0 ≤ (q : Int) * d := by positivity
      rw [e1] at hn ht hz
      rw [e2] at hn ht
      have hn1 : ∀ x : Int, -x * (d : Int) = -(x * d) := fun x => by ring
      by_cases hv : v < 0 <;> cases signOf c <;>
        simp only [hv, decide_true, decide_false, if_true, if_false, Bool.false_eq_true, hn1] <;>
        (refine ⟨by omega, fun h1 h2 => ?_⟩)
      · apply ht
        · omega
        · rintro rfl
          have : (u:Int) * d = 0 := by omega
          have : (u:Int) = 0 := by
            rcases mul_eq_zero.mp this with h | h
            · exact h
            · omega
          apply h2; omega
      · exact ht (by omega) (by rintro rfl; exact h2 rfl)
      · exact ht (by omega) (by rintro rfl; exact h2 rfl)
      · apply ht
        · omega
        · rintro rfl
          have : (u:Int) * d = 0 := by omega
          have : (u:Int) = 0 := by
            rcases mul_eq_zero.mp this with h | h
            · exact h
            · omega
          apply h2; omega

end Sys2Proof.Machine
end

