-- ==== Sys2Proof/Laws/PerInstr.lean ====
section
/-! SUPPORT. Facts about every instruction, one lemma per constructor: the canonical word has every ignored bit zero
(30_encoding.md R99). -/

namespace Sys2Proof.Laws.CanonicalWord

/-- The canonical word of a command has bits 31:8 zero, and bits 7:4 too when its `OP` is not 3. -/
def Statement (i : Instr) : Prop :=
  i.wellFormed = true → (encode i).toNat < 256 ∧ ((encode i).toNat % 16 ≠ 3 → (encode i).toNat < 16)

theorem nop : Statement .nop := fun _ => by decide
theorem init : Statement .init := fun _ => by decide
theorem process : Statement .process := fun _ => by decide
theorem setpRate : Statement .setpRate := fun _ => by decide
theorem setpDepth : Statement .setpDepth := fun _ => by decide
theorem setpMix : Statement .setpMix := fun _ => by decide
theorem setpIgn3 : Statement .setpIgn3 := fun _ => by decide
theorem setpIgn4 (idx : BitVec 4) : Statement (.setpIgn4 idx) := fun _ => by
  have := idx.isLt
  simp only [encode, BitVec.toNat_ofNat]; omega
theorem setpIgn8 (idx : BitVec 4) : Statement (.setpIgn8 idx) := fun _ => by
  have := idx.isLt
  simp only [encode, BitVec.toNat_ofNat]; omega
theorem suspend : Statement .suspend := fun _ => by decide
theorem resume : Statement .resume := fun _ => by decide
theorem rsvd6 (op : BitVec 4) : Statement (.rsvd6 op) := fun _ => by
  have := op.isLt
  simp only [encode, BitVec.toNat_ofNat]; omega
theorem rsvd8 (op : BitVec 4) : Statement (.rsvd8 op) := fun _ => by
  have := op.isLt
  simp only [encode, BitVec.toNat_ofNat]; omega

end Sys2Proof.Laws.CanonicalWord
end

