-- ==== Sys2Proof/Laws/Slots.lean ====
section
/-! SUPPORT. The slots that a tap names exist (00_scope.md R13, 45_interpolator.md R235). -/

namespace Sys2Proof.Machine

/-- The buffer frames of a tap at a wrapped position exist (45_interpolator.md R235). -/
theorem tapAt_frames_lt {b : Build} (k : Nat) (hb : legalBuild b = true) (hh : b.k.half = 0x3F000000)
    {r : Word} (h0 : isNaN r = false) (h1 : flt r 0 = false) (h2 : flt (nat2f (bufferLen b)) r = false) :
    (tapAt b k r).older < b.nFrames ∧ (tapAt b k r).newer < b.nFrames := by
  have hN := legalBuild_bounds hb
  have hl := isFinite_bufferLen hb
  have k0 : 0 ≤ orderKey r := by
    by_contra hc
    rw [Bool.eq_false_iff] at h1
    exact h1 ((flt_iff _ _).mpr ⟨h0, isNaN_zero, by rw [orderKey_zero]; omega⟩)
  have k1 : orderKey r ≤ orderKey (nat2f (bufferLen b)) := by
    by_contra hc
    rw [Bool.eq_false_iff] at h2
    exact h2 ((flt_iff _ _).mpr ⟨not_isNaN_of_isFinite hl, h0, by omega⟩)
  have m1 : magOf r ≤ magOf (nat2f (bufferLen b)) := by
    rw [orderKey_of_nonneg k0, orderKey_of_nonneg (orderKey_nat2f_nonneg _)] at k1; omega
  have m2 := magOf_fmul_mono (k := k) (k' := 0) (a := r) (b := 0x3F000000) (d := 0x3F000000) hl
    (by decide) m1 (le_refl _)
  rw [show bufferLen b = 2 * b.nFrames from rfl, fmul_nat2f_half 0 b.nFrames hN.2] at m2
  have hi : floorNat (fmul k r 0x3F000000) ≤ b.nFrames := by
    rw [← floorNat_nat2f (n := b.nFrames) (by omega)]
    exact Nat.div_le_div_right (unitsOf_mono m2)
  unfold tapAt
  rw [hh]
  dsimp only
  refine ⟨?_, Nat.mod_lt _ (by omega)⟩
  split <;> omega

/-- The slots of a frame whose buffer frames exist exist (00_scope.md R13). -/
theorem frameSlotsExist_of_lt {b : Build} {w : Word} {t : Tap} (hw : widxLegal b w = true)
    (h : t.older < b.nFrames ∧ t.newer < b.nFrames) : frameSlotsExist b w.toNat t = true := by
  simp only [widxLegal, Bool.and_eq_true, decide_eq_true_eq] at hw
  have hL : bufferLen b = 2 * b.nFrames := rfl
  simp only [frameSlotsExist, slotExists, slotOf, channelNumber, Bool.and_eq_true, decide_eq_true_eq]
  refine ⟨⟨?_, decide_eq_true ?_⟩, decide_eq_true ?_⟩ <;> omega

end Sys2Proof.Machine
end

