-- ==== Sys2Proof/Tests/Slice0.lean ====
section
/-! SUPPORT. The model's own tests. Expected values are those of spec/95_test_vectors.md (V-, S- and P- ids) or are written out
from the rule named. The `test_witness_` theorems meet the hypotheses of the statement they name, clause by clause. -/

namespace Sys2Proof.Tests

open Sys2Proof.Machine

set_option Elab.async false -- one thread: the many kernel evaluations below otherwise each hold a thread's stack

/-! ## Helpers -/

/-- The answer is a next state. -/
def isNext : Host.Outcome State Fault Refusal → Bool
  | .next _ => true
  | _ => false

/-- The next state of an answer, or the reset state. -/
def nextOf : Host.Outcome State Fault Refusal → State
  | .next t => t
  | _ => State.reset

theorem eq_next {o : Host.Outcome State Fault Refusal} (h : isNext o = true) : o = .next (nextOf o) := by
  cases o <;> simp_all [isNext, nextOf]

/-- The state after the `CMD` write of a word. -/
def run (w : Nat) (s : State) : State := nextOf (step (s.withFetchWord 32 w))

/-- The reset state with another list of events. -/
def events (es : List HostEvent) : State := State.reset.withBus es

/-- An aligned 32-bit access of the window of the reference build by the audio caller. -/
def acc (off : Nat) (k : AccessKind) : HostEvent := .access { caller := .audio, addr := off, size := 4, kind := k }

/-- The reset state with a recorded fault of cause 1. -/
def faulted : State := { State.reset with status := 0x00000011 }

/-! ## WellFormed refuses ill-formed terms -/

theorem test_wellFormed_setpIgn4_low : (Instr.setpIgn4 3).wellFormed = false := by decide
theorem test_wellFormed_setpIgn4_high : (Instr.setpIgn4 8).wellFormed = false := by decide
theorem test_wellFormed_setpIgn8_low : (Instr.setpIgn8 7).wellFormed = false := by decide
theorem test_wellFormed_rsvd6_low : (Instr.rsvd6 5).wellFormed = false := by decide
theorem test_wellFormed_rsvd6_high : (Instr.rsvd6 8).wellFormed = false := by decide
theorem test_wellFormed_rsvd8_low : (Instr.rsvd8 7).wellFormed = false := by decide

/-! ## Decoding: words written out from 30_encoding.md R90 to R92 and R99, ignored bits set in some (R93) -/

theorem test_decode_nop : decodeWord 0b11111111111111111111111111110000 = .nop := by decide
theorem test_decode_init : decodeWord 0b00000000000000000000000000000001 = .init := by decide
theorem test_decode_process : decodeWord 0b10100101000000000000000001110010 = .process := by decide
theorem test_decode_setpRate : decodeWord 0b00000000000000000000000000000011 = .setpRate := by decide
theorem test_decode_setpDepth : decodeWord 0b11111111111111111111111100010011 = .setpDepth := by decide -- V-P5
theorem test_decode_setpMix : decodeWord 0b00000000000000000000000000100011 = .setpMix := by decide
theorem test_decode_setpIgn3 : decodeWord 0b00000000000000000000000000110011 = .setpIgn3 := by decide
theorem test_decode_setpIgn4 : decodeWord 0b00000000000000000000000001010011 = .setpIgn4 5 := by decide
theorem test_decode_setpIgn8 : decodeWord 0b00000000000000000000000011110011 = .setpIgn8 15 := by decide
theorem test_decode_suspend : decodeWord 0b00000000000000000000000000110100 = .suspend := by decide
theorem test_decode_resume : decodeWord 0b00000000000000000000000000000101 = .resume := by decide
theorem test_decode_rsvd6 : decodeWord 0b00000000000000000000000000000111 = .rsvd6 7 := by decide
theorem test_decode_rsvd8 : decodeWord 0b00000000000000000000000011111000 = .rsvd8 8 := by decide
/-- The bytes 0x13 0x00 0x00 0x00, lowest address first (20_memory.md R64). -/
theorem test_decode_bytes : decode [0x13, 0x00, 0x00, 0x00, 0xAA] = .ok (.setpDepth, [0xAA]) := by decide
theorem test_decode_narrow : decode [0x13, 0x00] = .error (.narrow 2) := by decide
theorem test_decodeTableWord_short : decodeTableWord 8 0x53 = some (.setpIgn4 5) := by decide

/-! ## One step of each command -/

/-- V-N4. -/
theorem test_nop_keeps_fault : (run 0x00000000 faulted).status = 0x00000011 := by decide +kernel
/-- V-N5: INIT clears a fault; V-N3: it keeps its operands. -/
theorem test_init : (fun t => (t.status, t.arg0, t.depth, t.fltInc, t.seed))
    (run 0x00000001 { faulted with arg0 := 0xFFFFFFFF, depth := 0x7F800000, seed := 7 }) =
      (0, 0xFFFFFFFF, 0x43100000, 0x3A4DE32E, 0x00003039) := by decide +kernel
/-- V-F1, the example of 42_frame.md R160. -/
theorem test_process_outputs : (fun t => (t.outL, t.outR, t.widx, t.seed))
    (run 0x00000002 { State.reset with inL := 0x3F800000, inR := 0x3F000000 }) =
      (0x3F0002AD, 0x3E800457, 2, 0x043C7AD3) := by decide +kernel
/-- 60_exceptions.md R301: `DEPTH` = +∞ stalls the wrap, cause 3; nothing else is written (R302). -/
theorem test_process_stall : (fun t => (t.status, t.widx, t.outL, t.seed))
    (run 0x00000002 { State.reset with depth := 0x7F800000, outL := 0x3F800000 }) =
      (0x00000031, 0, 0x3F800000, 0x00003039) := by decide +kernel
/-- S3, V-P1. -/
theorem test_setpRate : (fun t => (t.rate, t.wowInc, t.fltInc)) (run 0x00000003 { State.reset with arg0 := 0x3F800000 }) =
    (0x40400000, 0x39CDE32E, 0x3B9A6A62) := by decide +kernel
/-- V-P1, the row of -1.0. -/
theorem test_setpRate_negative : (fun t => (t.rate, t.wowInc, t.fltInc))
    (run 0x00000003 { State.reset with arg0 := 0xBF800000 }) = (0xC0333334, 0xB9C0295F, 0xBB901F08) := by decide +kernel
/-- V-P2, V-P5: ignored bits set. -/
theorem test_setpDepth : (run 0xFFFFFF13 { State.reset with arg0 := 0x2EDBE6FF }).depth = 0x3324ED3F := by decide +kernel
/-- V-P3: a NaN's bits are kept. -/
theorem test_setpMix : (run 0x00000023 { State.reset with arg0 := 0x7FC12345 }).mix = 0x7FC12345 := by decide +kernel
/-- V-P4. -/
theorem test_setpIgn : (run 0x00000053 { State.reset with arg0 := 0x3F800000 }).depth = 0x43100000 ∧
    (run 0x00000033 { State.reset with arg0 := 0x3F800000 }).rate = 0x3F000000 ∧
    (run 0x000000F3 { State.reset with arg0 := 0x3F800000 }).mix = 0x3F000000 := by decide +kernel
/-- V-N4. -/
theorem test_suspend_resume_rsvd : (run 0x00000004 faulted).status = 0x00000011 ∧ (run 0x00000005 faulted).status = 0x00000011 ∧
    (run 0x00000007 faulted).status = 0x00000011 ∧ (run 0x0000000F faulted).status = 0x00000011 := by decide +kernel

/-! ## The units of PROCESS -/

/-- V-L1: the default, and the largest in contract (SIN-dependent). -/
theorem test_modAmount : modAmount referenceBuild 0 0 0 0x43100000 = 0x42900000 ∧
    modAmount referenceBuild 0 0x3FC90FDB 0x3FC90FDB 0x43C00000 = 0x43B1999A := by decide +kernel
/-- V-L2. -/
theorem test_phaseStep : phaseStep referenceBuild 0 0x40C90F28 0x3B9A6A62 = 0x3B97A000 ∧
    phaseStep referenceBuild 0 0x3F800000 0x41500000 = 0x40F6F025 := by decide +kernel
/-- V-I1, rows 4 and 8. -/
theorem test_readTap : readTap referenceBuild 0 0 0x32A4ED3F = .ok ⟨0, 1, 0⟩ ∧
    readTap referenceBuild 0 2 0x43B1999A = .ok ⟨1245, 1246, 0x3F4CD000⟩ := by decide +kernel
/-- V-I3, rows 1 and 6. -/
theorem test_interp :
    interp referenceBuild 0 (memWrite [] 0 0x3F800000) .left ⟨0, 1, 0x3E800000⟩ = 0x3F400000 ∧
      interp referenceBuild 0 (memWrite [] 0 0x80000000) .left ⟨0, 1, 0⟩ = 0x00000000 := by decide +kernel
/-- V-O1 and V-O2. -/
theorem test_onePole_tilt : onePole referenceBuild 0 0x3E19999A 0x3F800000 = 0x3E8E147C ∧
    tilt referenceBuild 0 0x3F800000 0x3E19999A = 0x3F547AE2 := by decide +kernel
/-- V-R1 step 3, and V-R2. -/
theorem test_noise : noiseValue referenceBuild 0 0x8B0C4216 = 0xBAEF8498 ∧ uniform 0 0x7FFFFFC0 = 0x3F800000 := by
  decide +kernel
/-- V-M4 and V-M6. -/
theorem test_mixOut : mixOut referenceBuild 0 0x80000000 0 0xB8AB266F 0 = 0x80000000 ∧
    mixOut referenceBuild 0 0x3E800000 0x3F333333 0x3A83126F 0x3F800000 = 0x3F3374BC := by decide +kernel

/-! ## Witnesses: decoding -/

theorem test_witness_DecodeEncodeRoundTrip :
    (Instr.setpIgn4 4).wellFormed = true ∧ (Instr.setpIgn4 7).wellFormed = true ∧ (Instr.setpIgn8 8).wellFormed = true ∧
      (Instr.setpIgn8 15).wellFormed = true ∧ (Instr.rsvd6 6).wellFormed = true ∧ (Instr.rsvd6 7).wellFormed = true ∧
      (Instr.rsvd8 8).wellFormed = true ∧ (Instr.rsvd8 15).wellFormed = true := by decide
theorem test_witness_EveryWordSelectsExactlyOneRow :
    (0xFFFFFFF0 : Word).toNat % 16 = 0 ∧ (1 : Word).toNat % 16 = 1 ∧ (2 : Word).toNat % 16 = 2 ∧
      (0xFFFFFFF3 : Word).toNat % 16 = 3 ∧ (4 : Word).toNat % 16 = 4 ∧ (5 : Word).toNat % 16 = 5 ∧
      6 ≤ (6 : Word).toNat % 16 ∧ 6 ≤ (0xFFFFFFFF : Word).toNat % 16 ∧ 12 < opcodeTable.length := by decide
theorem test_witness_SetpIndexSelectsTheParameter : 3 ≤ (3 : BitVec 4).toNat ∧ 3 ≤ (15 : BitVec 4).toNat := by decide
theorem test_witness_IgnoredBitsSelectTheSameCommand :
    ((0xFFFFFF13 : Word).toNat % 16 = (0x13 : Word).toNat % 16 ∧ (0xFFFFFF13 : Word).toNat % 256 = (0x13 : Word).toNat % 256) ∧
      ((0xFFFFFFF2 : Word).toNat % 16 = (2 : Word).toNat % 16 ∧ (0xFFFFFFF2 : Word).toNat % 16 ≠ 3) := by decide
theorem test_witness_CanonicalCommandWords :
    3 ≤ (3 : BitVec 4).toNat ∧ 3 ≤ (15 : BitVec 4).toNat ∧ 6 ≤ (6 : BitVec 4).toNat ∧ 6 ≤ (15 : BitVec 4).toNat := by decide
theorem test_witness_ReservedOpcodesRunAsNop : 6 ≤ (6 : Word).toNat % 16 ∧ 6 ≤ (0xFFFFFFFF : Word).toNat % 16 := by decide
theorem test_witness_EveryCommandWordCompletes :
    MachineInv State.reset ∧ State.reset.build.k.half = 0x3F000000 := by decide +kernel

/-! ## Witnesses: INIT, reset, SETP -/

theorem test_witness_InitDefaultValues : State.reset.build.k = referenceConsts := rfl
theorem test_witness_ResetAndInitTableValues : State.reset.build = referenceBuild := rfl
theorem test_witness_HardwareResetEvent : (events [.reset []]).bus = [.reset []] := rfl
theorem test_witness_SetpRateCornerCases : State.reset.build.k = referenceConsts ∧
    (State.reset.arg0 = 0x00000000 ∨ State.reset.arg0 = 0x80000000) ∧
    ({ State.reset with arg0 := 0x3F800000 } : State).arg0 = 0x3F800000 ∧
    ({ State.reset with arg0 := 0x7F800000 } : State).arg0 = 0x7F800000 ∧
    ({ State.reset with arg0 := 0xFF800000 } : State).arg0 = 0xFF800000 ∧
    isNaN ({ State.reset with arg0 := 0x7F800001 } : State).arg0 = true := by decide +kernel
theorem test_witness_SetpDepthCornerCases : State.reset.build.k = referenceConsts ∧
    ({ State.reset with arg0 := 0x3F800000 } : State).arg0 = 0x3F800000 ∧ State.reset.arg0 = 0x00000000 ∧
    ({ State.reset with arg0 := 0x80000000 } : State).arg0 = 0x80000000 ∧
    ({ State.reset with arg0 := 0x3F000000 } : State).arg0 = 0x3F000000 ∧
    flt ({ State.reset with arg0 := 0x80000001 } : State).arg0 0 = true ∧
    flt 0x3F800000 ({ State.reset with arg0 := 0x3F800001 } : State).arg0 = true ∧
    isNaN ({ State.reset with arg0 := 0xFFFFFFFF } : State).arg0 = true := by decide +kernel
theorem test_witness_SetpInUnitRangeKeepsTheContract : State.reset.build.k = referenceConsts ∧ InContract State.reset ∧
    unitValue State.reset.arg0 = true ∧ unitValue 0x80000000 = true ∧ unitValue 0x3F800000 = true := by decide +kernel

/-! ## Witnesses: range faults -/

theorem test_witness_ProcessIgnoredWhileFaulted : Faulted faulted := by decide
/-- Cause 2 (`DEPTH` = -3600), cause 3 (`DEPTH` = +∞). -/
theorem test_witness_RangeFaultWritesOnlyStatus : ¬Faulted State.reset ∧
    readTap referenceBuild 9 0 (modAmount referenceBuild 0 0 0 0xC5610000) = .error .rposHigh ∧
    readTap referenceBuild 9 0 (modAmount referenceBuild 0 0 0 0x7F800000) = .error .wrapStall := by decide +kernel
/-- Cause 1 (`DEPTH` a NaN). -/
theorem test_witness_RangeFaultWritesOnlyStatus_nan :
    readTap referenceBuild 9 0 (modAmount referenceBuild 0 0 0 0x7FC00000) = .error .rposNaN := by
  have hm : isNaN (modAmount referenceBuild 0 0 0 0x7FC00000) = true := isNaN_fmul_of_isNaN (.inr (by decide))
  have hr : isNaN (rawPosition referenceBuild 9 0 (modAmount referenceBuild 0 0 0 0x7FC00000)) = true :=
    isNaN_fsub_of_isNaN (.inr (isNaN_fmul_of_isNaN (.inl hm)))
  have hn : flt (rawPosition referenceBuild 9 0 (modAmount referenceBuild 0 0 0 0x7FC00000)) 0 = false := by
    rw [Bool.eq_false_iff]; intro h; rw [flt_iff, hr] at h; exact absurd h.1 (by decide)
  obtain ⟨n, hw⟩ : ∃ n, wrapFuel = n + 1 := ⟨2 ^ 31 - 1, by decide⟩
  unfold readTap
  rw [hw, wrapLoop_of_not_neg hn]
  dsimp only
  rw [if_pos hr]
theorem test_witness_FaultStaysUntilInitOrReset : Faulted faulted ∧
    (∃ t, step (faulted.withBus [acc 0 (.write 2)]) = .next t) ∧ (∃ t, step (faulted.withBus [acc 0 (.write 1)]) = .next t) ∧
    ∃ t, step (faulted.withBus [.reset []]) = .next t :=
  ⟨by decide, ⟨_, eq_next (by decide +kernel)⟩, ⟨_, eq_next (by decide +kernel)⟩, ⟨_, eq_next (by decide +kernel)⟩⟩
theorem test_witness_OnlyProcessRecordsAFault :
    ¬Faulted ({ events [acc 0 (.write 2)] with depth := 0x7F800000 } : State) ∧
      ∃ t, step { events [acc 0 (.write 2)] with depth := 0x7F800000 } = .next t ∧ Faulted t :=
  ⟨by decide, _, eq_next (by decide +kernel), by decide +kernel⟩
/-- A raw position of -∞ (`mod` = +∞), above `L` (`mod` just below -1600), at `L` and at 0. -/
theorem test_witness_RawPositionDecidesTheFault : legalBuild referenceBuild = true ∧
    (isInf (rawPosition referenceBuild 0 0 0x7F800000) = true ∧ signOf (rawPosition referenceBuild 0 0 0x7F800000) = true) ∧
    flt (nat2f (bufferLen referenceBuild)) (rawPosition referenceBuild 0 0 0xC4C80001) = true ∧
    (fle 0 (rawPosition referenceBuild 0 0 0xC4C80000) = true ∧
      fle (rawPosition referenceBuild 0 0 0xC4C80000) (nat2f (bufferLen referenceBuild)) = true) ∧
    fle 0 (rawPosition referenceBuild 0 0 0) = true ∧
      fle (rawPosition referenceBuild 0 0 0) (nat2f (bufferLen referenceBuild)) = true := by decide +kernel
/-- One addition (`mod` = 72), two additions (`mod` = 3000), and a stall at the first (`mod` just above 2^36), from `W` = 0. -/
theorem test_witness_RawPositionDecidesTheFault_wrap :
    let add : Word → Word := fun x => fadd 2 x (nat2f 3200)
    let r1 := rawPosition referenceBuild 0 0 0x42900000
    let r2 := rawPosition referenceBuild 0 0 0x453B8000
    let r3 := rawPosition referenceBuild 0 0 0x51800001
    ((∀ j, j < 1 → flt (add^[j] r1) 0 = true ∧ feq (add^[j + 1] r1) (add^[j] r1) = false) ∧
        fle 0 (add^[1] r1) = true ∧ fle (add^[1] r1) (nat2f 3200) = true) ∧
      ((∀ j, j < 2 → flt (add^[j] r2) 0 = true ∧ feq (add^[j + 1] r2) (add^[j] r2) = false) ∧
        fle 0 (add^[2] r2) = true ∧ fle (add^[2] r2) (nat2f 3200) = true) ∧
      flt r3 0 = true ∧ feq (add r3) r3 = true := by decide +kernel
theorem test_witness_RawPositionDecidesTheFault_nan : isNaN (rawPosition referenceBuild 0 0 0x7FC00000) = true :=
  isNaN_fsub_of_isNaN (.inr (isNaN_fmul_of_isNaN (.inl (by decide))))
/-- -2^36 moves on; the next word below it stalls (45_interpolator.md R233). -/
theorem test_witness_WrapStallsExactlyBelowMinusTwoToThe36 :
    (isFinite 0xD1800000 = true ∧ flt 0xD1800000 0 = true ∧ feq (fadd 0 0xD1800000 (nat2f 3200)) 0xD1800000 = false) ∧
      isFinite 0xD1800001 = true ∧ flt 0xD1800001 0 = true ∧
        feq (fadd 0 0xD1800001 (nat2f 3200)) 0xD1800001 = true ∧ referenceBuild.nFrames = 1600 ∧
        isFinite (rawPosition referenceBuild 0 0 0x51000001) = true ∧
        flt (rawPosition referenceBuild 0 0 0x51000001) 0xD1800000 = true := by decide +kernel
theorem test_witness_WrapAdditionAdvancesHalfTheLength : legalBuild referenceBuild = true ∧
    (isFinite 0x80000001 = true ∧ flt 0x80000001 0 = true ∧
      feq (fadd 0 0x80000001 (nat2f (bufferLen referenceBuild))) 0x80000001 = false) ∧
    isFinite 0xD1800000 = true ∧ flt 0xD1800000 0 = true ∧
      feq (fadd 0 0xD1800000 (nat2f (bufferLen referenceBuild))) 0xD1800000 = false := by decide +kernel
theorem test_witness_NonFinitePhaseRecordsCauseOne : State.reset.build.k = referenceConsts ∧
    legalBuild State.reset.build = true ∧ ¬Faulted State.reset ∧
    isFinite ({ State.reset with wowPhase := 0x7F800000 } : State).wowPhase = false ∧
    isFinite ({ State.reset with fltPhase := 0x7FC00000 } : State).fltPhase = false := by decide +kernel

/-! ## Witnesses: PROCESS -/

theorem test_witness_ProcessFrameResult : ¬Faulted State.reset ∧
    readTap State.reset.build (State.reset.draws + 9) State.reset.widx.toNat
      (modAmount State.reset.build State.reset.draws State.reset.wowPhase State.reset.fltPhase State.reset.depth) =
        .ok ⟨1528, 1529, 0⟩ ∧
    0 + 1 < 2 * State.reset.build.nFrames ∧ 2 * 1528 + 1 < 2 * State.reset.build.nFrames ∧
    2 * 1529 + 1 < 2 * State.reset.build.nFrames := by decide +kernel
theorem test_witness_ProcessStoresOnlyTheCurrentFrame : ¬Faulted State.reset ∧ Memory.wf State.reset.buf = true ∧
    ∃ t, exec .process State.reset = .next t ∧ ¬Faulted t :=
  ⟨by decide, rfl, _, eq_next (by decide +kernel), by decide +kernel⟩
theorem test_witness_SeedAdvancesTwicePerCompletedFrame :
    (∃ t, exec .process State.reset = .next t ∧ ¬Faulted State.reset ∧ ¬Faulted t) ∧
      (∃ t, exec .nop State.reset = .next t) ∧ ∃ t, exec .process faulted = .next t ∧ Faulted faulted :=
  ⟨⟨_, eq_next (by decide +kernel), by decide, by decide +kernel⟩, ⟨_, rfl⟩, _, eq_next (by decide +kernel), by decide⟩
theorem test_witness_LcgStepIsExactAndHasNoFixedPoint :
    referenceBuild.lcgA.toNat % 4 = 1 ∧ referenceBuild.lcgC.toNat % 2 = 1 := by decide
theorem test_witness_UniformLiesInTheUnitRangeAndIsMonotone : asI32 0x80000000 ≤ asI32 0x7FFFFFFF ∧
    0x7FFFFFC0 ≤ (0x7FFFFFC0 : Word).toNat ∧ (0x7FFFFFFF : Word).toNat ≤ 0x7FFFFFFF := by decide
theorem test_witness_NoiseLiesWithinItsAmplitude : referenceBuild.k.noiseAmp = 0x3B03126F := rfl
theorem test_witness_WriteIndexReturnsAfterNFrames : (0 % 2 = 0 ∧ 0 + 2 ≤ bufferLen referenceBuild) ∧
    (3198 % 2 = 0 ∧ 3198 + 2 ≤ bufferLen referenceBuild) ∧ (0 < 1 ∧ 1 < referenceBuild.nFrames) ∧
    0 < 1599 ∧ 1599 < referenceBuild.nFrames := by decide
/-- The left channel agrees and the right differs in its input and filter state; then the other way round. -/
theorem test_witness_ChannelsDoNotMix :
    Memory.wf State.reset.buf = true ∧ widxLegal State.reset.build State.reset.widx = true ∧ ¬Faulted State.reset ∧
      (∃ t, exec .process State.reset = .next t ∧ ¬Faulted t) ∧
      (∃ t, exec .process { State.reset with inR := 0x3F800000, lpR := 0x3F000000 } = .next t) ∧
      ∃ t, exec .process { State.reset with inL := 0x3F800000, lpL := 0x7F800000 } = .next t :=
  ⟨rfl, by decide +kernel, by decide, ⟨_, eq_next (by decide +kernel), by decide +kernel⟩, ⟨_, eq_next (by decide +kernel)⟩,
    _, eq_next (by decide +kernel)⟩
theorem test_witness_PhaseStepStaysInRange : referenceBuild.k.twoPi = 0x40C90FDB ∧ phaseInRange referenceBuild 0 = true ∧
    phaseInRange referenceBuild 0x40C90FDA = true ∧ inRange 0 0x3F800000 0 = true ∧
    inRange 0 0x3F800000 0x3F800000 = true := by decide +kernel
theorem test_witness_PhaseSumOfTwoPiWrapsToZero : isFinite referenceBuild.k.twoPi = true ∧
    fadd 0 0x40C90BDB 0x3A000000 = referenceBuild.k.twoPi := by decide +kernel
theorem test_witness_SineHasTheFourProperties : isFinite 0x7F7FFFFF = true ∧ isFinite 0x7F800000 = false ∧
    isFinite 0xFFFFFFFF = false := by decide +kernel
theorem test_witness_ModulationAmountBounds : referenceBuild.k = referenceConsts ∧ isFinite 0x3FC90FDB = true ∧
    isFinite 0x4096CBE4 = true ∧ inRange 0 0x43C00000 0 = true ∧ inRange 0 0x43C00000 0x43C00000 = true := by decide +kernel
theorem test_witness_ZeroDepthReadsTheSampleJustWritten : MachineInv { State.reset with depth := 0 } ∧
    ({ State.reset with depth := 0 } : State).build.k = referenceConsts ∧ isFinite State.reset.wowPhase = true ∧
    isFinite State.reset.fltPhase = true := by decide +kernel
/-- A newer sample of +∞; an older one of 1.0 and a newer one of 0; an older one of -0. -/
theorem test_witness_WeightZeroReadsTheOlderSample : referenceBuild.k.one = 0x3F800000 ∧
    isFinite (memRead (memWrite [] 2 0x7F800000) (slotOf 1 .left)) = false ∧
    (isNaN (memRead (memWrite [] 0 0x3F800000) (slotOf 0 .left)) = false ∧
      isFinite (memRead (memWrite [] 0 0x3F800000) (slotOf 1 .left)) = true) ∧
    memRead (memWrite [] 0 0x80000000) (slotOf 0 .left) = 0x80000000 ∧
      signOf (memRead (memWrite [] 0 0x80000000) (slotOf 1 .left)) = false := by decide +kernel
theorem test_witness_OnePoleFixedPointAndNaN : referenceBuild.k.alpha = 0x3E19999A ∧ isFinite 0x7F7FFFFF = true ∧
    isNaN 0x7FC00000 = true ∧ isInf 0xFF800000 = true ∧ isFinite 0x3F800000 = true := by decide +kernel
theorem test_witness_MixCornerCases : referenceBuild.k.one = 0x3F800000 ∧
    isFinite (fadd 0 0x7F800000 0) = false ∧ (isNaN 0x3E800000 = false ∧ isFinite (fadd 0 0x3F333333 0x3A83126F) = true) ∧
    (isFinite 0x80000000 = true ∧ isNaN (fadd 0 0xFF800000 0) = false) ∧ isFinite 0x7F800000 = false ∧
    isNaN 0x7FC00000 = true := by decide +kernel
/-- The reference build, and a build of one frame. -/
theorem test_witness_InContractProcessCompletesWithoutFault :
    (MachineInv State.reset ∧ State.reset.build.k = referenceConsts ∧ InContract State.reset ∧ ¬Faulted State.reset ∧
      356 ≤ State.reset.build.nFrames) ∧
      MachineInv { State.reset with build := { referenceBuild with nFrames := 1 } } ∧
      InContract { State.reset with build := { referenceBuild with nFrames := 1 } } := by decide +kernel

/-! ## Witnesses: invariants and the bus -/

theorem test_witness_StepKeepsMachineInvariant : MachineInv (events [acc 0 (.write 2)]) ∧
    ∃ t, step (events [acc 0 (.write 2)]) = .next t := ⟨by decide +kernel, _, eq_next (by decide +kernel)⟩
theorem test_witness_BoundDisciplineKeepsTheContract :
    let s : State := { events [acc 0 (.write 3)] with arg0 := 0x3F800000 }
    MachineInv s ∧ s.build.k = referenceConsts ∧ InContract s ∧ ¬Faulted s ∧ nextCommand s = some .setpRate ∧
      unitValue s.arg0 = true ∧ ∃ t, step s = .next t :=
  ⟨by decide +kernel, by decide +kernel, by decide +kernel, by decide, by decide +kernel, by decide +kernel, _,
    eq_next (by decide +kernel)⟩
theorem test_witness_StepRunsTheDecodedCommand :
    (events [acc 0 (.write 0x13)]).bus = .access ⟨.audio, 0, 4, .write 0x13⟩ :: [] ∧
      (0 : Nat) = blockBase (events [acc 0 (.write 0x13)]).build + regOffset .cmd := by decide
theorem test_witness_BusReadReturnsTheRegister :
    (events [acc 0x4C .read]).bus = .access ⟨.audio, blockBase State.reset.build + 0x4C, 4, .read⟩ :: [] ∧
      0x4C = regOffset .nframes ∧ 0 = regOffset .cmd ∧ (0x50 ≤ 0x50 ∧ 0x50 % 4 = 0) ∧ 0xFC ≤ 0xFC ∧ 0xFC % 4 = 0 := by decide
theorem test_witness_BusWriteReachesOnlyHostRegisters :
    (events [acc 0x08 (.write 7)]).bus = .access ⟨.audio, blockBase State.reset.build + 0x08, 4, .write 7⟩ :: [] ∧
      (0x08 = regOffset .arg0 ∧ regAccess .arg0 = .rw) ∧ (0x04 = regOffset .status ∧ regAccess .status = .roStar) ∧
      (0x4C = regOffset .nframes ∧ regAccess .nframes = .ro) ∧ (0x50 ≤ 0x50 ∧ 0x50 % 4 = 0) ∧ 0xFC ≤ 0xFC ∧ 0xFC % 4 = 0 := by
  decide
/-- A misaligned and a narrow write to `CMD`'s word, and the last byte of the window. -/
theorem test_witness_MisalignedOrNarrowAccessChangesNothing :
    (events [.access ⟨.audio, 2, 4, .write 2⟩]).bus = .access ⟨.audio, 2, 4, .write 2⟩ :: [] ∧
      (2 = blockBase State.reset.build + 2 ∧ 2 < 0x100 ∧ 2 % 4 ≠ 0) ∧ (0 = blockBase State.reset.build + 0 ∧ 1 ≠ 4) ∧
      0xFF < 0x100 ∧ 0xFF % 4 ≠ 0 := by decide
theorem test_witness_RegisterBytesAreLittleEndian : regAccess .arg0 = .rw ∧ regAccess .inR = .rw := by decide
theorem test_witness_CommandsAndHostWriteDifferentRegisters :
    (∃ t, exec .init State.reset = .next t) ∧ (∃ t, step (events [acc 0x10 (.write 7)]) = .next t) ∧
      nextCommand (events [acc 0x10 (.write 7)]) = none ∧ nextIsReset (events [acc 0x10 (.write 7)]) = false :=
  ⟨⟨_, rfl⟩, ⟨_, eq_next (by decide +kernel)⟩, by decide +kernel, by decide⟩
theorem test_witness_IdleCoreChangesNothing : State.reset.bus = [] := rfl
/-- Just above the window at base 0, and just below it at base 256. -/
theorem test_witness_AccessOutsideTheWindowStops :
    (events [acc 256 .read]).bus = .access ⟨.audio, 256, 4, .read⟩ :: [] ∧ blockBase State.reset.build + 256 ≤ 256 ∧
      255 < blockBase { referenceBuild with blockPage := 1 } := by decide

/-! ## Witnesses: the arithmetic -/

/-- The greatest finite value plus half its ulp overflows, plus the next word below that it does not; an exact zero and -0 + -0. -/
theorem test_witness_SumIsRoundedToNearestEven :
    (isFinite 0x7F7FFFFF = true ∧ isFinite 0x73000000 = true ∧ isInf (fadd 0 0x7F7FFFFF 0x73000000) = true) ∧
      (isFinite 0x72FFFFFF = true ∧ fadd 0 0x7F7FFFFF 0x72FFFFFF = 0x7F7FFFFF) ∧
      valueOf 0x3F800000 + valueOf 0xBF800000 = 0 ∧ valueOf 0x80000000 + valueOf 0x80000000 = 0 ∧
      valueOf 0x80000000 - valueOf 0 = 0 := by decide +kernel
/-- A tie to even at the smallest subnormal times 0.5, a product and a quotient that overflow, and divisors that are zeros. -/
theorem test_witness_ProductIsRoundedToNearestEven :
    (isFinite 0x00000001 = true ∧ isFinite 0x3F000000 = true ∧ fmul 0 0x00000001 0x3F000000 = 0) ∧
      isInf (fmul 0 0x7F7FFFFF 0x40000000) = true ∧ (isZero 0x3F000000 = false ∧ isInf (fdiv 0 0x7F7FFFFF 0x3F000000) = true) ∧
      (isZero 0x80000000 = true ∧ isZero 0x3F800000 = false ∧ isFinite 0x80000000 = true) ∧ isZero 0 = true := by
  decide +kernel
theorem test_witness_FractionalPartIsExact : (fle 0 0x80000000 = true ∧ flt 0x80000000 0x4B000000 = true) ∧
    fle 0 0x4AFFFFFF = true ∧ flt 0x4AFFFFFF 0x4B000000 = true := by decide +kernel

end Sys2Proof.Tests
end

section
/-! The arithmetic statements of spec/00_scope.md: the four properties of `SIN` (R22), correct rounding of the four operations
(R16, R17, R19), and the exact fractional part (R24 (c)). -/

namespace Sys2Proof.Machine

/-! ## Values, signs and magnitudes -/

theorem natAbs_valueOf (x : Word) : (valueOf x).natAbs = unitsOf x := by
  unfold valueOf; split <;> simp

/-- The sign bit of a word whose value is not 0 is the sign of the value. -/
theorem valueOf_neg_iff {x : Word} (h : valueOf x ≠ 0) : valueOf x < 0 ↔ signOf x = true := by
  unfold valueOf at *
  cases hs : signOf x <;> simp only [hs, if_true, if_false, Bool.false_eq_true] at * <;> simp
  omega

/-- The two signs together are the sign of the product of the values, where that is not 0. -/
theorem signs_eq_decide_mul_neg {a b : Word} (h : valueOf a * valueOf b ≠ 0) :
    (signOf a != signOf b) = decide (valueOf a * valueOf b < 0) := by
  obtain ⟨ha, hb⟩ := mul_ne_zero_iff.mp h
  have ha' := valueOf_neg_iff ha
  have hb' := valueOf_neg_iff hb
  rw [Bool.eq_iff_iff, bne_iff_ne, decide_eq_true_iff, mul_neg_iff, Ne, Bool.eq_iff_iff, ← ha', ← hb']
  omega

theorem unitsOf_pos {x : Word} (h : isZero x = false) : 0 < unitsOf x := by
  have hz : magOf x ≠ 0 := by simpa [isZero] using h
  exact Nat.pos_of_ne_zero (mt unitsOfMag_eq_zero.mp hz)

/-! ## `SIN` -/

theorem sine_of_isZero (b : Build) (k : Nat) {x : Word} (h : isZero x = true) : sine b k x = x := by
  have hx : isFinite x = true := by rw [isFinite_iff, (isZero_iff x).mp h]; decide
  simp [sine, not_isNaN_of_isFinite hx, not_isInf_of_isFinite hx, h]

theorem inRange_sine (b : Build) (k : Nat) {x : Word} (h : isFinite x = true) :
    inRange 0xBF800000 0x3F800000 (sine b k x) = true := by
  have hm := magOf_sine_le b k h
  rw [inRange_iff (by decide) (by decide)]
  exact ⟨not_isNaN_of_isFinite (isFinite_of_magOf_le hm (by decide)), orderKey_bounds_of_magOf hm⟩

theorem isNaN_sine (b : Build) (k : Nat) {x : Word} (h : isFinite x = false) : isNaN (sine b k x) = true := by
  have hx : (isNaN x || isInf x) = true := by
    rcases word_cases x with hn | hi | hf
    · rw [hn, Bool.true_or]
    · rw [hi, Bool.or_true]
    · rw [h] at hf; contradiction
  rw [sine, if_pos hx]
  exact isNaN_freeNaN k

/-- The draw only decides the NaN that a non-finite argument gives. -/
theorem sine_draw_irrelevant (b : Build) (k k' : Nat) {x : Word} (h : isFinite x = true) : sine b k' x = sine b k x := by
  have hx : ¬(isNaN x || isInf x) = true := by simp [not_isNaN_of_isFinite h, not_isInf_of_isFinite h]
  rw [sine, sine, if_neg hx, if_neg hx]

/-- Settles O39: each property is one of the lemmas above. -/
theorem sineHasTheFourProperties : Obligations.SineHasTheFourProperties := fun b k _ =>
  ⟨⟨sine_of_isZero b k (by decide), sine_of_isZero b k (by decide)⟩, inRange_sine b k, isNaN_sine b k,
    fun h k' => sine_draw_irrelevant b k k' h⟩

/-! ## Sums and differences -/

/-- The sum of finite operands rounds the exact sum, whose sign decides unless it is 0. -/
theorem roundedFrom_fadd (k : Nat) {a b : Word} (ha : isFinite a = true) (hb : isFinite b = true) :
    RoundedFrom (valueOf a + valueOf b) 1 (fadd k a b) := by
  rw [fadd_eq ha hb]
  split
  · next h0 =>
    rw [h0]
    simpa only [Int.natAbs_zero, roundMag_zero] using
      roundedFrom_packFloat (v := 0) (d := 1) (s := signOf a && signOf b) (by decide) (absurd rfl)
  · exact roundedFrom_packFloat (by decide) fun _ => rfl

theorem fadd_of_sum_zero (k : Nat) {a b : Word} (ha : isFinite a = true) (hb : isFinite b = true)
    (h : valueOf a + valueOf b = 0) : fadd k a b = if signOf a && signOf b then 0x80000000 else 0 := by
  rw [fadd_eq ha hb, if_pos h]
  cases signOf a && signOf b <;> rfl

/-- Settles O58: the statement on sums, and on differences as sums with the negated operand. -/
theorem sumIsRoundedToNearestEven : Obligations.SumIsRoundedToNearestEven := by
  intro k a b ha hb
  have hb' : isFinite (negate b) = true := by rwa [isFinite_negate]
  have hsub : valueOf a - valueOf b = valueOf a + valueOf (negate b) := by rw [valueOf_negate, Int.sub_eq_add_neg]
  rw [fsub_eq (not_isNaN_of_isFinite hb), hsub, ← signOf_negate]
  exact ⟨roundedFrom_fadd k ha hb, roundedFrom_fadd k ha hb', fadd_of_sum_zero k ha hb, fadd_of_sum_zero k ha hb'⟩

/-! ## Products and quotients -/

theorem roundedFrom_fmul (k : Nat) {a b : Word} (ha : isFinite a = true) (hb : isFinite b = true) :
    RoundedFrom (valueOf a * valueOf b) (2 ^ 149) (fmul k a b) := by
  have hu : unitsOf a * unitsOf b = (valueOf a * valueOf b).natAbs := by
    rw [Int.natAbs_mul, natAbs_valueOf, natAbs_valueOf]
  rw [fmul_eq ha hb, hu]
  exact roundedFrom_packFloat (by positivity) signs_eq_decide_mul_neg

theorem signOf_fmul (k : Nat) {a b : Word} (ha : isFinite a = true) (hb : isFinite b = true) :
    signOf (fmul k a b) = (signOf a != signOf b) := by
  rw [fmul_eq ha hb, signOf_packFloat (roundMag_lt _ _)]

/-- The numerator of the exact quotient `v / unitsOf b` of finite words, in units: the divisor's sign is moved to it. -/
def quotientNumerator (a b : Word) : Int := if signOf b then -(valueOf a * 2 ^ 149) else valueOf a * 2 ^ 149

theorem natAbs_quotientNumerator (a b : Word) : (quotientNumerator a b).natAbs = unitsOf a * 2 ^ 149 := by
  have h : (valueOf a * 2 ^ 149).natAbs = unitsOf a * 2 ^ 149 := by rw [Int.natAbs_mul, natAbs_valueOf]; rfl
  unfold quotientNumerator
  split
  · rw [Int.natAbs_neg, h]
  · exact h

/-- The two signs together are the sign of the exact quotient, where that is not 0. -/
theorem signs_eq_decide_quotientNumerator_neg {a b : Word} (h : quotientNumerator a b ≠ 0) :
    (signOf a != signOf b) = decide (quotientNumerator a b < 0) := by
  have hp : (0 : Int) < 2 ^ 149 := by positivity
  have ha : valueOf a ≠ 0 := fun h0 => h (by simp [quotientNumerator, h0])
  have hne : valueOf a * 2 ^ 149 ≠ 0 := mul_ne_zero ha hp.ne'
  have hneg : valueOf a * 2 ^ 149 < 0 ↔ signOf a = true := by
    rw [← valueOf_neg_iff ha, mul_neg_iff]; omega
  unfold quotientNumerator
  generalize valueOf a * 2 ^ 149 = v at hne hneg ⊢
  rw [Bool.eq_iff_iff, decide_eq_true_iff]
  cases signOf b with
  | false => simp [hneg]
  | true =>
    rw [if_pos rfl, bne_iff_ne, Ne, ← hneg]
    omega

theorem roundedFrom_fdiv (k : Nat) {a b : Word} (ha : isFinite a = true) (hb : isFinite b = true) (hz : isZero b = false) :
    RoundedFrom (quotientNumerator a b) (unitsOf b) (fdiv k a b) := by
  rw [fdiv_eq ha hb hz, ← natAbs_quotientNumerator a b]
  exact roundedFrom_packFloat (unitsOf_pos hz) signs_eq_decide_quotientNumerator_neg

/-- A finite word divided by a zero: a NaN for 0 / 0, an infinity otherwise (00_scope.md R16, R19). -/
theorem fdiv_by_zero (k : Nat) {a b : Word} (ha : isFinite a = true) (hz : isZero b = true) :
    fdiv k a b = if isZero a then freeNaN k else packFloat (signOf a != signOf b) infMag := by
  have hb : isFinite b = true := by rw [isFinite_iff, (isZero_iff b).mp hz]; decide
  simp [fdiv, not_isNaN_of_isFinite ha, not_isNaN_of_isFinite hb, not_isInf_of_isFinite ha, not_isInf_of_isFinite hb, hz]

theorem signOf_fdiv (k : Nat) {a b : Word} (ha : isFinite a = true) (hb : isFinite b = true)
    (h : isZero b = false ∨ isZero a = false) : signOf (fdiv k a b) = (signOf a != signOf b) := by
  cases hz : isZero b with
  | false => rw [fdiv_eq ha hb hz, signOf_packFloat (roundMag_lt _ _)]
  | true =>
    have haz : isZero a = false := h.resolve_left (by simp [hz])
    rw [fdiv_by_zero k ha hz, haz, if_neg Bool.false_ne_true, signOf_packFloat infMag_lt]

/-- Settles O59: the statements on products, on quotients by a divisor that is not 0, and on division by 0. -/
theorem productIsRoundedToNearestEven : Obligations.ProductIsRoundedToNearestEven := by
  intro k a b ha hb
  refine ⟨roundedFrom_fmul k ha hb, signOf_fmul k ha hb, roundedFrom_fdiv k ha hb, signOf_fdiv k ha hb, ?_, ?_⟩
  · intro hb0 ha0
    rw [fdiv_by_zero k ha hb0, ha0, if_neg Bool.false_ne_true, isInf_iff, magOf_packFloat infMag_lt]
  · intro hb0 ha0
    rw [fdiv_by_zero k ha hb0, if_pos ha0]
    exact isNaN_freeNaN k

/-! ## The fractional part -/

/-- Every magnitude holds a significand below 2^24 at a power of two. -/
theorem exists_significand (g : Nat) : ∃ e m, m < 2 ^ 24 ∧ unitsOfMag g = m * 2 ^ e := by
  by_cases h : g < 2 ^ 23
  · exact ⟨0, g, by omega, by rw [unitsOfMag_of_lt h, pow_zero, Nat.mul_one]⟩
  · exact ⟨g / 2 ^ 23 - 1, 2 ^ 23 + g % 2 ^ 23, by omega, by rw [unitsOfMag, if_neg h]⟩

/-- What a magnitude leaves above a multiple of 1 is representable: the low bits of its significand, at the same exponent. -/
theorem exists_unitsOfMag_eq_mod (g : Nat) : ∃ r, r ≤ infMag ∧ unitsOfMag r = unitsOfMag g % 2 ^ 149 := by
  obtain ⟨e, m, hm, hg⟩ := exists_significand g
  rw [hg]
  rcases Nat.le_total 149 e with he | he
  · refine ⟨0, Nat.zero_le _, ?_⟩
    have hdvd : 2 ^ 149 ∣ m * 2 ^ e := (pow_dvd_pow 2 he).mul_left m
    rw [unitsOfMag_zero, Nat.mod_eq_zero_of_dvd hdvd]
  · obtain ⟨r, hr, hlt⟩ := exists_unitsOfMag_eq e (m % 2 ^ (149 - e)) (Nat.lt_of_le_of_lt (Nat.mod_le _ _) hm)
    refine ⟨r, by unfold infMag; omega, ?_⟩
    rw [hr, ← Nat.mul_mod_mul_right, ← Nat.pow_add, Nat.sub_add_cancel he]

/-- A difference whose exact value is that of a word has that value. -/
theorem valueOf_fsub_exact {k : Nat} {a b c : Word} (ha : isFinite a = true) (hb : isFinite b = true) (hc : magOf c ≤ infMag)
    (h : valueOf a - valueOf b = valueOf c) : valueOf (fsub k a b) = valueOf c := by
  rw [valueOf_eq_iff, orderKey_fsub ha hb, h, orderKey_roundValue_valueOf hc]

/-- A word that is at least 0, -0 included, has its units as its value. -/
theorem valueOf_of_nonneg {x : Word} (h : fle 0 x = true) : valueOf x = unitsOf x := by
  obtain ⟨-, -, hk⟩ := (fle_iff _ _).mp h
  have hv : 0 ≤ valueOf x := (valueOf_le_iff 0 x).mpr hk
  rw [← natAbs_valueOf, Int.natAbs_of_nonneg hv]

theorem isFinite_of_bounds {x y : Word} (h0 : fle 0 x = true) (h1 : flt x y = true) : isFinite x = true := by
  obtain ⟨-, -, hk⟩ := (fle_iff _ _).mp h0
  obtain ⟨-, hy, hlt⟩ := (flt_iff _ _).mp h1
  rw [orderKey_zero] at hk
  have hx := orderKey_natAbs x
  have hy' := orderKey_natAbs y
  rw [isNaN_false_iff] at hy
  rw [isFinite_iff]
  omega

/-- The floor of a word in [0, 2^23) is below 2^23. -/
theorem floorNat_lt {x : Word} (h0 : fle 0 x = true) (h1 : flt x 0x4B000000 = true) : floorNat x < 2 ^ 23 := by
  obtain ⟨-, -, hlt⟩ := (flt_iff _ _).mp h1
  have hv := (valueOf_lt_iff _ _).mpr hlt
  rw [valueOf_of_nonneg h0, show valueOf 0x4B000000 = ((2 ^ 23 * 2 ^ 149 : Nat) : Int) by decide +kernel] at hv
  exact Nat.div_lt_of_lt_mul (by rw [Nat.mul_comm]; exact_mod_cast hv)

/-- A word at least 0 is its floor and a remainder below 1 (2^149 units). -/
theorem valueOf_sub_floorNat {x : Word} (h0 : fle 0 x = true) :
    valueOf x - (floorNat x : Int) * 2 ^ 149 = ((unitsOf x % 2 ^ 149 : Nat) : Int) := by
  have hdiv : unitsOf x / 2 ^ 149 * 2 ^ 149 + unitsOf x % 2 ^ 149 = unitsOf x := Nat.div_add_mod' _ _
  rw [valueOf_of_nonneg h0, floorNat, sub_eq_iff_eq_add, add_comm]
  exact_mod_cast hdiv.symm

/-- Settles O60: the remainder of the division by 2^149 units is a word's value, so the subtraction of the floor is exact. -/
theorem fractionalPartIsExact : Obligations.FractionalPartIsExact := by
  intro k x h0 h1
  have hn : floorNat x ≤ 2 ^ 24 := by have := floorNat_lt h0 h1; omega
  obtain ⟨r, hr, hu⟩ := exists_unitsOfMag_eq_mod (magOf x)
  have hlt : r < 2 ^ 31 := Nat.lt_of_le_of_lt hr infMag_lt
  have hfrac := valueOf_sub_floorNat h0
  have hword : valueOf (packFloat false r) = ((unitsOf x % 2 ^ 149 : Nat) : Int) := by
    rw [valueOf_packFloat hlt, if_neg Bool.false_ne_true, hu, unitsOf]
  have hexact : valueOf x - valueOf (nat2f (floorNat x)) = valueOf (packFloat false r) := by
    rw [valueOf_nat2f hn, hfrac, hword]
  have hsub := valueOf_fsub_exact (k := k) (isFinite_of_bounds h0 h1) (isFinite_nat2f hn)
    (by rwa [magOf_packFloat hlt]) hexact
  have hmod : unitsOf x % 2 ^ 149 < 2 ^ 149 := Nat.mod_lt _ (by positivity)
  rw [hfrac]
  exact ⟨hsub.trans hword, Int.natCast_nonneg _, by exact_mod_cast hmod⟩

end Sys2Proof.Machine
end

section
/-! The statements of spec/10_state.md: the machine's invariant (R33, R47, R48), who records a fault (R51), who writes which
register (R55), the reset table (R54), and the register map as the host sees it (R31). -/

namespace Sys2Proof.Machine

/-! ## The parts of the machine's invariant -/

theorem statusLegal_statusOfFault (c : RangeCause) : statusLegal (statusOfFault c) = true := by
  cases c <;> decide

theorem widxLegal_iff (b : Build) (w : Word) : widxLegal b w = true ↔ w.toNat % 2 = 0 ∧ w.toNat + 2 ≤ bufferLen b := by
  simp [widxLegal]

/-- The buffer holds at least one frame, and its slots are numbered within a word (00_scope.md R7). -/
theorem bufferLen_bounds {b : Build} (h : legalBuild b = true) : 2 ≤ bufferLen b ∧ bufferLen b ≤ 16777216 := by
  have hn := legalBuild_bounds h
  unfold bufferLen
  omega

theorem widxLegal_zero {b : Build} (h : legalBuild b = true) : widxLegal b 0 = true :=
  (widxLegal_iff b 0).mpr ⟨rfl, (bufferLen_bounds h).1⟩

/-- The advance of the write index keeps its invariant (10_state.md R47, 43_delay_buffer.md R193). -/
theorem widxLegal_advanceW {b : Build} {w : Word} (hb : legalBuild b = true) (hw : widxLegal b w = true) :
    widxLegal b (BitVec.ofNat 32 (advanceW b w.toNat)) = true := by
  obtain ⟨hmin, hmax⟩ := bufferLen_bounds hb
  obtain ⟨heven, -⟩ := (widxLegal_iff b w).mp hw
  have hlen : bufferLen b % 2 = 0 := Nat.mul_mod_right 2 b.nFrames
  have hadv : advanceW b w.toNat % 2 = 0 ∧ advanceW b w.toNat + 2 ≤ bufferLen b := by
    unfold advanceW
    split <;> omega
  have hword : advanceW b w.toNat < 2 ^ 32 := by omega
  rw [widxLegal_iff, BitVec.toNat_ofNat, Nat.mod_eq_of_lt hword]
  exact hadv

/-- A frame stores both input samples in the slots at the write index, and nothing else (43_delay_buffer.md R191). -/
theorem rightResult_buf (s : State) (tap : Tap) :
    (rightResult s tap).buf = memWrite (memWrite s.buf s.widx.toNat s.inL) (s.widx.toNat + 1) s.inR := rfl

/-! ## The machine's invariant is kept -/

/-- The invariant speaks of the build and the engine alone. -/
theorem machineInv_of_sameEngine {s t : State} (hs : MachineInv s) (hb : t.build = s.build) (he : SameEngine s t) :
    MachineInv t := by
  obtain ⟨hstatus, -, -, -, -, -, -, -, -, -, -, -, -, hwidx, hbuf⟩ := he
  rw [MachineInv, hb, hstatus, hwidx, hbuf]
  exact hs

theorem machineInv_initEngine {s : State} (hb : legalBuild s.build = true) : MachineInv (initEngine s) :=
  ⟨hb, rfl, widxLegal_zero hb, rfl, rfl⟩

theorem machineInv_recordRangeFault {s : State} (hs : MachineInv s) (c : RangeCause) : MachineInv (recordRangeFault c s) := by
  obtain ⟨hb, -, hw, hwf, hin⟩ := hs
  exact ⟨hb, statusLegal_statusOfFault c, hw, hwf, hin⟩

/-- A frame writes two slots below `L` and moves the write index on (43_delay_buffer.md R191, R193, R195). -/
theorem machineInv_finishFrame {s : State} (hs : MachineInv s) (tap : Tap) : MachineInv (finishFrame s tap) := by
  obtain ⟨hb, hstatus, hw, hwf, hin⟩ := hs
  obtain ⟨-, hlen⟩ := (widxLegal_iff _ _).mp hw
  refine ⟨hb, hstatus, widxLegal_advanceW hb hw, ?_, ?_⟩
  · rw [finishFrame_buf, rightResult_buf]
    exact memWrite_wf _ _ (memWrite_wf _ _ hwf)
  · rw [finishFrame_build, finishFrame_buf, rightResult_buf]
    exact memWrite_inside _ (by omega) (memWrite_inside _ (by omega) hin)

theorem machineInv_exec {i : Instr} {s t : State} (hs : MachineInv s) (h : exec i s = .next t) : MachineInv t := by
  rcases exec_cases h with rfl | ⟨-, rfl⟩ | ⟨-, rfl⟩ | ⟨-, rfl⟩ | ⟨-, rfl⟩ | ⟨-, hp⟩
  · exact hs
  · exact machineInv_initEngine hs.1
  -- the parameter commands write nothing the invariant speaks of
  · exact hs
  · exact hs
  · exact hs
  · rcases execProcess_cases hp with ⟨-, rfl⟩ | ⟨-, c, -, rfl⟩ | ⟨-, tap, -, -, rfl⟩
    · exact hs
    · exact machineInv_recordRangeFault hs c
    · exact machineInv_finishFrame hs tap

/-- Settles O46: a reset leaves INIT's engine, a command keeps the invariant, and any other event leaves the engine alone. -/
theorem stepKeepsMachineInvariant : Obligations.StepKeepsMachineInvariant := by
  intro s t hs h
  rcases step_kinds h with ⟨-, -, es, rfl⟩ | ⟨-, i, es, r, -, he⟩ | ⟨-, -, hsame, hb, -⟩
  · exact machineInv_initEngine (s := s.withBus es) hs.1
  · exact machineInv_exec (s := (s.withBus es).withReply r) hs he
  · exact machineInv_of_sameEngine hs hb hsame

/-! ## Who records a fault -/

theorem not_faulted_initEngine (s : State) : ¬Faulted (initEngine s) := by
  rw [Faulted, initEngine_status]
  decide

/-- A command that leaves a fault where none was is a PROCESS whose tap read raised it (10_state.md R51). -/
theorem exec_records_fault {i : Instr} {s t : State} (hs : ¬Faulted s) (h : exec i s = .next t) (ht : Faulted t) :
    i = .process ∧ ∃ c, frameTap s = .error c ∧ t.status = statusOfFault c := by
  rcases exec_cases h with rfl | ⟨-, rfl⟩ | ⟨-, rfl⟩ | ⟨-, rfl⟩ | ⟨-, rfl⟩ | ⟨hi, hp⟩
  · exact absurd ht hs
  · exact absurd ht (not_faulted_initEngine s)
  -- the parameter commands leave `STATUS` alone
  · exact absurd ht hs
  · exact absurd ht hs
  · exact absurd ht hs
  · rcases execProcess_cases hp with ⟨-, rfl⟩ | ⟨-, c, hc, rfl⟩ | ⟨-, tap, -, -, rfl⟩
    · exact absurd ht hs
    · exact ⟨hi, c, hc, rfl⟩
    · exact absurd ht hs

/-- Settles O24: of the kinds of step only a command can record a fault, and then `exec_records_fault` says which. -/
theorem onlyProcessRecordsAFault : Obligations.OnlyProcessRecordsAFault := by
  intro s t hs h ht
  rcases step_kinds h with ⟨-, -, es, rfl⟩ | ⟨-, i, es, r, hi, he⟩ | ⟨-, -, ⟨hstatus, -⟩, -, -⟩
  · exact absurd ht (not_faulted_initEngine (s.withBus es))
  · obtain ⟨rfl, hfault⟩ := exec_records_fault (s := (s.withBus es).withReply r) hs he ht
    exact ⟨hi, hfault⟩
  · rw [Faulted, hstatus] at ht
    exact absurd ht hs

/-! ## Who writes which register -/

/-- Settles O54: `exec_keeps_host_side` for the commands; a step that is no reset and no command leaves the engine alone. -/
theorem commandsAndHostWriteDifferentRegisters : Obligations.CommandsAndHostWriteDifferentRegisters := by
  refine ⟨fun i s t h => ?_, fun s t h hcmd hreset => ?_⟩
  · obtain ⟨-, -, -, hhost⟩ := exec_keeps_host_side h
    exact hhost
  · rcases step_kinds h with ⟨hr, -⟩ | ⟨-, i, -, -, hi, -⟩ | ⟨-, -, hsame, -⟩
    · rw [hreset] at hr
      contradiction
    · rw [hcmd] at hi
      contradiction
    · exact hsame

/-! ## The values of reset -/

/-- The wow increment of the default rate, with the default constants: 2π × 0.5 over 48000, no NaN draw used
(10_state.md R54). -/
theorem wowIncOf_default {b : Build} (hk : b.k = referenceConsts) (k : Nat) :
    wowIncOf b k referenceConsts.rateDef = 0x3889421F := by
  have hpi : fmul k referenceConsts.twoPi referenceConsts.rateDef = 0x40490FDB :=
    (fmul_draw_irrelevant (k' := 0) (by decide +kernel)).trans (by decide +kernel)
  rw [wowIncOf, hk, hpi]
  exact (fdiv_draw_irrelevant (k' := 0) (by decide +kernel)).trans (by decide +kernel)

/-- The flutter increment of the default rate, with the default constants: 2π × (0.5 × 12) over 48000, no NaN draw used
(10_state.md R54). -/
theorem fltIncOf_default {b : Build} (hk : b.k = referenceConsts) (k : Nat) :
    fltIncOf b k referenceConsts.rateDef = 0x3A4DE32E := by
  have hrate : fmul k referenceConsts.rateDef referenceConsts.fltRatio = 0x40C00000 :=
    (fmul_draw_irrelevant (k' := 0) (by decide +kernel)).trans (by decide +kernel)
  have hangle : fmul (k + 1) referenceConsts.twoPi 0x40C00000 = 0x4216CBE4 :=
    (fmul_draw_irrelevant (k' := 0) (by decide +kernel)).trans (by decide +kernel)
  rw [fltIncOf, hk, hrate, hangle]
  exact (fdiv_draw_irrelevant (k' := 0) (by decide +kernel)).trans (by decide +kernel)

/-- INIT of the reference build leaves the engine of the reset state (10_state.md R54). -/
theorem sameEngine_reset_initEngine {s : State} (hb : s.build = referenceBuild) : SameEngine State.reset (initEngine s) := by
  have hk : s.build.k = referenceConsts := by rw [hb]; rfl
  have hwow : (initEngine s).wowInc = 0x3889421F := by rw [initEngine_wowInc, hk, wowIncOf_default hk]
  have hflt : (initEngine s).fltInc = 0x3A4DE32E := by rw [initEngine_fltInc, hk, fltIncOf_default hk]
  have hseed : (initEngine s).seed = 0x00003039 := by rw [initEngine_seed, hb]; rfl
  refine ⟨rfl, rfl, rfl, ?_, hwow, hflt, ?_, ?_, rfl, rfl, rfl, rfl, hseed, rfl, rfl⟩
  · rw [initEngine_rate, hk]; rfl
  · rw [initEngine_depth, hk]; rfl
  · rw [initEngine_mix, hk]; rfl

/-- Settles O13: the reset column is read off `State.reset`, and INIT leaves the same engine. -/
theorem resetAndInitTableValues : Obligations.ResetAndInitTableValues := by
  refine ⟨⟨rfl, rfl, rfl, rfl, rfl, rfl, rfl, rfl, rfl, rfl, rfl, rfl, rfl, rfl, rfl, rfl, rfl, rfl, memRead_nil, rfl⟩,
    fun s hb => ⟨initEngine s, rfl, sameEngine_reset_initEngine hb, ⟨rfl, rfl, rfl, rfl⟩, ?_⟩⟩
  rw [readReg, initEngine_build, hb]
  rfl

/-- Settles O47: the increments of the default rate are the formulas' own, and the other parts are comparisons of constants. -/
theorem resetMeetsTheInvariants : Obligations.ResetMeetsTheInvariants := by
  have hinv : MachineInv State.reset := ⟨by decide, rfl, widxLegal_zero (by decide), reset_buf_wf, rfl⟩
  have hwow : State.reset.wowInc = wowIncOf referenceBuild 0 State.reset.rate := (wowIncOf_default rfl 0).symm
  have hflt : State.reset.fltInc = fltIncOf referenceBuild 0 State.reset.rate := (fltIncOf_default rfl 0).symm
  exact ⟨hinv, ⟨by decide, by decide, by decide, hwow, hflt, by decide, by decide⟩, by decide⟩

/-! ## The register map as the host sees it -/

theorem regOffset_aligned (r : Reg) : regOffset r < 256 ∧ regOffset r % 4 = 0 := by
  cases r <;> decide

/-- The register at an offset starts at that offset's word. -/
theorem regOffset_of_regAt {off : Nat} {r : Reg} (h : regAt off = some r) : regOffset r = 4 * (off / 4) := by
  unfold regAt at h
  split at h <;> simp only [Option.some.injEq, reduceCtorEq] at h
  all_goals subst h; simp only [regOffset]; omega

/-- The RW registers stand together, from `ARG0` to `IN_R` (10_state.md R31). -/
theorem regOffset_bounds_of_rw {r : Reg} (h : regAccess r = .rw) : 0x08 ≤ regOffset r ∧ regOffset r ≤ 0x14 := by
  cases r <;> simp_all [regAccess, regOffset]

/-- A register that no write reaches, at `STATUS` or above the RW registers (10_state.md R31). -/
theorem regOffset_of_readOnly {r : Reg} (h : regAccess r = .ro ∨ regAccess r = .roStar) :
    regOffset r = 0x04 ∨ 0x18 ≤ regOffset r ∧ regOffset r ≤ 0xFC ∧ regOffset r % 4 = 0 := by
  cases r <;> simp_all [regAccess, regOffset]

theorem writeReg_of_ne_rw {r : Reg} (h : regAccess r ≠ .rw) (w : Word) (s : State) : writeReg r w s = s := by
  cases r <;> simp_all [writeReg, regAccess]

theorem readReg_writeReg_self {r : Reg} (h : regAccess r = .rw) (w : Word) (s : State) : readReg r (writeReg r w s) = w := by
  cases r <;> simp_all [readReg, writeReg, regAccess]

theorem readReg_writeReg_of_ne {q r : Reg} (h : q ≠ r) (w : Word) (s : State) :
    readReg q (writeReg r w s) = readReg q s := by
  cases q <;> simp [readReg, h.symm]

theorem readReg_cmd (s : State) : readReg .cmd s = 0 := rfl

theorem readReg_withReply (r : Reg) (s : State) (p : BusReply) : readReg r (s.withReply p) = readReg r s := by
  cases r <;> rfl

theorem readReg_withBus (r : Reg) (s : State) (es : List HostEvent) : readReg r (s.withBus es) = readReg r s := by
  cases r <;> rfl

theorem readOffset_regOffset (r : Reg) (s : State) : readOffset (regOffset r) s = readReg r s := by
  rw [readOffset, regAt_regOffset]

theorem writeOffset_regOffset (r : Reg) (w : Word) (s : State) : writeOffset (regOffset r) w s = writeReg r w s := by
  rw [writeOffset, regAt_regOffset]

theorem readOffset_reserved {off : Nat} (h : 0x50 ≤ off) (s : State) : readOffset off s = 0 := by
  rw [readOffset, regAt_reserved h]

/-- Outside the RW registers' offsets a write stores nothing (20_memory.md R69, R70). -/
theorem writeOffset_outside_rw {off : Nat} (h : off < 0x08 ∨ 0x18 ≤ off) (w : Word) (s : State) :
    writeOffset off w s = s := by
  unfold writeOffset
  split
  · next r hr =>
    refine writeReg_of_ne_rw (fun hrw => ?_) w s
    have hoff := regOffset_of_regAt hr
    have hbounds := regOffset_bounds_of_rw hrw
    omega
  · rfl

/-! ## Aligned 32-bit accesses of the window -/

theorem step_access {s : State} {a : Access} {es : List HostEvent} (h : s.bus = .access a :: es) :
    step s = busAccess a (s.withBus es) := by
  rw [step, nextStep, h]
  rfl

theorem wellSized_aligned {b : Build} {c : Caller} {off : Nat} {k : AccessKind} (h : off % 4 = 0) :
    wellSized b { caller := c, addr := blockBase b + off, size := 4, kind := k } = true := by
  simp [wellSized, h]

/-- What the window does with an aligned access that passes the bus's range and size tests (20_memory.md R66). -/
def alignedAnswer (c : Caller) (off : Nat) (s : State) : AccessKind → Host.Outcome State Fault Refusal
  | .read => .next (s.withReply (.data c (readOffset off s)))
  | .write w =>
    if off = regOffset .cmd then exec (decodeWord w) (s.withReply (.written c))
    else .next ((writeOffset off w s).withReply (.written c))

section

variable {s : State} {c : Caller} {off : Nat} {es : List HostEvent}

theorem step_alignedAccess {k : AccessKind}
    (h : s.bus = .access { caller := c, addr := blockBase s.build + off, size := 4, kind := k } :: es)
    (hoff : off < 256) (h4 : off % 4 = 0) : step s = alignedAnswer c off (s.withBus es) k := by
  rw [step_access h, busAccess, withBus_build, if_pos (inWindow_add hoff), Nat.add_sub_cancel_left,
    if_pos (wellSized_aligned h4)]
  cases k <;> rfl

theorem step_alignedRead
    (h : s.bus = .access { caller := c, addr := blockBase s.build + off, size := 4, kind := .read } :: es)
    (hoff : off < 256) (h4 : off % 4 = 0) :
    step s = .next { s with bus := es, reply := .data c (readOffset off (s.withBus es)) } :=
  step_alignedAccess h hoff h4

/-- An aligned write elsewhere than at `CMD` (20_memory.md R66). -/
theorem step_alignedWrite {w : Word}
    (h : s.bus = .access { caller := c, addr := blockBase s.build + off, size := 4, kind := .write w } :: es)
    (hoff : off < 256) (h4 : off % 4 = 0) (hcmd : off ≠ 0) :
    step s = .next ((writeOffset off w (s.withBus es)).withReply (.written c)) :=
  (step_alignedAccess h hoff h4).trans (if_neg hcmd)

/-- An aligned write at `CMD` (20_memory.md R71). -/
theorem step_commandWrite {w : Word}
    (h : s.bus = .access { caller := c, addr := blockBase s.build + off, size := 4, kind := .write w } :: es)
    (hcmd : off = 0) : step s = exec (decodeWord w) { s with bus := es, reply := .written c } :=
  (step_alignedAccess h (by omega) (by omega)).trans (if_pos hcmd)

/-- A write outside the RW registers' offsets, and not at `CMD`, is answered and stores nothing (20_memory.md R69, R70). -/
theorem step_writeWithoutEffect {w : Word}
    (h : s.bus = .access { caller := c, addr := blockBase s.build + off, size := 4, kind := .write w } :: es)
    (hoff : off < 256) (h4 : off % 4 = 0) (hcmd : off ≠ 0) (hro : off < 0x08 ∨ 0x18 ≤ off) :
    step s = .next { s with bus := es, reply := .written c } := by
  rw [step_alignedWrite h hoff h4 hcmd, writeOffset_outside_rw hro]
  rfl

end

/-- The registers in the order of R31's table. -/
def tableRegs : List Reg :=
  [.cmd, .status, .arg0, .arg1, .inL, .inR, .outL, .outR, .rate, .wowInc, .fltInc, .depth, .mix, .wowPhase, .fltPhase,
    .lpL, .lpR, .seed, .widx, .nframes]

/-- Settles O50: the bus answers the register at the offset, and R31's table is the registers' offsets and values in order. -/
theorem busReadReturnsTheRegister : Obligations.BusReadReturnsTheRegister := by
  intro s c off es h
  have hreg : ∀ r, off = regOffset r → step s = .next { s with bus := es, reply := .data c (readReg r s) } := by
    intro r hr
    obtain ⟨hlt, h4⟩ := regOffset_aligned r
    rw [step_alignedRead h (by omega) (by omega), hr, readOffset_regOffset, readReg_withBus]
  refine ⟨fun r hr => ?_, fun h50 hFC h4 => ?_, ?_⟩
  · rw [hreg r hr]
    split
    · next hcmd => rw [hcmd, readReg_cmd]
    · rfl
  · rw [step_alignedRead h (by omega) h4, readOffset_reserved h50]
  · change ∀ e ∈ tableRegs.map fun r => (regOffset r, readReg r s), _
    intro e he hoff
    obtain ⟨r, -, rfl⟩ := List.mem_map.mp he
    exact hreg r hoff

/-- Settles O51: a write reaches `writeReg` at an RW register's offset, the decoder at `CMD`, and nothing anywhere else. -/
theorem busWriteReachesOnlyHostRegisters : Obligations.BusWriteReachesOnlyHostRegisters := by
  refine ⟨by decide, fun s c off w es h => ?_⟩
  have hrw : ∀ r, off = regOffset r → regAccess r = .rw →
      step s = .next ((writeReg r w (s.withBus es)).withReply (.written c)) := by
    intro r hr hacc
    have haligned := regOffset_aligned r
    have hbounds := regOffset_bounds_of_rw hacc
    rw [step_alignedWrite h (by omega) (by omega) (by omega), hr, writeOffset_regOffset]
  have hnone : off = 0x04 ∨ 0x18 ≤ off ∧ off ≤ 0xFC ∧ off % 4 = 0 →
      step s = .next { s with bus := es, reply := .written c } := fun ho =>
    step_writeWithoutEffect h (by omega) (by omega) (by omega) (by omega)
  refine ⟨fun r hr hacc => ⟨_, hrw r hr hacc, ?_, fun q hq => ?_, ?_⟩, fun r hr hacc => hnone ?_,
    fun h50 hFC h4 => hnone (.inr ⟨by omega, hFC, h4⟩), step_commandWrite h, fun ho => hrw .arg0 ho rfl,
    fun ho => hrw .arg1 ho rfl, fun ho => hrw .inL ho rfl, fun ho => hrw .inR ho rfl, hnone⟩
  · rw [readReg_withReply, readReg_writeReg_self hacc]
  · rw [readReg_withReply, readReg_writeReg_of_ne hq, readReg_withBus]
  · rw [withReply_buf, writeReg_buf, withBus_buf]
  · rw [hr]
    exact regOffset_of_readOnly hacc

end Sys2Proof.Machine
end

section
/-! The statements of spec/20_memory.md: the command a `CMD` write runs (R66, R74), the accesses the bus answers without a
register (R68) or not at all (R63), the order of a register's bytes (R64), and the idle CORE (R73). -/

namespace Sys2Proof.Machine

/-! ## Where an access lies -/

theorem inWindow_iff (b : Build) (addr : Nat) :
    inWindow b addr = true ↔ blockBase b ≤ addr ∧ addr < blockBase b + 256 := by
  rw [inWindow, Bool.and_eq_true, decide_eq_true_iff, decide_eq_true_iff, windowSize]

theorem wellSized_iff (b : Build) (a : Access) :
    wellSized b a = true ↔ (a.addr - blockBase b) % 4 = 0 ∧ a.size = 4 := by
  simp [wellSized]

/-! ## Steps that reach no register -/

/-- Settles O55: the first arm of `nextStep`. -/
theorem idleCoreChangesNothing : Obligations.IdleCoreChangesNothing := by
  intro s h
  rw [step, nextStep, h]

/-- Settles O56: the event is a bus access, and the window test fails on both sides of the window. -/
theorem accessOutsideTheWindowStops : Obligations.AccessOutsideTheWindowStops := by
  intro s a es h hout
  have hwindow : ¬inWindow s.build a.addr = true := by
    rw [inWindow_iff]
    omega
  rw [step_access h, busAccess, withBus_build, if_neg hwindow]

/-- Settles O52: the access lies in the window and fails the alignment and size test, so only the reply is written. -/
theorem misalignedOrNarrowAccessChangesNothing : Obligations.MisalignedOrNarrowAccessChangesNothing := by
  intro s a es off h haddr hoff hbad
  have hwindow : inWindow s.build a.addr = true := by
    rw [haddr]
    exact inWindow_add hoff
  have hsub : a.addr - blockBase s.build = off := by omega
  have hsized : ¬wellSized s.build a = true := by
    rw [wellSized_iff, hsub]
    omega
  rw [step_access h, busAccess, withBus_build, if_pos hwindow, hsub, if_neg hsized]
  rfl

/-! ## The command a `CMD` write runs -/

/-- A 32-bit word placed as the next fetch is the next `CMD` write (assumption 1). -/
theorem withFetchWord_toNat (s : State) (w : Word) : s.withFetchWord 32 w.toNat = queueCommand s w := by
  rw [State.withFetchWord, Nat.mod_eq_of_lt w.isLt, BitVec.ofNat_toNat, BitVec.setWidth_eq]

/-- Settles O49: `step_commandWrite`, for the access at hand and for the one that `queueCommand` places. -/
theorem stepRunsTheDecodedCommand : Obligations.StepRunsTheDecodedCommand := by
  refine ⟨?_, fun s w => ?_⟩
  · rintro s ⟨c, addr, size, kind⟩ w es h rfl rfl rfl
    exact step_commandWrite h rfl
  · rw [withFetchWord_toNat]
    exact step_commandWrite (s := queueCommand s w) rfl rfl

/-! ## The bytes of a register -/

theorem regAt_congr {m n : Nat} (h : m / 4 = n / 4) : regAt m = regAt n := by
  rw [regAt, regAt, h]

/-- A register's four bytes belong to it (20_memory.md R63, R64). -/
theorem regAt_regOffset_add (r : Reg) {j : Nat} (hj : j < 4) : regAt (regOffset r + j) = some r := by
  obtain ⟨-, h4⟩ := regOffset_aligned r
  rw [regAt_congr (n := regOffset r) (by omega), regAt_regOffset]

/-- The window shows byte `j` of a register's word `j` addresses above the register's own (20_memory.md R64). -/
theorem windowByte_register (s : State) (r : Reg) {j : Nat} (hj : j < 4) :
    windowByte (blockBase s.build + regOffset r + j) s = wordByte (readReg r s) j := by
  obtain ⟨-, h4⟩ := regOffset_aligned r
  have hsub : blockBase s.build + regOffset r + j - blockBase s.build = regOffset r + j := by omega
  have hmod : (regOffset r + j) % 4 = j := by omega
  rw [windowByte, hsub, hmod, readOffset, regAt_regOffset_add r hj]

/-- Settles O53: the RW register reads as the written word, of which the window shows the four bytes in order. -/
theorem registerBytesAreLittleEndian : Obligations.RegisterBytesAreLittleEndian := by
  intro s r w hrw t a
  have hbyte : ∀ j < 4, windowByte (a + j) t = wordByte w j := by
    intro j hj
    have hreg := windowByte_register t r hj
    rwa [writeReg_build, readReg_writeReg_self hrw] at hreg
  exact ⟨hbyte 0 (by decide), hbyte 1 (by decide), hbyte 2 (by decide), hbyte 3 (by decide)⟩

end Sys2Proof.Machine
end

section
/-! The statements of spec/30_encoding.md: the decoder and the canonical words (R90 to R99), the opcode table (R94), the words
that change nothing (R92, R95), the completion of every command (R96), and the accesses of script lines (R100 to R102). -/

namespace Sys2Proof.Machine

/-! ## The fields of a command word -/

theorem opField_toNat (w : Word) : (opField w).toNat = w.toNat % 16 := by
  rw [opField, BitVec.extractLsb'_toNat, Nat.shiftRight_zero]

theorem idxField_toNat (w : Word) : (idxField w).toNat = w.toNat / 16 % 16 := by
  rw [idxField, BitVec.extractLsb'_toNat, Nat.shiftRight_eq_div_pow]

/-- The bits that decide which command a word is: `OP`, and `IDX` under `OP` 3; the others are ignored (30_encoding.md R93). -/
def selectorBits (w : Word) : Word := if w.toNat % 16 = 3 then 0xFF else 0x0F

theorem toNat_and_selectorBits (w : Word) :
    (w &&& selectorBits w).toNat = if w.toNat % 16 = 3 then w.toNat % 256 else w.toNat % 16 := by
  unfold selectorBits
  split
  · exact (BitVec.toNat_and w 0xFF).trans (Nat.and_two_pow_sub_one_eq_mod w.toNat 8)
  · exact (BitVec.toNat_and w 0x0F).trans (Nat.and_two_pow_sub_one_eq_mod w.toNat 4)

/-- The word with its ignored bits cleared has the same selector bits. -/
theorem selectorBits_and_self (w : Word) : selectorBits (w &&& selectorBits w) = selectorBits w := by
  have hop : (w &&& selectorBits w).toNat % 16 = w.toNat % 16 := by
    rw [toNat_and_selectorBits]
    split <;> omega
  rw [selectorBits, hop, selectorBits]

/-! ## What the decoder answers -/

/-- The command that an `IDX` selects, row by row, the unknown indices first (30_encoding.md R92). -/
theorem decodeSetp_cases (idx : BitVec 4) :
    ((4 ≤ idx.toNat ∧ idx.toNat ≤ 7) ∧ decodeSetp idx = .setpIgn4 idx) ∨
      (8 ≤ idx.toNat ∧ decodeSetp idx = .setpIgn8 idx) ∨ (idx = 3 ∧ decodeSetp idx = .setpIgn3) ∨
      (idx = 0 ∧ decodeSetp idx = .setpRate) ∨ (idx = 1 ∧ decodeSetp idx = .setpDepth) ∨
      (idx = 2 ∧ decodeSetp idx = .setpMix) := by
  decide +revert

/-- The command that an `OP` selects, row by row, the rows with a selector operand first (30_encoding.md R91, R94). -/
theorem decodeWord_cases (w : Word) :
    (w.toNat % 16 = 3 ∧ decodeWord w = decodeSetp (idxField w)) ∨
      ((6 ≤ w.toNat % 16 ∧ w.toNat % 16 ≤ 7) ∧ decodeWord w = .rsvd6 (opField w)) ∨
      (8 ≤ w.toNat % 16 ∧ decodeWord w = .rsvd8 (opField w)) ∨ (w.toNat % 16 = 0 ∧ decodeWord w = .nop) ∨
      (w.toNat % 16 = 1 ∧ decodeWord w = .init) ∨ (w.toNat % 16 = 2 ∧ decodeWord w = .process) ∨
      (w.toNat % 16 = 4 ∧ decodeWord w = .suspend) ∨ (w.toNat % 16 = 5 ∧ decodeWord w = .resume) := by
  rw [← opField_toNat, decodeWord]
  generalize opField w = op
  generalize decodeSetp (idxField w) = setp
  split
  case h_7 =>
    simp only [imp_false] at *
    split <;> simp <;> omega
  all_goals simp [*]

theorem decodeWord_setp {w : Word} (h : w.toNat % 16 = 3) : decodeWord w = decodeSetp (idxField w) := by
  simp only [decodeWord, opField_toNat, h]

theorem decodeWord_reserved {w : Word} (h : 6 ≤ w.toNat % 16) :
    decodeWord w = if w.toNat % 16 < 8 then .rsvd6 (opField w) else .rsvd8 (opField w) := by
  rw [← opField_toNat] at h ⊢
  unfold decodeWord
  generalize opField w = op at *
  split
  case h_7 => rfl
  all_goals omega

theorem decodeSetp_ignored {idx : BitVec 4} (h : 4 ≤ idx.toNat) :
    decodeSetp idx = if idx.toNat < 8 then .setpIgn4 idx else .setpIgn8 idx := by
  unfold decodeSetp
  split
  case h_5 => rfl
  all_goals omega

/-- The decoder looks at the selector bits alone (30_encoding.md R93). -/
theorem decodeWord_congr {w v : Word} (hop : w.toNat % 16 = v.toNat % 16)
    (hidx : w.toNat % 16 = 3 → w.toNat % 256 = v.toNat % 256) : decodeWord w = decodeWord v := by
  have hfield : opField w = opField v := by
    apply BitVec.eq_of_toNat_eq
    rw [opField_toNat, opField_toNat, hop]
  by_cases h3 : w.toNat % 16 = 3
  · have hbyte := hidx h3
    have hsetp : idxField w = idxField v := by
      apply BitVec.eq_of_toNat_eq
      rw [idxField_toNat, idxField_toNat]
      omega
    rw [decodeWord_setp h3, decodeWord_setp (hop ▸ h3), hsetp]
  · unfold decodeWord
    rw [← hfield]
    split
    case h_4 h => rw [opField_toNat] at h; contradiction
    all_goals rfl

/-- Settles O4: the decoder looks at the selector bits alone. -/
theorem ignoredBitsSelectTheSameCommand : Obligations.IgnoredBitsSelectTheSameCommand := by
  intro w v s hop hidx
  have hsame := decodeWord_congr hop hidx
  exact ⟨hsame, by rw [hsame]⟩

theorem decodeSetp_wellFormed (idx : BitVec 4) : (decodeSetp idx).wellFormed = true := by
  rcases decodeSetp_cases idx with ⟨hidx, h⟩ | ⟨hidx, h⟩ | ⟨-, h⟩ | ⟨-, h⟩ | ⟨-, h⟩ | ⟨-, h⟩ <;> rw [h]
  · exact decide_eq_true hidx
  · exact decide_eq_true hidx
  all_goals rfl

theorem decodeWord_wellFormed (w : Word) : (decodeWord w).wellFormed = true := by
  rcases decodeWord_cases w with ⟨-, h⟩ | ⟨hop, h⟩ | ⟨hop, h⟩ | ⟨-, h⟩ | ⟨-, h⟩ | ⟨-, h⟩ | ⟨-, h⟩ | ⟨-, h⟩ <;> rw [h]
  · exact decodeSetp_wellFormed _
  · exact decide_eq_true (by rwa [opField_toNat])
  · exact decide_eq_true (by rwa [opField_toNat])
  all_goals rfl

/-! ## Canonical words -/

/-- The canonical word of the SETP of an index (30_encoding.md R99). -/
theorem encode_decodeSetp (idx : BitVec 4) : encode (decodeSetp idx) = BitVec.ofNat 32 (3 + 16 * idx.toNat) := by
  rcases decodeSetp_cases idx with ⟨-, h⟩ | ⟨-, h⟩ | ⟨rfl, h⟩ | ⟨rfl, h⟩ | ⟨rfl, h⟩ | ⟨rfl, h⟩ <;> rw [h] <;> rfl

/-- The canonical word of a word's command is the word with every ignored bit cleared (30_encoding.md R99). -/
theorem encode_decodeWord (w : Word) : encode (decodeWord w) = w &&& selectorBits w := by
  apply BitVec.eq_of_toNat_eq
  rw [toNat_and_selectorBits]
  rcases decodeWord_cases w with ⟨hop, h⟩ | ⟨hop, h⟩ | ⟨hop, h⟩ | ⟨hop, h⟩ | ⟨hop, h⟩ | ⟨hop, h⟩ | ⟨hop, h⟩ | ⟨hop, h⟩ <;>
    rw [h]
  · rw [encode_decodeSetp, idxField_toNat, BitVec.toNat_ofNat, if_pos hop]
    omega
  · rw [encode, opField_toNat, BitVec.toNat_ofNat, if_neg (by omega)]
    omega
  · rw [encode, opField_toNat, BitVec.toNat_ofNat, if_neg (by omega)]
    omega
  all_goals rw [hop]; rfl

theorem decodeWord_setpWord (idx : BitVec 4) : decodeWord (BitVec.ofNat 32 (3 + 16 * idx.toNat)) = decodeSetp idx := by
  have hlt := idx.isLt
  have hw : (BitVec.ofNat 32 (3 + 16 * idx.toNat)).toNat = 3 + 16 * idx.toNat := by
    rw [BitVec.toNat_ofNat]
    omega
  have hidx : idxField (BitVec.ofNat 32 (3 + 16 * idx.toNat)) = idx := by
    apply BitVec.eq_of_toNat_eq
    rw [idxField_toNat, hw]
    omega
  rw [decodeWord_setp (by omega), hidx]

theorem decodeWord_reservedWord {op : BitVec 4} (h : 6 ≤ op.toNat) :
    decodeWord (BitVec.ofNat 32 op.toNat) = if op.toNat < 8 then .rsvd6 op else .rsvd8 op := by
  have hlt := op.isLt
  have hw : (BitVec.ofNat 32 op.toNat).toNat % 16 = op.toNat := by
    rw [BitVec.toNat_ofNat]
    omega
  have hop : opField (BitVec.ofNat 32 op.toNat) = op := by
    apply BitVec.eq_of_toNat_eq
    rw [opField_toNat, hw]
  rw [decodeWord_reserved (by omega), hw, hop]

/-- Decoding inverts encoding, constructor by constructor; a selector operand lies in its constructor's row. -/
theorem decodeWord_encode {i : Instr} (hi : i.wellFormed = true) : decodeWord (encode i) = i := by
  cases i with
  | setpIgn4 idx =>
    have hidx : 4 ≤ idx.toNat ∧ idx.toNat ≤ 7 := of_decide_eq_true hi
    rw [encode, decodeWord_setpWord, decodeSetp_ignored (by omega), if_pos (by omega)]
  | setpIgn8 idx =>
    have hidx : 8 ≤ idx.toNat := of_decide_eq_true hi
    rw [encode, decodeWord_setpWord, decodeSetp_ignored (by omega), if_neg (by omega)]
  | rsvd6 op =>
    have hop : 6 ≤ op.toNat ∧ op.toNat ≤ 7 := of_decide_eq_true hi
    rw [encode, decodeWord_reservedWord (by omega), if_pos (by omega)]
  | rsvd8 op =>
    have hop : 8 ≤ op.toNat := of_decide_eq_true hi
    rw [encode, decodeWord_reservedWord (by omega), if_neg (by omega)]
  | _ => rfl

/-- The bytes of a word, lowest address first, are decoded as that word (20_memory.md R64). -/
theorem decode_wordBytes_append (w : Word) (rest : List Byte) : decode (wordBytes w ++ rest) = .ok (decodeWord w, rest) := by
  change Except.ok (decodeWord (joinBytes (wordByte w 0) (wordByte w 1) (wordByte w 2) (wordByte w 3)), rest) = _
  rw [joinBytes_wordByte]

/-- Settles O1: the decoder inverts the encoder on words, and a word is the join of its bytes. -/
theorem decodeEncodeRoundTrip : Obligations.DecodeEncodeRoundTrip := by
  intro i rest hi
  refine ⟨decodeWord_encode hi, ?_⟩
  rw [encodeBytes, decode_wordBytes_append, decodeWord_encode hi]

/-- Settles O5: the fixed words are the encoder's own; a reserved `OP` is its own canonical word. -/
theorem canonicalCommandWords : Obligations.CanonicalCommandWords := by
  refine ⟨rfl, rfl, rfl, rfl, rfl, rfl, rfl, rfl, fun n _ => encode_decodeSetp n, fun k hk => ?_⟩
  rw [decodeWord_reservedWord hk]
  split <;> rfl

/-- Settles O6: the model decodes the bytes written out. -/
theorem sampleCommandBytesDecode : Obligations.SampleCommandBytesDecode :=
  ⟨rfl, rfl, rfl, rfl, rfl, rfl⟩

/-! ## Commands that change nothing -/

/-- A word with a reserved `OP` completes and changes nothing (30_encoding.md R95). -/
theorem exec_decodeWord_reserved {w : Word} (h : 6 ≤ w.toNat % 16) (s : State) : exec (decodeWord w) s = .next s := by
  rw [decodeWord_reserved h]
  split <;> rfl

/-- The SETP of an unknown index completes and changes nothing (30_encoding.md R92). -/
theorem exec_decodeSetp_unknown {idx : BitVec 4} (h : 3 ≤ idx.toNat) (s : State) : exec (decodeSetp idx) s = .next s := by
  rcases decodeSetp_cases idx with ⟨-, hi⟩ | ⟨-, hi⟩ | ⟨-, hi⟩ | ⟨rfl, -⟩ | ⟨rfl, -⟩ | ⟨rfl, -⟩
  · rw [hi]; rfl
  · rw [hi]; rfl
  · rw [hi]; rfl
  all_goals contradiction

/-- Settles O3: the three parameters are the decoder's own rows, and every other index is unknown. -/
theorem setpIndexSelectsTheParameter : Obligations.SetpIndexSelectsTheParameter :=
  ⟨rfl, rfl, rfl, fun _ s h => exec_decodeSetp_unknown h s⟩

/-- Settles O8: a reserved `OP` changes nothing, as NOP does. -/
theorem reservedOpcodesRunAsNop : Obligations.ReservedOpcodesRunAsNop := fun _ s h =>
  ⟨exec_decodeWord_reserved h s, exec_decodeWord_reserved h s⟩

/-! ## The opcode table -/

theorem covers_iff (r : OpcodeRow) (w : Word) : r.covers w = true ↔ w &&& r.mask = r.pattern := beq_iff_eq

theorem tableRow_lt (i : Instr) : i.tableRow < opcodeTable.length := by
  cases i <;> rw [Instr.tableRow] <;> decide

/-- The row of opcode_table.json that a constructor stands for. -/
def rowOf (i : Instr) : OpcodeRow := opcodeTable[i.tableRow]'(tableRow_lt i)

/-- A command's row looks at selector bits only, and has the command's canonical word. -/
theorem rowOf_mask_and_canonical {i : Instr} (hi : i.wellFormed = true) :
    selectorBits (encode i) &&& (rowOf i).mask = (rowOf i).mask ∧ (rowOf i).covers (encode i) = true := by
  cases i with
  | setpIgn4 idx => decide +revert
  | setpIgn8 idx => decide +revert
  | rsvd6 op => decide +revert
  | rsvd8 op => decide +revert
  | _ => decide

/-- A word lies in the row of its own command: it differs from that command's canonical word in ignored bits only. -/
theorem rowOf_decodeWord_covers (w : Word) : (rowOf (decodeWord w)).covers w = true := by
  obtain ⟨hmask, hcovers⟩ := rowOf_mask_and_canonical (decodeWord_wellFormed w)
  rw [encode_decodeWord, selectorBits_and_self] at hmask
  rwa [covers_iff, encode_decodeWord, BitVec.and_assoc, hmask, ← covers_iff] at hcovers

/-- The patterns of two rows that cover one word agree in the bits that both rows look at. -/
theorem pattern_and_mask_of_covers {r q : OpcodeRow} {w : Word} (hr : r.covers w = true) (hq : q.covers w = true) :
    r.pattern &&& q.mask = q.pattern &&& r.mask := by
  rw [← (covers_iff r w).mp hr, ← (covers_iff q w).mp hq, BitVec.and_assoc, BitVec.and_assoc, BitVec.and_comm r.mask]

/-- Two rows of the table differ in a bit that both look at. -/
theorem opcodeTable_disjoint : ∀ j k : Fin opcodeTable.length,
    opcodeTable[j].pattern &&& opcodeTable[k].mask = opcodeTable[k].pattern &&& opcodeTable[j].mask → j = k := by
  decide

theorem covers_iff_tableRow (w : Word) {j : Nat} (h : j < opcodeTable.length) :
    opcodeTable[j].covers w = true ↔ j = (decodeWord w).tableRow := by
  constructor
  · intro hj
    have hagree := pattern_and_mask_of_covers hj (rowOf_decodeWord_covers w)
    exact congrArg Fin.val (opcodeTable_disjoint ⟨j, h⟩ ⟨_, tableRow_lt (decodeWord w)⟩ hagree)
  · rintro rfl
    exact rowOf_decodeWord_covers w

/-- Settles O2: the decoder's answer by `OP`, and the row of the decoded command covers the word while no other row does. -/
theorem everyWordSelectsExactlyOneRow : Obligations.EveryWordSelectsExactlyOneRow := by
  intro w
  have hidx : idxField w = BitVec.ofNat 4 (w.toNat / 16 % 16) := by
    rw [← idxField_toNat, BitVec.ofNat_toNat, BitVec.setWidth_eq]
  refine ⟨fun h => ?_, fun h => ?_, fun h => ?_, fun h => ?_, fun h => ?_, fun h => ?_, exec_decodeWord_reserved,
    decodeWord_wellFormed w, fun j => covers_iff_tableRow w⟩
  case refine_4 => rw [decodeWord_setp h, hidx]
  all_goals simp only [decodeWord, opField_toNat, h]

/-! ## Every command completes -/

/-- In a legal build whose `K.HALF` is 0.5, a tap that the frame reads names buffer frames that exist (00_scope.md R13,
45_interpolator.md R235). -/
theorem frameSlotsExist_of_frameTap {s : State} {t : Tap} (hs : MachineInv s) (hhalf : s.build.k.half = 0x3F000000)
    (h : frameTap s = .ok t) : frameSlotsExist s.build s.widx.toNat t = true := by
  obtain ⟨hbuild, -, hwidx, -, -⟩ := hs
  obtain ⟨r, -, hnan, hnonneg, hhigh, rfl⟩ := readTap_ok h
  exact frameSlotsExist_of_lt hwidx (tapAt_frames_lt _ hbuild hhalf hnan hnonneg hhigh)

/-- PROCESS is ignored, records the fault its tap read raises, or finishes the frame. -/
theorem execProcess_completes {s : State} (hs : MachineInv s) (hhalf : s.build.k.half = 0x3F000000) :
    ∃ t, execProcess s = .next t := by
  unfold execProcess
  split
  · exact ⟨s, rfl⟩
  · split
    next c hc => exact ⟨recordRangeFault c s, rfl⟩
    next tap htap => exact ⟨finishFrame s tap, if_pos (frameSlotsExist_of_frameTap hs hhalf htap)⟩

/-- Settles O9: only PROCESS can stop, and its slots exist. -/
theorem everyCommandWordCompletes : Obligations.EveryCommandWordCompletes := by
  intro w s hs hhalf
  cases decodeWord w with
  | process => exact execProcess_completes hs hhalf
  | _ => exact ⟨_, rfl⟩

/-! ## Script lines -/

theorem scriptAccesses_again_zero (b : Build) (c : Caller) (p q : Script) :
    scriptAccesses b c (.again 0 p q) = scriptAccesses b c q := rfl

theorem scriptAccesses_again_succ (b : Build) (c : Caller) (n : Nat) (p q : Script) :
    scriptAccesses b c (.again (n + 1) p q) = scriptAccesses b c p ++ scriptAccesses b c (.again n p q) := by
  simp only [scriptAccesses, List.replicate_succ, List.flatten_cons, List.append_assoc]

/-- `SETPARAM n, x` writes `ARG0` and then the canonical word of the SETP of `n` (30_encoding.md R101). -/
theorem lineAccesses_setParam (b : Build) (c : Caller) (n : BitVec 4) (x : Word) :
    lineAccesses b c (.setParam n x) =
      [regAccessBy b c .arg0 (.write x), regAccessBy b c .cmd (.write (BitVec.ofNat 32 (3 + 16 * n.toNat)))] := by
  rw [lineAccesses, encode_decodeSetp]

/-- Settles O57: a line's accesses are read off `lineAccesses`; SETPARAM's word and REPEAT's unrolling are the lemmas above. -/
theorem scriptLinesExpandToAccesses : Obligations.ScriptLinesExpandToAccesses := fun b c =>
  ⟨fun _ _ => ⟨rfl, rfl, rfl⟩, fun _ _ => ⟨rfl, rfl⟩, fun _ _ => rfl, lineAccesses_setParam b c, fun _ _ => rfl,
    fun _ => List.flatMap_def, rfl, fun n p q => ⟨scriptAccesses_again_zero b c p q, scriptAccesses_again_succ b c n p q⟩⟩

end Sys2Proof.Machine
end

section
/-! The statements of spec/40_lifecycle.md: the commands that change nothing (R120, R126, R127, with R148 and R95), and INIT: the
engine it writes (R121, R125), its default values (R123) and its operands (R124). -/

namespace Sys2Proof.Machine

/-! ## Commands that change nothing -/

/-- Settles O7: the lifecycle and reserved arms are `noOperation`, the SETP.IGN arms `ignoredIndex`, whatever the selector. -/
theorem noOperationCommandsChangeNothing : Obligations.NoOperationCommandsChangeNothing := fun s _ =>
  have hnop : noOperation s = .next s := rfl
  have hign : ignoredIndex s = .next s := rfl
  ⟨hnop, hnop, hnop, hign, hign, hign, hnop, hnop⟩

/-! ## INIT -/

theorem exec_init (s : State) : exec .init s = .next (initEngine s) := rfl

/-- The engine that INIT leaves depends on the build and the NaN draws alone (40_lifecycle.md R121). -/
theorem engineInitial_initEngine (s : State) : EngineInitial s.build s.draws (initEngine s) := by
  have hbuf (i : Nat) : memRead (initEngine s).buf i = 0 := by rw [initEngine_buf, memRead_nil]
  exact ⟨initEngine_status s, initEngine_outL s, initEngine_outR s, initEngine_rate s, initEngine_wowInc s,
    initEngine_fltInc s, initEngine_depth s, initEngine_mix s, initEngine_wowPhase s, initEngine_fltPhase s,
    initEngine_lpL s, initEngine_lpR s, initEngine_seed s, initEngine_widx s, hbuf⟩

theorem sameHostRegisters_initEngine (s : State) : SameHostRegisters s (initEngine s) :=
  ⟨initEngine_arg0 s, initEngine_arg1 s, initEngine_inL s, initEngine_inR s⟩

/-- `initEngine` reads no operand and carries both through, so it commutes with the host's writes to them
(40_lifecycle.md R124). -/
theorem initEngine_withOperands (s : State) (a v : Word) :
    initEngine { s with arg0 := a, arg1 := v } = { initEngine s with arg0 := a, arg1 := v } := rfl

/-- Settles O10: the engine part, the host's registers, and the model's own fields that `initEngine` keeps. -/
theorem initWritesTheEngineState : Obligations.InitWritesTheEngineState := fun s =>
  ⟨initEngine s, exec_init s, engineInitial_initEngine s, sameHostRegisters_initEngine s, initEngine_build s,
    initEngine_bus s, initEngine_reply s⟩

/-- Settles O11: the increments of the default rate are `wowIncOf_default` and `fltIncOf_default`; the other values are fields of
the reference constants. -/
theorem initDefaultValues : Obligations.InitDefaultValues := by
  intro s hk
  have hrate : (initEngine s).rate = 0x3F000000 := by rw [initEngine_rate, hk]; rfl
  have hwow : (initEngine s).wowInc = 0x3889421F := by rw [initEngine_wowInc, hk, wowIncOf_default hk]
  have hflt : (initEngine s).fltInc = 0x3A4DE32E := by rw [initEngine_fltInc, hk, fltIncOf_default hk]
  have hdepth : (initEngine s).depth = 0x43100000 := by rw [initEngine_depth, hk]; rfl
  have hmix : (initEngine s).mix = 0x3F000000 := by rw [initEngine_mix, hk]; rfl
  exact ⟨initEngine s, exec_init s, hrate, hwow, hflt, hdepth, hmix, initEngine_rate s, initEngine_depth s,
    initEngine_fltInc s⟩

/-- Settles O12: INIT keeps both operands, and `initEngine_withOperands` moves their values past it. -/
theorem initIgnoresItsOperands : Obligations.InitIgnoresItsOperands := by
  intro s a v
  refine ⟨initEngine s, exec_init s, initEngine_arg0 s, initEngine_arg1 s, ?_⟩
  rw [exec_init, initEngine_withOperands]

end Sys2Proof.Machine
end

section
/-! The statements of spec/41_parameters.md: what the SETP commands write (R143 to R147), their corner cases with the default
constants (R143, R146), and that a value in [0, 1] keeps the state in contract (R141, 10_state.md R45). -/

namespace Sys2Proof.Machine

/-! ## NaNs and infinities past a constant operand -/

section

variable {k : Nat} {x c : Word}

theorem fmul_inf_left (hx : isInf x = true) (hc : isFinite c = true) (hz : isZero c = false) :
    fmul k x c = packFloat (signOf x != signOf c) infMag := by
  have hxz : isZero x = false := by rw [isInf_iff] at hx; simp [isZero, hx, infMag]
  simp [fmul, not_isNaN_of_isInf hx, not_isNaN_of_isFinite hc, hx, hz, hxz]

theorem fdiv_inf_left (hx : isInf x = true) (hc : isFinite c = true) :
    fdiv k x c = packFloat (signOf x != signOf c) infMag := by
  simp [fdiv, not_isNaN_of_isInf hx, not_isNaN_of_isFinite hc, not_isInf_of_isFinite hc, hx]

theorem isNaN_packFloat_of_le {n : Bool} {m : Nat} (h : m ≤ infMag) : isNaN (packFloat n m) = false := by
  rwa [isNaN_false_iff, magOf_packFloat (Nat.lt_of_le_of_lt h infMag_lt)]

/-- A factor that is finite and no zero neither makes a NaN nor removes one. -/
theorem isNaN_fmul_const (hc : isFinite c = true) (hz : isZero c = false) : isNaN (fmul k x c) = isNaN x := by
  rcases word_cases x with hn | hi | hf
  · rw [hn, isNaN_fmul_of_isNaN (.inl hn)]
  · rw [fmul_inf_left hi hc hz, isNaN_packFloat_of_le (Nat.le_refl _), not_isNaN_of_isInf hi]
  · rw [isNaN_fmul hf hc, not_isNaN_of_isFinite hf]

/-- A divisor that is finite and no zero neither makes a NaN nor removes one. -/
theorem isNaN_fdiv_const (hc : isFinite c = true) (hz : isZero c = false) : isNaN (fdiv k x c) = isNaN x := by
  rcases word_cases x with hn | hi | hf
  · rw [hn, isNaN_fdiv_of_isNaN (.inl hn)]
  · rw [fdiv_inf_left hi hc, isNaN_packFloat_of_le (Nat.le_refl _), not_isNaN_of_isInf hi]
  · rw [fdiv_eq hf hc hz, isNaN_packFloat_of_le (roundMag_le _ _), not_isNaN_of_isFinite hf]

theorem orderKey_bounds_of_not_isNaN (hx : isNaN x = false) : -(infMag : Int) ≤ orderKey x ∧ orderKey x ≤ infMag :=
  orderKey_bounds_of_magOf ((isNaN_false_iff x).mp hx)

theorem fmul_inf_pos (hx : isInf x = true) (hc : isFinite c = true) (hz : isZero c = false) (hs : signOf c = false) :
    fmul k x c = x := by
  rw [fmul_inf_left hx hc hz, hs, Bool.bne_false, ← (isInf_iff x).mp hx, packFloat_sign_mag]

/-- Multiplication by a positive finite word is monotone, on the infinities too. -/
theorem orderKey_fmul_pos_mono {k' : Nat} {y : Word} (hc : isFinite c = true) (hz : isZero c = false)
    (hs : signOf c = false) (hx : isNaN x = false) (hy : isNaN y = false) (h : orderKey x ≤ orderKey y) :
    orderKey (fmul k x c) ≤ orderKey (fmul k' y c) := by
  have hpx := orderKey_bounds_of_not_isNaN (x := fmul k x c) (by rwa [isNaN_fmul_const hc hz])
  have hpy := orderKey_bounds_of_not_isNaN (x := fmul k' y c) (by rwa [isNaN_fmul_const hc hz])
  have hxm := orderKey_natAbs x
  have hym := orderKey_natAbs y
  rcases word_cases x with hxn | hxi | hxf
  · rw [hx] at hxn
    contradiction
  · -- `x` is -∞, or both are +∞
    rw [fmul_inf_pos hxi hc hz hs] at hpx ⊢
    by_cases hyi : isInf y = true
    · rwa [fmul_inf_pos hyi hc hz hs]
    · rw [isInf_iff] at hxi hyi
      rw [isNaN_false_iff] at hy
      omega
  · rcases word_cases y with hyn | hyi | hyf
    · rw [hy] at hyn
      contradiction
    · rw [fmul_inf_pos hyi hc hz hs]
      rw [isFinite_iff] at hxf
      rw [isInf_iff] at hyi
      omega
    · exact orderKey_fmul_const_mono hxf hyf hc hs h

/-- A finite summand neither makes a NaN nor removes one. -/
theorem isNaN_fadd_const (hc : isFinite c = true) : isNaN (fadd k c x) = isNaN x := by
  rcases word_cases x with hn | hi | hf
  · rw [hn, isNaN_fadd_of_isNaN (.inr hn)]
  · rw [fadd_inf_right hc hi]
  · rw [isNaN_fadd hc hf, not_isNaN_of_isFinite hf]

end

/-! ## The coefficients with the default constants -/

section

variable {b : Build} (hk : b.k = referenceConsts)

include hk

theorem isNaN_rateOf (k : Nat) (v : Word) : isNaN (rateOf b k v) = isNaN v := by
  rw [rateOf, hk, isNaN_fadd_const (by decide), isNaN_fmul_const (by decide) (by decide)]

theorem isNaN_wowIncOf (k : Nat) (r : Word) : isNaN (wowIncOf b k r) = isNaN r := by
  rw [wowIncOf, hk, isNaN_fdiv_const (by decide) (by decide), fmul_comm, isNaN_fmul_const (by decide) (by decide)]

theorem isNaN_fltIncOf (k : Nat) (r : Word) : isNaN (fltIncOf b k r) = isNaN r := by
  rw [fltIncOf, hk, isNaN_fdiv_const (by decide) (by decide), fmul_comm, isNaN_fmul_const (by decide) (by decide),
    isNaN_fmul_const (by decide) (by decide)]

/-- Of a value that is no NaN, neither the NaN draws nor the rest of the build decide the rate. -/
theorem rateOf_eq_reference {v : Word} (hv : isNaN v = false) (k : Nat) : rateOf b k v = rateOf referenceBuild 0 v := by
  have hmul : isNaN (fmul 0 v referenceConsts.rateSpan) = false := by rwa [isNaN_fmul_const (by decide) (by decide)]
  have hadd : isNaN (rateOf referenceBuild 0 v) = false := by rwa [isNaN_rateOf rfl]
  rw [rateOf, hk, fmul_draw_irrelevant hmul]
  exact fadd_draw_irrelevant hadd

theorem wowIncOf_eq_reference {r : Word} (hr : isNaN r = false) (k : Nat) :
    wowIncOf b k r = wowIncOf referenceBuild 0 r := by
  have hmul : isNaN (fmul 0 referenceConsts.twoPi r) = false := by
    rwa [fmul_comm, isNaN_fmul_const (by decide) (by decide)]
  have hdiv : isNaN (wowIncOf referenceBuild 0 r) = false := by rwa [isNaN_wowIncOf rfl]
  rw [wowIncOf, hk, fmul_draw_irrelevant hmul]
  exact fdiv_draw_irrelevant hdiv

theorem fltIncOf_eq_reference {r : Word} (hr : isNaN r = false) (k : Nat) :
    fltIncOf b k r = fltIncOf referenceBuild 0 r := by
  have hratio : isNaN (fmul 0 r referenceConsts.fltRatio) = false := by rwa [isNaN_fmul_const (by decide) (by decide)]
  have hmul : isNaN (fmul 1 referenceConsts.twoPi (fmul 0 r referenceConsts.fltRatio)) = false := by
    rwa [fmul_comm, isNaN_fmul_const (by decide) (by decide)]
  have hdiv : isNaN (fltIncOf referenceBuild 0 r) = false := by rwa [isNaN_fltIncOf rfl]
  rw [fltIncOf, hk, fmul_draw_irrelevant hratio, fmul_draw_irrelevant hmul]
  exact fdiv_draw_irrelevant hdiv

/-- What SETP.RATE writes for a value that is no NaN, from the three values that the reference build computes
(41_parameters.md R143, R144). -/
theorem rate_values {v r w f : Word} {k m n : Nat} (h : isNaN v = false ∧ rateOf referenceBuild 0 v = r ∧
    wowIncOf referenceBuild 0 r = w ∧ fltIncOf referenceBuild 0 r = f) :
    rateOf b k v = r ∧ wowIncOf b m (rateOf b k v) = w ∧ fltIncOf b n (rateOf b k v) = f := by
  obtain ⟨hv, hr, hw, hf⟩ := h
  have hrate : rateOf b k v = r := (rateOf_eq_reference hk hv k).trans hr
  have hrnan : isNaN r = false := by rwa [← hrate, isNaN_rateOf hk]
  rw [hrate]
  exact ⟨rfl, (wowIncOf_eq_reference hk hrnan m).trans hw, (fltIncOf_eq_reference hk hrnan n).trans hf⟩

theorem depthOf_reference (k : Nat) (v : Word) : depthOf b k v = fmul k v 0x43C00000 := by
  rw [depthOf, hk]
  rfl

end

/-! ## What the SETP commands write -/

theorem exec_setpRate (s : State) :
    exec .setpRate s = .next ((storeRate (s.draws + 2) (rateOf s.build s.draws s.arg0) s).useDraws 7) := rfl

theorem exec_setpDepth (s : State) :
    exec .setpDepth s = .next ((storeDepth (depthOf s.build s.draws s.arg0) s).useDraws 1) := rfl

theorem exec_setpMix (s : State) : exec .setpMix s = .next (storeMix s.arg0 s) := rfl

/-- Settles O15: the formulas are those of `rateOf`, `wowIncOf` and `fltIncOf`, their draws counted on from the state's. -/
theorem setpRateResult : Obligations.SetpRateResult := exec_setpRate

/-- Settles O17: the formula is that of `depthOf`. -/
theorem setpDepthResult : Obligations.SetpDepthResult := exec_setpDepth

/-- Settles O19: the word has `OP` 3 and `IDX` 2, and the value stored is `ARG0` itself. -/
theorem setpMixResult : Obligations.SetpMixResult := ⟨rfl, exec_setpMix⟩

/-! ## Corner cases -/

/-- Settles O16: the fixed values are the reference build's, and a NaN goes through all three formulas. -/
theorem setpRateCornerCases : Obligations.SetpRateCornerCases := by
  intro s hk
  refine ⟨_, exec_setpRate s, rfl, rfl, ?_⟩
  simp only [useDraws_rate, useDraws_wowInc, useDraws_fltInc, storeRate_rate, storeRate_wowInc, storeRate_fltInc]
  generalize s.arg0 = v
  refine ⟨?zero, ?one, ?posInf, ?negInf, fun hv => ?nan⟩
  case zero =>
    rintro (rfl | rfl) <;> exact rate_values hk (by decide +kernel)
  case one =>
    rintro rfl
    exact rate_values hk (by decide +kernel)
  case posInf =>
    rintro rfl
    exact rate_values hk (by decide +kernel)
  case negInf =>
    rintro rfl
    exact rate_values hk (by decide +kernel)
  case nan =>
    rw [isNaN_wowIncOf hk, isNaN_fltIncOf hk, isNaN_rateOf hk]
    exact ⟨hv, hv, hv⟩

/-- The depth of a value that is no NaN, from the one computed with the first draw (41_parameters.md R146). -/
theorem depth_value {v d : Word} {k : Nat} (h : isNaN v = false ∧ fmul 0 v 0x43C00000 = d) : fmul k v 0x43C00000 = d := by
  obtain ⟨hv, hd⟩ := h
  have hmul : isNaN (fmul 0 v 0x43C00000) = false := by rwa [isNaN_fmul_const (by decide) (by decide)]
  exact (fmul_draw_irrelevant hmul).trans hd

/-- `K.DEPTH_SCALE` is a positive factor. -/
theorem orderKey_fmul_depthScale_mono {k k' : Nat} {x y : Word} (hx : isNaN x = false) (hy : isNaN y = false)
    (h : orderKey x ≤ orderKey y) : orderKey (fmul k x 0x43C00000) ≤ orderKey (fmul k' y 0x43C00000) :=
  orderKey_fmul_pos_mono (by decide) (by decide) (by decide) hx hy h

/-- A negative word is at most the least subnormal below 0, whose product is negative (41_parameters.md R146). -/
theorem flt_fmul_depthScale_zero {k : Nat} {v : Word} (h : flt v 0 = true) : flt (fmul k v 0x43C00000) 0 = true := by
  obtain ⟨hv, -, hlt⟩ := (flt_iff _ _).mp h
  have hle : orderKey v ≤ orderKey 0x80000001 := by
    rw [orderKey_zero] at hlt
    exact Int.le_sub_one_of_lt hlt
  rw [flt_iff, isNaN_fmul_const (by decide) (by decide)]
  refine ⟨hv, isNaN_zero, ?_⟩
  calc orderKey (fmul k v 0x43C00000) ≤ orderKey (fmul 0 0x80000001 0x43C00000) :=
        orderKey_fmul_depthScale_mono hv (by decide) hle
    _ < orderKey 0 := by decide +kernel

/-- A word above 1.0 is at least the next one, whose product is above 384.0 (41_parameters.md R146). -/
theorem flt_depthScale_fmul {k : Nat} {v : Word} (h : flt 0x3F800000 v = true) :
    flt 0x43C00000 (fmul k v 0x43C00000) = true := by
  obtain ⟨-, hv, hlt⟩ := (flt_iff _ _).mp h
  have hle : orderKey 0x3F800001 ≤ orderKey v := hlt
  rw [flt_iff, isNaN_fmul_const (by decide) (by decide)]
  refine ⟨by decide, hv, ?_⟩
  calc orderKey 0x43C00000 < orderKey (fmul 0 0x3F800001 0x43C00000) := by decide +kernel
    _ ≤ orderKey (fmul k v 0x43C00000) := orderKey_fmul_depthScale_mono (by decide) hv hle

/-- Settles O18: 1.0 is neutral, the other fixed values are computed, and the inequalities follow from monotony. -/
theorem setpDepthCornerCases : Obligations.SetpDepthCornerCases := by
  intro s hk
  refine ⟨_, exec_setpDepth s, ?_⟩
  simp only [useDraws_depth, storeDepth_depth, depthOf_reference hk]
  generalize s.arg0 = v
  refine ⟨?one, ?zero, ?negZero, ?half, flt_fmul_depthScale_zero, flt_depthScale_fmul, isNaN_fmul_of_isNaN ∘ .inl⟩
  case one =>
    rintro rfl
    exact fmul_one_left (by decide)
  case zero =>
    rintro rfl
    exact depth_value (by decide +kernel)
  case negZero =>
    rintro rfl
    exact depth_value (by decide +kernel)
  case half =>
    rintro rfl
    exact depth_value (by decide +kernel)

/-! ## Values in [0, 1] -/

theorem unitValue_iff (v : Word) :
    unitValue v = true ↔ isNaN v = false ∧ 0 ≤ orderKey v ∧ orderKey v ≤ orderKey 0x3F800000 := by
  rw [unitValue, inRange_iff (by decide) (by decide), orderKey_zero]

/-- A part of a positive constant lies between 0 and the constant. -/
theorem inRange_fmul_of_unitValue {k : Nat} {v c : Word} (hc : isFinite c = true) (hs : signOf c = false)
    (hv : unitValue v = true) : inRange 0 c (fmul k v c) = true := by
  have hfin : isFinite v = true := isFinite_of_inRange (by decide) (by decide) hv
  obtain ⟨-, hv0, hv1⟩ := (unitValue_iff v).mp hv
  have hnonneg : 0 ≤ orderKey (fmul k v c) := orderKey_fmul_nonneg hfin hc hv0 (orderKey_nonneg_iff.mpr (.inl hs))
  have hle : orderKey (fmul k v c) ≤ orderKey (fmul k 0x3F800000 c) :=
    orderKey_fmul_const_mono hfin (by decide) hc hs hv1
  rw [fmul_one_left (not_isNaN_of_isFinite hc)] at hle
  rw [inRange_iff isNaN_zero (not_isNaN_of_isFinite hc), orderKey_zero]
  exact ⟨isNaN_fmul hfin hc, hnonneg, hle⟩

section

variable {b : Build} (hk : b.k = referenceConsts) {v : Word} (hv : unitValue v = true)

include hk hv

theorem inRange_depthOf (k : Nat) : inRange 0 0x43C00000 (depthOf b k v) = true := by
  rw [depthOf_reference hk]
  exact inRange_fmul_of_unitValue (by decide) (by decide) hv

/-- The rate of a value in [0, 1] lies between the rates at +0 and at 1.0 (41_parameters.md R143). -/
theorem inRange_rateOf (k : Nat) : inRange 0x3DCCCCCD 0x40400000 (rateOf b k v) = true := by
  have hspan : inRange 0 referenceConsts.rateSpan (fmul k v referenceConsts.rateSpan) = true :=
    inRange_fmul_of_unitValue (by decide) (by decide) hv
  have hfin := isFinite_of_inRange (by decide) (by decide) hspan
  obtain ⟨-, h0, h1⟩ := (inRange_iff (by decide) (by decide)).mp hspan
  rw [inRange_iff (by decide) (by decide), rateOf, hk]
  refine ⟨isNaN_fadd (by decide) hfin, ?lower, ?upper⟩
  case lower =>
    calc orderKey 0x3DCCCCCD = orderKey (fadd 0 referenceConsts.rateMin 0) := by decide +kernel
      _ ≤ _ := orderKey_fadd_mono (by decide) (by decide) (by decide) hfin (Int.le_refl _) h0
  case upper =>
    calc _ ≤ orderKey (fadd 0 referenceConsts.rateMin referenceConsts.rateSpan) :=
          orderKey_fadd_mono (by decide) hfin (by decide) (by decide) (Int.le_refl _) h1
      _ = orderKey 0x40400000 := by decide +kernel

end

/-! ## In contract (10_state.md R45) -/

section

variable {s : State} (hs : InContract s)

include hs

/-- A new rate within its range keeps the contract: the increments are those of the rate, whatever the NaN draws. -/
theorem inContract_storeRate {r : Word} (hk : s.build.k = referenceConsts) (hr : inRange 0x3DCCCCCD 0x40400000 r = true)
    (k n : Nat) : InContract ((storeRate k r s).useDraws n) := by
  obtain ⟨-, hdepth, hmix, -, -, hwow, hflt⟩ := hs
  obtain ⟨hnan, -, -⟩ := (inRange_iff (by decide) (by decide)).mp hr
  have hwowInc : wowIncOf s.build k r = wowIncOf s.build 0 r :=
    (wowIncOf_eq_reference hk hnan k).trans (wowIncOf_eq_reference hk hnan 0).symm
  have hfltInc : fltIncOf s.build (k + 2) r = fltIncOf s.build 0 r :=
    (fltIncOf_eq_reference hk hnan (k + 2)).trans (fltIncOf_eq_reference hk hnan 0).symm
  exact ⟨hr, hdepth, hmix, hwowInc, hfltInc, hwow, hflt⟩

theorem inContract_storeDepth {d : Word} (hd : inRange 0 0x43C00000 d = true) (n : Nat) :
    InContract ((storeDepth d s).useDraws n) := by
  obtain ⟨hrate, -, hrest⟩ := hs
  exact ⟨hrate, hd, hrest⟩

theorem inContract_storeMix {m : Word} (hm : unitValue m = true) : InContract (storeMix m s) := by
  obtain ⟨hrate, hdepth, -, hrest⟩ := hs
  exact ⟨hrate, hdepth, hm, hrest⟩

end

/-- Settles O20: each command writes a register within its range of the contract. -/
theorem setpInUnitRangeKeepsTheContract : Obligations.SetpInUnitRangeKeepsTheContract := by
  rintro s i hk hs hv (rfl | rfl | rfl)
  · exact ⟨_, exec_setpRate s, inContract_storeRate hs hk (inRange_rateOf hk hv _) _ _⟩
  · exact ⟨_, exec_setpDepth s, inContract_storeDepth hs (inRange_depthOf hk hv _) _⟩
  · exact ⟨_, exec_setpMix s, inContract_storeMix hs hv⟩

end Sys2Proof.Machine
end

section
/-! The statements of spec/42_frame.md: PROCESS while a fault is recorded (R161), the whole result of a frame (R162, R165, R186,
R187), the dry/wet mix (R185), and the independence of the two channels (R165, 20_memory.md R62). -/

namespace Sys2Proof.Machine

/-! ## What PROCESS answers -/

theorem exec_process (s : State) : exec .process s = execProcess s := rfl

theorem execProcess_of_faulted {s : State} (h : Faulted s) : execProcess s = .next s := if_pos h

/-- Phases B and C follow a tap inside the buffer (42_frame.md R162, R163). -/
theorem execProcess_of_tap {s : State} {tap : Tap} (hs : ¬Faulted s) (htap : frameTap s = .ok tap)
    (hslots : frameSlotsExist s.build s.widx.toNat tap = true) : execProcess s = .next (finishFrame s tap) := by
  rw [execProcess, if_neg hs, htap]
  exact if_pos hslots

theorem faulted_recordRangeFault (c : RangeCause) (s : State) : Faulted (recordRangeFault c s) := by
  rw [Faulted, recordRangeFault_status]
  cases c <;> decide

/-- A PROCESS that starts and ends with no fault recorded has finished the frame of its tap. -/
theorem finishFrame_of_unfaulted {s t : State} (hs : ¬Faulted s) (h : exec .process s = .next t) (ht : ¬Faulted t) :
    ∃ tap, frameTap s = .ok tap ∧ t = finishFrame s tap := by
  rcases execProcess_cases h with ⟨hf, -⟩ | ⟨-, c, -, rfl⟩ | ⟨-, tap, htap, -, rfl⟩
  · exact absurd hf hs
  · exact absurd (faulted_recordRangeFault c s) ht
  · exact ⟨tap, htap, rfl⟩

/-- Where the read position gives a tap, a PROCESS that completes has finished that tap's frame. -/
theorem finishFrame_of_tap {s t : State} {tap : Tap} (hs : ¬Faulted s) (h : exec .process s = .next t)
    (htap : frameTap s = .ok tap) : t = finishFrame s tap := by
  rcases execProcess_cases h with ⟨hf, -⟩ | ⟨-, c, hc, -⟩ | ⟨-, tap', htap', -, rfl⟩
  · exact absurd hf hs
  · rw [htap] at hc
    contradiction
  · rw [htap] at htap'
    rw [Except.ok.inj htap']

/-- Settles O21: the first test of PROCESS is `STATUS.FAULT`. -/
theorem processIgnoredWhileFaulted : Obligations.ProcessIgnoredWhileFaulted := by
  intro s h
  rw [exec_process, execProcess_of_faulted h]

/-! ## The result of a frame -/

theorem slotExists_iff (b : Build) (i : Nat) : slotExists b i = true ↔ i < bufferLen b := decide_eq_true_iff

theorem frameSlotsExist_iff (b : Build) (w : Nat) (t : Tap) :
    frameSlotsExist b w t = true ↔
      w + 1 < bufferLen b ∧ slotOf t.older .right < bufferLen b ∧ slotOf t.newer .right < bufferLen b := by
  rw [frameSlotsExist, Bool.and_eq_true, Bool.and_eq_true, slotExists_iff, slotExists_iff, slotExists_iff, and_assoc]

/-- Settles O29: `execProcess_of_tap` applies, and `finishFrame` unfolds to the units' formulas, the draws counted on from the
state's. -/
theorem processFrameResult : Obligations.ProcessFrameResult := by
  intro s tap hs c k w len a f mod htap hw holder hnewer
  have hslots : frameSlotsExist s.build w tap = true := (frameSlotsExist_iff s.build w tap).mpr ⟨hw, holder, hnewer⟩
  calc exec .process s = .next (finishFrame s tap) := execProcess_of_tap hs htap hslots
    _ = _ := rfl

/-! ## The dry/wet mix -/

theorem fsub_one_zero (k : Nat) : fsub k 0x3F800000 0 = 0x3F800000 :=
  (fsub_draw_irrelevant (k' := 0) (by decide +kernel)).trans (by decide +kernel)

theorem fsub_one_one (k : Nat) : fsub k 0x3F800000 0x3F800000 = 0 :=
  (fsub_draw_irrelevant (k' := 0) (by decide +kernel)).trans (by decide +kernel)

section

variable (b : Build) (k : Nat) (x t n : Word)

theorem isNaN_mixOut_of_isNaN_mix {m : Word} (hm : isNaN m = true) : isNaN (mixOut b k x t n m) = true :=
  isNaN_fadd_of_isNaN (.inr (isNaN_fmul_of_isNaN (.inl hm)))

variable {b} (hone : b.k.one = 0x3F800000)

include hone

/-- At `MIX` = 0 the dry factor is 1.0 (42_frame.md R185). -/
theorem mixOut_zero : mixOut b k x t n 0 =
    fadd (k + 4) (fmul (k + 2) 0x3F800000 x) (fmul (k + 3) (fadd k t n) 0) := by
  rw [mixOut, hone, fsub_one_zero, fmul_comm (k + 3)]

/-- At `MIX` = 1 the dry factor is +0 (42_frame.md R185). -/
theorem mixOut_one : mixOut b k x t n 0x3F800000 =
    fadd (k + 4) (fmul (k + 2) x 0) (fmul (k + 3) 0x3F800000 (fadd k t n)) := by
  rw [mixOut, hone, fsub_one_one, fmul_comm (k + 2)]

variable {k x t n}

theorem isNaN_mixOut_zero (hwet : isFinite (fadd k t n) = false) : isNaN (mixOut b k x t n 0) = true := by
  rw [mixOut_zero k x t n hone]
  exact isNaN_fadd_of_isNaN (.inr (isNaN_fmul_zero (by decide) hwet))

/-- At `MIX` = 0 a zero is added to the input, which leaves all but the sign of a zero. -/
theorem mixOut_zero_eq_input (hx : isNaN x = false) (hwet : isFinite (fadd k t n) = true) :
    feq (mixOut b k x t n 0) x = true ∧ (x ≠ 0x80000000 → mixOut b k x t n 0 = x) := by
  have hzero : isZero (fmul (k + 3) (fadd k t n) 0) = true := by
    rw [fmul_zero_right (by decide) hwet]
    exact isZero_packFloat_zero
  obtain ⟨hfeq, heq, -⟩ := fadd_zero_right (k := k + 4) hx hzero
  rw [mixOut_zero k x t n hone, fmul_one_left hx]
  exact ⟨hfeq, heq⟩

/-- At `MIX` = 1 the wet sum is added to a zero. -/
theorem mixOut_one_feq_wet (hx : isFinite x = true) (hwet : isNaN (fadd k t n) = false) :
    feq (mixOut b k x t n 0x3F800000) (fadd k t n) = true := by
  rw [mixOut_one k x t n hone, fmul_one_left hwet, fmul_zero_right (by decide) hx]
  exact fadd_zero_left hwet isZero_packFloat_zero

theorem isNaN_mixOut_one (hx : isFinite x = false) : isNaN (mixOut b k x t n 0x3F800000) = true := by
  rw [mixOut_one k x t n hone]
  exact isNaN_fadd_of_isNaN (.inl (isNaN_fmul_zero (by decide) hx))

end

/-- Settles O44: the formula is `mixOut`'s own, and each corner case is one of the lemmas above. -/
theorem mixCornerCases : Obligations.MixCornerCases := fun b k x t n _ =>
  ⟨rfl, isNaN_mixOut_of_isNaN_mix b k x t n, fun hone =>
    ⟨isNaN_mixOut_zero hone, mixOut_zero_eq_input hone, mixOut_one_feq_wet hone, isNaN_mixOut_one hone⟩⟩

/-! ## The slots of one channel -/

/-- The left channel has the even slots, the right one the odd slots (20_memory.md R62). -/
theorem slotOf_mod_two (i : Nat) (c : Channel) : slotOf i c % 2 = channelNumber c := by
  rw [slotOf]
  cases c <;> rw [channelNumber] <;> omega

/-- Two buffers agree in every slot of a channel (20_memory.md R62). -/
def SameSlots (c : Channel) (m m' : Memory) : Prop := ∀ i, memRead m' (slotOf i c) = memRead m (slotOf i c)

/-- A slot write keeps the agreement of two canonical buffers. -/
theorem sameSlots_memWrite {c : Channel} {m m' : Memory} (h : SameSlots c m m') (hm : Memory.wf m = true)
    (hm' : Memory.wf m' = true) (i : Nat) (v : Word) : SameSlots c (memWrite m i v) (memWrite m' i v) := by
  intro j
  by_cases hj : slotOf j c = i
  · rw [hj, memRead_memWrite_self i v hm, memRead_memWrite_self i v hm']
  · rw [memRead_memWrite_of_ne v hj, memRead_memWrite_of_ne v hj]
    exact h j

/-- What is written to a slot of the other channel does not matter. -/
theorem sameSlots_memWrite_other {c : Channel} {m m' : Memory} (h : SameSlots c m m') {i : Nat}
    (hi : i % 2 ≠ channelNumber c) (v v' : Word) : SameSlots c (memWrite m i v) (memWrite m' i v') := by
  intro j
  have hj : slotOf j c ≠ i := by
    rintro rfl
    exact hi (slotOf_mod_two j c)
  rw [memRead_memWrite_of_ne v hj, memRead_memWrite_of_ne v' hj]
  exact h j

theorem interp_congr {c : Channel} {m m' : Memory} (h : SameSlots c m m') (b : Build) (k : Nat) (t : Tap) :
    interp b k m' c t = interp b k m c t := by
  rw [interp, interp, h t.older, h t.newer]

/-- A channel's filter state and output depend on the buffer through the channel's own slots alone (42_frame.md R165). -/
theorem channelStep_congr {c : Channel} {m m' : Memory} (h : SameSlots c m m') (hm : Memory.wf m = true)
    (hm' : Memory.wf m' = true) (b : Build) (k w : Nat) (t : Tap) (mix x lp seed : Word) :
    (channelStep b k w t mix c x lp seed m').out = (channelStep b k w t mix c x lp seed m).out ∧
      (channelStep b k w t mix c x lp seed m').lp = (channelStep b k w t mix c x lp seed m).lp := by
  have hwrite : SameSlots c (sampleWrite w c x m) (sampleWrite w c x m') := sameSlots_memWrite h hm hm' _ x
  simp only [channelStep, interp_congr hwrite, and_self]

/-! ## The independence of the channels -/

theorem leftResult_eq (s : State) (tap : Tap) : leftResult s tap =
    channelStep s.build (s.draws + 14) s.widx.toNat tap s.mix .left s.inL s.lpL s.seed s.buf := rfl

/-- The right channel takes over the buffer with the left sample and the generator state stepped once (42_frame.md R165). -/
theorem rightResult_eq (s : State) (tap : Tap) : rightResult s tap =
    channelStep s.build (s.draws + 14 + channelDraws) s.widx.toNat tap s.mix .right s.inR s.lpR (lcgStep s.build s.seed)
      (memWrite s.buf s.widx.toNat s.inL) := rfl

/-- The states agree in what couples the channels, the modulation amount, the noise generator and `WIDX` (42_frame.md R165), and
in the build, `MIX` and the NaN draws. -/
abbrev SameCoupling (s s' : State) : Prop :=
  s'.build = s.build ∧ s'.widx = s.widx ∧ s'.wowPhase = s.wowPhase ∧ s'.fltPhase = s.fltPhase ∧ s'.depth = s.depth ∧
    s'.mix = s.mix ∧ s'.seed = s.seed ∧ s'.draws = s.draws

section

variable {s s' : State} (h : SameCoupling s s')

include h

theorem frameTap_congr : frameTap s' = frameTap s := by
  obtain ⟨hbuild, hwidx, hwow, hflt, hdepth, -, -, hdraws⟩ := h
  rw [frameTap, frameTap, hbuild, hwidx, hwow, hflt, hdepth, hdraws]

variable (hwf : Memory.wf s.buf = true) (hwf' : Memory.wf s'.buf = true) (heven : s.widx.toNat % 2 = 0) (tap : Tap)

include hwf hwf' heven

/-- The right sample, stored after the left one, goes to an odd slot. -/
theorem finishFrame_left_congr (hin : s'.inL = s.inL) (hlp : s'.lpL = s.lpL) (hbuf : SameSlots .left s.buf s'.buf) :
    (finishFrame s' tap).outL = (finishFrame s tap).outL ∧ (finishFrame s' tap).lpL = (finishFrame s tap).lpL ∧
      SameSlots .left (finishFrame s tap).buf (finishFrame s' tap).buf := by
  obtain ⟨hbuild, hwidx, -, -, -, hmix, hseed, hdraws⟩ := h
  have hodd : (s.widx.toNat + 1) % 2 ≠ channelNumber .left := by
    rw [channelNumber]
    omega
  have hslots := sameSlots_memWrite_other (sameSlots_memWrite hbuf hwf hwf' s.widx.toNat s.inL) hodd s.inR s'.inR
  rw [finishFrame_outL, finishFrame_outL, finishFrame_lpL, finishFrame_lpL, finishFrame_buf, finishFrame_buf,
    rightResult_buf, rightResult_buf, leftResult_eq, leftResult_eq, hbuild, hwidx, hmix, hseed, hdraws, hin, hlp]
  obtain ⟨hout, hlp'⟩ := channelStep_congr hbuf hwf hwf' s.build (s.draws + 14) s.widx.toNat tap s.mix s.inL s.lpL s.seed
  exact ⟨hout, hlp', hslots⟩

/-- The left sample, stored before the right channel reads, goes to an even slot. -/
theorem finishFrame_right_congr (hin : s'.inR = s.inR) (hlp : s'.lpR = s.lpR) (hbuf : SameSlots .right s.buf s'.buf) :
    (finishFrame s' tap).outR = (finishFrame s tap).outR ∧ (finishFrame s' tap).lpR = (finishFrame s tap).lpR ∧
      SameSlots .right (finishFrame s tap).buf (finishFrame s' tap).buf := by
  obtain ⟨hbuild, hwidx, -, -, -, hmix, hseed, hdraws⟩ := h
  have heven' : s.widx.toNat % 2 ≠ channelNumber .right := by
    rw [channelNumber]
    omega
  have hbuf0 := sameSlots_memWrite_other hbuf heven' s.inL s'.inL
  have hwf0 := memWrite_wf s.widx.toNat s.inL hwf
  have hwf0' := memWrite_wf s.widx.toNat s'.inL hwf'
  rw [finishFrame_outR, finishFrame_outR, finishFrame_lpR, finishFrame_lpR, finishFrame_buf, finishFrame_buf,
    rightResult_buf, rightResult_buf, rightResult_eq, rightResult_eq, hbuild, hwidx, hmix, hseed, hdraws, hin, hlp]
  obtain ⟨hout, hlp'⟩ := channelStep_congr hbuf0 hwf0 hwf0' s.build (s.draws + 14 + channelDraws) s.widx.toNat tap s.mix
    s.inR s.lpR (lcgStep s.build s.seed)
  exact ⟨hout, hlp', sameSlots_memWrite hbuf0 hwf0 hwf0' (s.widx.toNat + 1) s.inR⟩

end

/-- Settles O36: both runs finish the frame of one tap, and each channel's part of it is one of the lemmas above. -/
theorem channelsDoNotMix : Obligations.ChannelsDoNotMix := by
  intro s s' t t' hsame hwf hwf' hwidx hs hs' h h' ht
  obtain ⟨heven, -⟩ := (widxLegal_iff _ _).mp hwidx
  obtain ⟨tap, htap, rfl⟩ := finishFrame_of_unfaulted hs h ht
  have htap' : frameTap s' = .ok tap := (frameTap_congr hsame).trans htap
  obtain rfl := finishFrame_of_tap hs' h' htap'
  exact ⟨finishFrame_left_congr hsame hwf hwf' heven tap, finishFrame_right_congr hsame hwf hwf' heven tap⟩

end Sys2Proof.Machine
end

section
/-! The statements of spec/43_delay_buffer.md: what a frame of PROCESS stores and what it leaves unchanged (R191, R195), and the
cycle of the write index (R193). -/

namespace Sys2Proof.Machine

/-! ## What a frame stores -/

theorem readByte_finishFrame_of_outside (s : State) (tap : Tap) {a : Nat}
    (h : a < 4 * s.widx.toNat ∨ 4 * (s.widx.toNat + 1) + 4 ≤ a) :
    readByte (finishFrame s tap).buf a = readByte s.buf a := by
  have hright : a < 4 * (s.widx.toNat + 1) ∨ 4 * (s.widx.toNat + 1) + 4 ≤ a := by omega
  have hleft : a < 4 * s.widx.toNat ∨ 4 * s.widx.toNat + 4 ≤ a := by omega
  rw [finishFrame_buf, rightResult_buf, readByte_memWrite_of_outside _ hright, readByte_memWrite_of_outside _ hleft]

/-- The right sample, stored after the left one, goes to another slot. -/
theorem memRead_finishFrame_left {s : State} (tap : Tap) (hwf : Memory.wf s.buf = true) :
    memRead (finishFrame s tap).buf s.widx.toNat = s.inL := by
  rw [finishFrame_buf, rightResult_buf, memRead_memWrite_of_ne _ (Nat.ne_add_one _), memRead_memWrite_self _ _ hwf]

theorem memRead_finishFrame_right {s : State} (tap : Tap) (hwf : Memory.wf s.buf = true) :
    memRead (finishFrame s tap).buf (s.widx.toNat + 1) = s.inR := by
  rw [finishFrame_buf, rightResult_buf, memRead_memWrite_self _ _ (memWrite_wf _ _ hwf)]

theorem sameHostRegisters_finishFrame (s : State) (tap : Tap) : SameHostRegisters s (finishFrame s tap) :=
  ⟨finishFrame_arg0 s tap, finishFrame_arg1 s tap, finishFrame_inL s tap, finishFrame_inR s tap⟩

/-- Settles O30: with no fault before or after, the next state is `finishFrame` of the frame's tap. -/
theorem processStoresOnlyTheCurrentFrame : Obligations.ProcessStoresOnlyTheCurrentFrame := by
  intro s t hs h ht
  obtain ⟨tap, -, rfl⟩ := finishFrame_of_unfaulted hs h ht
  exact ⟨fun a ha => readByte_finishFrame_of_outside s tap ha,
    fun hwf => ⟨memRead_finishFrame_left tap hwf, memRead_finishFrame_right tap hwf⟩,
    sameHostRegisters_finishFrame s tap, finishFrame_build s tap, finishFrame_status s tap, finishFrame_rate s tap,
    finishFrame_wowInc s tap, finishFrame_fltInc s tap, finishFrame_depth s tap, finishFrame_mix s tap,
    finishFrame_bus s tap, finishFrame_reply s tap⟩

/-! ## The cycle of the write index

The write index of frame `v` of the buffer is `2 * v`, so the advance counts `v` modulo `N_FRAMES`. -/

theorem advanceW_two_mul {b : Build} {v : Nat} (hv : v < b.nFrames) :
    advanceW b (2 * v) = 2 * ((v + 1) % b.nFrames) := by
  rw [advanceW, bufferLen]
  split
  next hlast =>
    have hwrap : v + 1 = b.nFrames := by omega
    rw [hwrap, Nat.mod_self]
  next hinside =>
    have hnext : v + 1 < b.nFrames := by omega
    rw [Nat.mod_eq_of_lt hnext, Nat.mul_succ]

theorem iterate_advanceW_two_mul {b : Build} {v : Nat} (hv : v < b.nFrames) (n : Nat) :
    (advanceW b)^[n] (2 * v) = 2 * ((v + n) % b.nFrames) := by
  induction n with
  | zero => rw [Function.iterate_zero_apply, Nat.add_zero, Nat.mod_eq_of_lt hv]
  | succ n ih =>
    have hlt : (v + n) % b.nFrames < b.nFrames := Nat.mod_lt _ (by omega)
    rw [Function.iterate_succ_apply', ih, advanceW_two_mul hlt, Nat.mod_add_mod, Nat.add_assoc]

/-- Only a multiple of `N_FRAMES` advances brings the index back. -/
theorem iterate_advanceW_eq_self_iff {b : Build} {v : Nat} (hv : v < b.nFrames) (n : Nat) :
    (advanceW b)^[n] (2 * v) = 2 * v ↔ b.nFrames ∣ n := by
  calc (advanceW b)^[n] (2 * v) = 2 * v
    _ ↔ (v + n) % b.nFrames = v := by rw [iterate_advanceW_two_mul hv, Nat.mul_right_inj two_ne_zero]
    _ ↔ v + n ≡ v [MOD b.nFrames] := by rw [Nat.ModEq, Nat.mod_eq_of_lt hv]
    _ ↔ b.nFrames ∣ n := Nat.add_modEq_left_iff

/-- Settles O35: the index is that of a buffer frame `v`, and the advances count `v` modulo `N_FRAMES`. -/
theorem writeIndexReturnsAfterNFrames : Obligations.WriteIndexReturnsAfterNFrames := by
  intro b w heven hw
  obtain ⟨v, rfl⟩ := Nat.dvd_of_mod_eq_zero heven
  have hlen : bufferLen b = 2 * b.nFrames := rfl
  have hv : v < b.nFrames := by omega
  have hnext : (v + 1) % b.nFrames < b.nFrames := Nat.mod_lt _ (by omega)
  have hadv := advanceW_two_mul hv
  refine ⟨by omega, by omega, ?_, (iterate_advanceW_eq_self_iff hv _).mpr dvd_rfl, fun n hpos hlt hback => ?_⟩
  · rw [hadv, hlen, ← Nat.mul_succ, Nat.mul_mod_mul_left]
  · exact Nat.not_dvd_of_pos_of_lt hpos hlt ((iterate_advanceW_eq_self_iff hv n).mp hback)

end Sys2Proof.Machine
end

section
/-! The statements of spec/44_lfo.md: the phase step (R217 to R219), the modulation amount and its range (R214 to R216), and the
range fault that a phase which is not finite records (R220, 60_exceptions.md R301). -/

namespace Sys2Proof.Machine

/-! ## Interval arithmetic

Bounds of the operands give bounds of the result: each operation is monotone, so the result lies between the results at the ends.
The ends `l` and `h` may lie outside the exact ones. -/

theorem orderKey_le_of_fle {a b : Word} (h : fle a b = true) : orderKey a ≤ orderKey b := by
  obtain ⟨-, -, hle⟩ := (fle_iff a b).mp h
  exact hle

theorem inRange_of_fle {a b l h x : Word} (hx : isNaN x = false) (hax : orderKey a ≤ orderKey x)
    (hxb : orderKey x ≤ orderKey b) (hl : fle l a = true) (hh : fle b h = true) : inRange l h x = true := by
  obtain ⟨hln, -, hla⟩ := (fle_iff l a).mp hl
  obtain ⟨-, hhn, hbh⟩ := (fle_iff b h).mp hh
  exact (inRange_iff hln hhn).mpr ⟨hx, hla.trans hax, hxb.trans hbh⟩

section

variable {k : Nat} {x y lo hi lo' hi' l h : Word} (hfin : isFinite lo = true ∧ isFinite hi = true)
  (hx : inRange lo hi x = true)

include hfin hx

/-- What a range with finite ends says of its member. -/
theorem bounds_of_inRange : isFinite x = true ∧ orderKey lo ≤ orderKey x ∧ orderKey x ≤ orderKey hi := by
  obtain ⟨hlo, hhi⟩ := hfin
  obtain ⟨-, hlow, hupp⟩ := (inRange_iff (not_isNaN_of_isFinite hlo) (not_isNaN_of_isFinite hhi)).mp hx
  exact ⟨isFinite_of_inRange hlo hhi hx, hlow, hupp⟩

theorem inRange_fadd (hfin' : isFinite lo' = true ∧ isFinite hi' = true) (hy : inRange lo' hi' y = true)
    (hl : fle l (fadd 0 lo lo') = true) (hh : fle (fadd 0 hi hi') h = true) : inRange l h (fadd k x y) = true := by
  obtain ⟨hxf, hxl, hxu⟩ := bounds_of_inRange hfin hx
  obtain ⟨hyf, hyl, hyu⟩ := bounds_of_inRange hfin' hy
  exact inRange_of_fle (isNaN_fadd hxf hyf) (orderKey_fadd_mono hfin.1 hfin'.1 hxf hyf hxl hyl)
    (orderKey_fadd_mono hxf hyf hfin.2 hfin'.2 hxu hyu) hl hh

theorem inRange_fmul_const {c : Word} (hc : isFinite c = true ∧ signOf c = false)
    (hl : fle l (fmul 0 lo c) = true) (hh : fle (fmul 0 hi c) h = true) : inRange l h (fmul k x c) = true := by
  obtain ⟨hxf, hxl, hxu⟩ := bounds_of_inRange hfin hx
  obtain ⟨hcf, hcs⟩ := hc
  exact inRange_of_fle (isNaN_fmul hxf hcf) (orderKey_fmul_const_mono hfin.1 hxf hcf hcs hxl)
    (orderKey_fmul_const_mono hxf hfin.2 hcf hcs hxu) hl hh

end

/-- The product of two ranges from 0 on. -/
theorem inRange_fmul_nonneg {k : Nat} {x y hi hi' h : Word} (hhi : isFinite hi = true) (hhi' : isFinite hi' = true)
    (hx : inRange 0 hi x = true) (hy : inRange 0 hi' y = true) (hh : fle (fmul 0 hi hi') h = true) :
    inRange 0 h (fmul k x y) = true := by
  obtain ⟨hxf, hx0, hxu⟩ := bounds_of_inRange ⟨by decide, hhi⟩ hx
  obtain ⟨hyf, hy0, hyu⟩ := bounds_of_inRange ⟨by decide, hhi'⟩ hy
  rw [orderKey_zero] at hx0 hy0
  have hnonneg : 0 ≤ orderKey (fmul k x y) := orderKey_fmul_nonneg hxf hyf hx0 hy0
  have hnonneg' : 0 ≤ orderKey (fmul 0 hi hi') :=
    orderKey_fmul_nonneg hhi hhi' (hx0.trans hxu) (hy0.trans hyu)
  have hmag : magOf (fmul k x y) ≤ magOf (fmul 0 hi hi') := by
    rw [orderKey_of_nonneg (hx0.trans hxu)] at hxu
    rw [orderKey_of_nonneg (hy0.trans hyu)] at hyu
    exact magOf_fmul_mono hhi hhi' (magOf_le_of_orderKey hx0 hxu) (magOf_le_of_orderKey hy0 hyu)
  have hle : orderKey (fmul k x y) ≤ orderKey (fmul 0 hi hi') := by
    rw [orderKey_of_nonneg hnonneg']
    exact (orderKey_bounds_of_magOf hmag).2
  exact inRange_of_fle (a := 0) (isNaN_fmul hxf hyf) hnonneg hle (by decide) hh

/-! ## The phase step -/

theorem fle_self {x : Word} (h : isNaN x = false) : fle x x = true := (fle_iff x x).mpr ⟨h, h, Int.le_refl _⟩

theorem fsub_self (k : Nat) {x : Word} (h : isFinite x = true) : fsub k x x = 0 := by
  have hsum : valueOf x + valueOf (negate x) = 0 := by rw [valueOf_negate, Int.add_right_neg]
  rw [fsub_eq (not_isNaN_of_isFinite h), fadd_of_sum_zero k h (by rwa [isFinite_negate]) hsum, signOf_negate,
    Bool.and_not_self, if_neg Bool.false_ne_true]

theorem phaseStep_of_fle {b : Build} {k : Nat} {p inc : Word} (h : fle b.k.twoPi (fadd k p inc) = true) :
    phaseStep b k p inc = fsub (k + 1) (fadd k p inc) b.k.twoPi := if_pos h

theorem phaseStep_of_not_fle {b : Build} {k : Nat} {p inc : Word} (h : ¬fle b.k.twoPi (fadd k p inc) = true) :
    phaseStep b k p inc = fadd k p inc := if_neg h

/-- Settles O38: a finite word less itself is +0. -/
theorem phaseSumOfTwoPiWrapsToZero : Obligations.PhaseSumOfTwoPiWrapsToZero := by
  refine fun b k p inc => ⟨rfl, fun hfin hsum => ?_⟩
  have hwrap : fle b.k.twoPi (fadd k p inc) = true := by
    rw [hsum]
    exact fle_self (not_isNaN_of_isFinite hfin)
  rw [phaseStep_of_fle hwrap, hsum, fsub_self _ hfin]

theorem phaseInRange_iff {b : Build} (h : isNaN b.k.twoPi = false) (p : Word) :
    phaseInRange b p = true ↔ isNaN p = false ∧ 0 ≤ orderKey p ∧ orderKey p < orderKey b.k.twoPi := by
  rw [phaseInRange, Bool.and_eq_true, fle_iff, flt_iff, orderKey_zero]
  constructor
  · rintro ⟨⟨-, hp, hlow⟩, -, -, hupp⟩
    exact ⟨hp, hlow, hupp⟩
  · rintro ⟨hp, hlow, hupp⟩
    exact ⟨⟨isNaN_zero, hp, hlow⟩, hp, h, hupp⟩

/-- From 2π to 2π + 1 (0x40E90FDB), less 2π: [0, 1]. -/
theorem inRange_fsub_twoPi (k : Nat) {q : Word} (hq : inRange 0x40C90FDB 0x40E90FDB q = true) :
    inRange 0 0x3F800000 (fsub k q 0x40C90FDB) = true := by
  have hneg : inRange 0xC0C90FDB 0xC0C90FDB (negate 0x40C90FDB) = true := by decide
  rw [fsub_eq (by decide)]
  exact inRange_fadd (by decide) hq (by decide) hneg (by decide +kernel) (by decide +kernel)

/-- Settles O37: the sum lies in [0, 2π + 1]; below 2π it is the new phase, and from 2π on the subtraction moves it to [0, 1]
(44_lfo.md R219). -/
theorem phaseStepStaysInRange : Obligations.PhaseStepStaysInRange := by
  intro b k p inc htwoPi hp hinc
  have hiff := phaseInRange_iff (b := b) (by rw [htwoPi]; decide)
  rw [hiff, htwoPi] at hp
  obtain ⟨hpn, hp0, hplt⟩ := hp
  have hp' : inRange 0 0x40C90FDB p = true :=
    (inRange_iff isNaN_zero (by decide)).mpr ⟨hpn, orderKey_zero.trans_le hp0, hplt.le⟩
  have hsum : inRange 0 0x40E90FDB (fadd k p inc) = true :=
    inRange_fadd (by decide) hp' (by decide) hinc (by decide +kernel) (by decide +kernel)
  obtain ⟨hqf, hq0, hq1⟩ := bounds_of_inRange (by decide) hsum
  have hqn := not_isNaN_of_isFinite hqf
  rw [hiff]
  by_cases hwrap : fle b.k.twoPi (fadd k p inc) = true
  · rw [phaseStep_of_fle hwrap, htwoPi]
    rw [htwoPi] at hwrap
    have hq : inRange 0x40C90FDB 0x40E90FDB (fadd k p inc) = true :=
      (inRange_iff (by decide) (by decide)).mpr ⟨hqn, orderKey_le_of_fle hwrap, hq1⟩
    obtain ⟨hrf, hr0, hr1⟩ := bounds_of_inRange (by decide) (inRange_fsub_twoPi (k + 1) hq)
    exact ⟨not_isNaN_of_isFinite hrf, orderKey_zero.symm.trans_le hr0, hr1.trans_lt (by decide)⟩
  · rw [phaseStep_of_not_fle hwrap]
    refine ⟨hqn, orderKey_zero.symm.trans_le hq0, Int.not_le.mp fun hle => hwrap ?_⟩
    exact (fle_iff _ _).mpr ⟨by rw [htwoPi]; decide, hqn, hle⟩

/-! ## The modulation amount -/

/-- R215, R216: the wow part lies within ±0.8 and the flutter part within ±0.05, so half of their sum and 1.0 lies between 0 and
0.925 (0x3F6CCCCD). -/
theorem inRange_modAmount {b : Build} (hk : b.k = referenceConsts) (k : Nat) {pw pf d : Word} (hpw : isFinite pw = true)
    (hpf : isFinite pf = true) (hd : inRange 0 0x43C00000 d = true) : inRange 0 0x43B1999A (modAmount b k pw pf d) = true := by
  have hwow : inRange 0xBF4CCCCD 0x3F4CCCCD (fmul (k + 1) (sine b k pw) referenceConsts.wowW) = true :=
    inRange_fmul_const (by decide) (inRange_sine b k hpw) (by decide) (by decide +kernel) (by decide +kernel)
  have hflt1 : inRange 0xBE800000 0x3E800000 (fmul (k + 3) (sine b (k + 2) pf) referenceConsts.fltW1) = true :=
    inRange_fmul_const (by decide) (inRange_sine b (k + 2) hpf) (by decide) (by decide +kernel) (by decide +kernel)
  have hflt : inRange 0xBD4CCCCD 0x3D4CCCCD
      (fmul (k + 4) (fmul (k + 3) (sine b (k + 2) pf) referenceConsts.fltW1) referenceConsts.fltW2) = true :=
    inRange_fmul_const (by decide) hflt1 (by decide) (by decide +kernel) (by decide +kernel)
  have hsum := inRange_fadd (k := k + 5) (l := 0xBF59999A) (h := 0x3F59999A) (by decide) hwow (by decide) hflt
    (by decide +kernel) (by decide +kernel)
  have hone : inRange 0x3F800000 0x3F800000 referenceConsts.one = true := by decide
  have hu := inRange_fadd (k := k + 6) (l := 0) (h := 0x3FECCCCD) (by decide) hsum (by decide) hone
    (by decide +kernel) (by decide +kernel)
  have hhalf := inRange_fmul_const (k := k + 7) (c := referenceConsts.half) (l := 0) (h := 0x3F6CCCCD) (by decide) hu
    (by decide) (by decide +kernel) (by decide +kernel)
  rw [modAmount, hk]
  exact inRange_fmul_nonneg (by decide) (by decide) hhalf hd (by decide +kernel)

/-- Settles O40: the formula is `modAmount`'s own, and its bounds are those of `inRange_modAmount`. -/
theorem modulationAmountBounds : Obligations.ModulationAmountBounds := fun _ k _ _ _ =>
  ⟨rfl, fun hk hpw hpf hd => inRange_modAmount hk k hpw hpf hd⟩

/-! ## A phase that is not finite -/

/-- The sine of a non-finite phase is a NaN, which every later operation hands on (44_lfo.md R220). -/
theorem isNaN_modAmount (b : Build) (k : Nat) {pw pf : Word} (d : Word)
    (h : isFinite pw = false ∨ isFinite pf = false) : isNaN (modAmount b k pw pf d) = true := by
  have hsum : isNaN (fadd (k + 5) (fmul (k + 1) (sine b k pw) b.k.wowW)
      (fmul (k + 4) (fmul (k + 3) (sine b (k + 2) pf) b.k.fltW1) b.k.fltW2)) = true := by
    apply isNaN_fadd_of_isNaN
    rcases h with hpw | hpf
    · left
      exact isNaN_fmul_of_isNaN (.inl (isNaN_sine b k hpw))
    · right
      have hflt1 : isNaN (fmul (k + 3) (sine b (k + 2) pf) b.k.fltW1) = true :=
        isNaN_fmul_of_isNaN (.inl (isNaN_sine b (k + 2) hpf))
      exact isNaN_fmul_of_isNaN (.inl hflt1)
  have hu := isNaN_fadd_of_isNaN (k := k + 6) (b := b.k.one) (.inl hsum)
  have hhalf := isNaN_fmul_of_isNaN (k := k + 7) (b := b.k.half) (.inl hu)
  exact isNaN_fmul_of_isNaN (.inl hhalf)

theorem isNaN_rawPosition (b : Build) (k w : Nat) {mod : Word} (h : isNaN mod = true) : isNaN (rawPosition b k w mod) = true :=
  isNaN_fsub_of_isNaN (.inr (isNaN_fmul_of_isNaN (.inl h)))

theorem flt_eq_false_of_isNaN {x : Word} (h : isNaN x = true) (y : Word) : flt x y = false := by
  rw [flt, h]
  rfl

/-- The wrap loop does not move a position that is not below 0 (45_interpolator.md R232). -/
theorem wrapLoop_wrapFuel_of_not_neg {k : Nat} {len r : Word} (h : flt r 0 = false) : wrapLoop k len wrapFuel r = some r := by
  obtain ⟨n, hfuel⟩ : ∃ n, wrapFuel = n + 1 := ⟨2 ^ 31 - 1, by decide⟩
  rw [hfuel, wrapLoop_of_not_neg h]

/-- No comparison of the wrap loop holds of a NaN, so the NaN test finds it (45_interpolator.md R234, 60_exceptions.md R307). -/
theorem readTap_of_isNaN {b : Build} {k w : Nat} {mod : Word} (h : isNaN (rawPosition b k w mod) = true) :
    readTap b k w mod = .error .rposNaN := by
  unfold readTap
  rw [wrapLoop_wrapFuel_of_not_neg (flt_eq_false_of_isNaN h 0)]
  exact if_pos h

/-- Phase A's range fault ends the frame (42_frame.md R163). -/
theorem execProcess_of_error {s : State} {c : RangeCause} (hs : ¬Faulted s) (h : frameTap s = .error c) :
    execProcess s = .next (recordRangeFault c s) := by
  rw [execProcess, if_neg hs, h]

/-- Settles O28: the NaN reaches the read position, whatever the constants and the buffer's length. -/
theorem nonFinitePhaseRecordsCauseOne : Obligations.NonFinitePhaseRecordsCauseOne := by
  intro s _ _ hs hphase
  have hmod := isNaN_modAmount s.build s.draws s.depth hphase
  have htap : frameTap s = .error .rposNaN := readTap_of_isNaN (isNaN_rawPosition _ _ _ hmod)
  rw [exec_process, execProcess_of_error hs htap]
  rfl

end Sys2Proof.Machine
end

section
/-! The statements of spec/45_interpolator.md: what the raw read position decides (R231 to R235), the advance, the number and the
stall of the wrap loop's additions (R232, R233, 70_reset_and_hazards.md R350), the delay of zero (R238), and the interpolation
(R236, R237). -/

namespace Sys2Proof.Machine

/-! ## READ_TAP from the wrap loop's answer -/

theorem flt_zero_eq_false_of_fle {x : Word} (h : fle 0 x = true) : flt x 0 = false :=
  not_flt_zero_of_nonneg (orderKey_zero.symm.trans_le (orderKey_le_of_fle h))

theorem flt_eq_false_of_fle {x y : Word} (h : fle x y = true) : flt y x = false := by
  rw [Bool.eq_false_iff, Ne, flt_iff]
  rintro ⟨-, -, hlt⟩
  exact absurd (orderKey_le_of_fle h) (Int.not_le.mpr hlt)

section

variable {b : Build} {k w : Nat} {mod q : Word}

theorem readTap_of_stall (h : wrapLoop (k + 2) (nat2f (bufferLen b)) wrapFuel (rawPosition b k w mod) = none) :
    readTap b k w mod = .error .wrapStall := by
  unfold readTap
  rw [h]

variable (h : wrapLoop (k + 2) (nat2f (bufferLen b)) wrapFuel (rawPosition b k w mod) = some q)

include h

theorem readTap_of_high (hq : flt (nat2f (bufferLen b)) q = true) : readTap b k w mod = .error .rposHigh := by
  obtain ⟨-, hnan, -⟩ := (flt_iff _ _).mp hq
  unfold readTap
  rw [h]
  exact (if_neg (Bool.eq_false_iff.mp hnan)).trans (if_pos hq)

theorem readTap_of_le (hq : fle q (nat2f (bufferLen b)) = true) : readTap b k w mod = .ok (tapAt b (k + 3) q) := by
  obtain ⟨hnan, -, -⟩ := (fle_iff _ _).mp hq
  unfold readTap
  rw [h]
  exact (if_neg (Bool.eq_false_iff.mp hnan)).trans (if_neg (Bool.eq_false_iff.mp (flt_eq_false_of_fle hq)))

end

/-! ## A run of additions -/

/-- The wrap loop's addition (45_interpolator.md R232). -/
abbrev wrapAdd (k : Nat) (len : Word) : Word → Word := fun x => fadd k x len

/-- After `j` additions from `r` the position is below 0, and the next addition does not stall (45_interpolator.md R232, R233). -/
abbrev Moves (k : Nat) (len r : Word) (j : Nat) : Prop :=
  flt ((wrapAdd k len)^[j] r) 0 = true ∧ feq ((wrapAdd k len)^[j + 1] r) ((wrapAdd k len)^[j] r) = false

/-- The first `n` additions from `r` all start below 0 and do not stall. -/
abbrev Advances (k : Nat) (len r : Word) (n : Nat) : Prop := ∀ j, j < n → Moves k len r j

theorem advances_zero (k : Nat) (len r : Word) : Advances k len r 0 := fun _ hj => absurd hj (Nat.not_lt_zero _)

/-- READ_TAP after `n` additions (60_exceptions.md R307): a stalling addition, a position above `L`, a position in [0, `L`]. -/
theorem readTap_of_advances {b : Build} {k w n : Nat} {mod : Word} (hl : isFinite (nat2f (bufferLen b)) = true)
    (hc : Advances (k + 2) (nat2f (bufferLen b)) (rawPosition b k w mod) n) :
    let len := nat2f (bufferLen b)
    let add := wrapAdd (k + 2) len
    let r := rawPosition b k w mod
    (flt (add^[n] r) 0 = true → feq (add^[n + 1] r) (add^[n] r) = true → readTap b k w mod = .error .wrapStall) ∧
      (flt (add^[n] r) 0 = false → flt len (add^[n] r) = true → readTap b k w mod = .error .rposHigh) ∧
      (fle 0 (add^[n] r) = true → fle (add^[n] r) len = true →
        readTap b k w mod = .ok (tapAt b (k + 3) (add^[n] r))) := by
  obtain ⟨hdone, hstall⟩ := wrapLoop_wrapFuel_iterate hl (signOf_nat2f _) hc
  exact ⟨fun hneg heq => readTap_of_stall (hstall hneg heq), fun hnonneg => readTap_of_high (hdone hnonneg),
    fun hnonneg => readTap_of_le (hdone (flt_zero_eq_false_of_fle hnonneg))⟩

/-- An infinite word of negative sign is below 0. -/
theorem flt_zero_of_negInf {r : Word} (hi : isInf r = true) (hs : signOf r = true) : flt r 0 = true := by
  refine (flt_iff r 0).mpr ⟨not_isNaN_of_isInf hi, isNaN_zero, ?_⟩
  rw [orderKey, if_pos hs, (isInf_iff r).mp hi]
  decide

/-- Settles O25: -∞ stalls at the first addition, and the other cases without an addition are those after none. -/
theorem rawPositionDecidesTheFault : Obligations.RawPositionDecidesTheFault := by
  intro b k w mod hb r len add frame older tap
  have hl : isFinite len = true := isFinite_bufferLen hb
  have hrun := fun n => readTap_of_advances (b := b) (k := k) (w := w) (n := n) (mod := mod) hl
  obtain ⟨hstall, hhigh, hok⟩ := hrun 0 (advances_zero _ _ _)
  refine ⟨readTap_of_isNaN, fun hi hs => ?_, fun hr => ?_, hok, hrun⟩
  · have heq : feq (add r) r = true := by
      rw [show add r = r from fadd_inf_left hi hl]
      exact feq_self (not_isNaN_of_isInf hi)
    exact hstall (flt_zero_of_negInf hi hs) heq
  · obtain ⟨-, -, hlt⟩ := (flt_iff len r).mp hr
    exact hhigh (not_flt_zero_of_nonneg ((orderKey_nat2f_nonneg _).trans hlt.le)) hr

/-! ## The word above a negative one -/

/-- The word above a negative one. -/
def wordAbove (x : Word) : Word := packFloat true (magOf x - 1)

/-- The distance of a negative word from the word above, in units: one ulp of that word. -/
def gapAbove (x : Word) : Nat := 2 ^ ((magOf x - 1) / 2 ^ 23 - 1)

theorem gapAbove_pos (x : Word) : 0 < gapAbove x := Nat.two_pow_pos _

theorem magOf_sub_one_lt (x : Word) : magOf x - 1 < 2 ^ 31 := Nat.lt_of_le_of_lt (Nat.sub_le _ _) (magOf_lt x)

theorem isFinite_wordAbove {x : Word} (h : isFinite x = true) : isFinite (wordAbove x) = true := by
  rw [isFinite_iff] at h ⊢
  rw [wordAbove, magOf_packFloat (magOf_sub_one_lt x)]
  omega

theorem valueOf_neg_of_flt {x : Word} (h : flt x 0 = true) : valueOf x < 0 := by
  obtain ⟨-, -, hlt⟩ := (flt_iff x 0).mp h
  exact (valueOf_lt_iff x 0).mpr hlt

theorem valueOf_nonneg_of_not_flt {x : Word} (hx : isNaN x = false) (h : flt x 0 = false) : 0 ≤ valueOf x := by
  rw [Bool.eq_false_iff, Ne, flt_iff] at h
  exact (valueOf_le_iff 0 x).mpr (Int.not_lt.mp fun hlt => h ⟨hx, isNaN_zero, hlt⟩)

theorem valueOf_nonneg_of_sign {x : Word} (h : signOf x = false) : 0 ≤ valueOf x := by
  rw [valueOf, h]
  exact Int.natCast_nonneg _

section

variable {x y : Word} (hx : flt x 0 = true)

include hx

/-- A word below 0 has the negative sign, and its key is its magnitude turned over. -/
theorem sign_key_of_neg : signOf x = true ∧ orderKey x = -(magOf x : Int) ∧ 0 < magOf x := by
  obtain ⟨-, -, hlt⟩ := (flt_iff x 0).mp hx
  rw [orderKey_zero] at hlt
  have hs : signOf x = true := by
    by_contra hs
    exact absurd hlt (Int.not_lt.mpr (orderKey_nonneg_iff.mpr (.inl (Bool.eq_false_iff.mpr hs))))
  have hkey : orderKey x = -(magOf x : Int) := by rw [orderKey, if_pos hs]
  exact ⟨hs, hkey, by omega⟩

theorem valueOf_wordAbove : valueOf (wordAbove x) = valueOf x + gapAbove x := by
  obtain ⟨hs, -, hpos⟩ := sign_key_of_neg hx
  have hsucc := unitsOfMag_succ (magOf x - 1)
  rw [Nat.sub_add_cancel hpos] at hsucc
  rw [wordAbove, valueOf_packFloat (magOf_sub_one_lt x), if_pos rfl, valueOf, if_pos hs, unitsOf, hsucc, gapAbove]
  omega

/-- No word lies between a negative word and the word above. -/
theorem gapAbove_le (h : orderKey x < orderKey y) : (gapAbove x : Int) ≤ valueOf y - valueOf x := by
  obtain ⟨-, hkey, hpos⟩ := sign_key_of_neg hx
  have habove : orderKey (wordAbove x) ≤ orderKey y := by
    rw [wordAbove, orderKey_packFloat (magOf_sub_one_lt x), if_pos rfl]
    omega
  have hle := (valueOf_le_iff _ _).mpr habove
  rw [valueOf_wordAbove hx] at hle
  omega

/-- Nearer to 0 the words are no further apart. -/
theorem gapAbove_anti (hy : flt y 0 = true) (h : orderKey x ≤ orderKey y) : gapAbove y ≤ gapAbove x := by
  obtain ⟨-, hkx, -⟩ := sign_key_of_neg hx
  obtain ⟨-, hky, -⟩ := sign_key_of_neg hy
  exact Nat.pow_le_pow_right (by decide) (Nat.sub_le_sub_right (Nat.div_le_div_right (by omega)) 1)

end

/-! ## One addition of the wrap loop -/

/-- No finite word is nearer the exact sum than the sum (00_scope.md R16). -/
theorem fadd_nearest {k : Nat} {a b c : Word} (ha : isFinite a = true) (hb : isFinite b = true)
    (hsum : isFinite (fadd k a b) = true) (hc : isFinite c = true) :
    (valueOf a + valueOf b - valueOf (fadd k a b)).natAbs ≤ (valueOf a + valueOf b - valueOf c).natAbs := by
  obtain ⟨-, -, -, hnear⟩ := roundedFrom_fadd k ha hb
  obtain ⟨hle, -⟩ := hnear hsum c hc
  simpa only [Nat.cast_one, mul_one] using hle

section

variable {k : Nat} {len r : Word} (hl : isFinite len = true) (hs : signOf len = false) (hr : isFinite r = true)
  (hn : flt r 0 = true)

include hl hs hr hn

/-- The sum lies between `r` and `len`. -/
theorem isFinite_wrapAdd : isFinite (fadd k r len) = true := by
  have hlow := orderKey_le_fadd (k := k) hr hl hs
  have hupp : orderKey (fadd k r len) ≤ orderKey len := by
    have hneg := valueOf_neg_of_flt hn
    have hle : magOf len ≤ infMag := by rw [isFinite_iff] at hl; omega
    rw [orderKey_fadd hr hl, ← orderKey_roundValue_valueOf hle]
    exact orderKey_roundValue_mono (by omega)
  rw [isFinite_iff] at hl hr
  have hr' := orderKey_natAbs r
  have hl' := orderKey_natAbs len
  exact isFinite_of_orderKey (m := max (magOf r) (magOf len)) (by omega) (by omega) (by omega)

/-- R232: were the advance less than half of `len`, the word above the sum, or `len` itself once the sum is not below 0, would be
nearer the exact sum. -/
theorem half_len_le_advance (he : feq (fadd k r len) r = false) :
    valueOf len ≤ 2 * (valueOf (fadd k r len) - valueOf r) := by
  have hfin := isFinite_wrapAdd (k := k) hl hs hr hn
  have hup := orderKey_lt_fadd hl hs hn he
  have hneg := valueOf_neg_of_flt hn
  by_contra hlt
  cases hy : flt (fadd k r len) 0 with
  | true =>
    have hnear := fadd_nearest hr hl hfin (isFinite_wordAbove hfin)
    rw [valueOf_wordAbove hy] at hnear
    have hgap := gapAbove_le hn hup
    have hanti := gapAbove_anti hn hy hup.le
    have hpos := gapAbove_pos (fadd k r len)
    omega
  | false =>
    have hnear := fadd_nearest hr hl hfin hl
    have hnonneg := valueOf_nonneg_of_not_flt (not_isNaN_of_isFinite hfin) hy
    omega

/-- Less than half of the gap above `r` is rounded away. -/
theorem stalls_of_lt_gapAbove (h : 2 * valueOf len < gapAbove r) : feq (fadd k r len) r = true := by
  by_contra he
  have hup := orderKey_lt_fadd hl hs hn (Bool.eq_false_iff.mpr he)
  have hgap := gapAbove_le hn hup
  have hnear := fadd_nearest hr hl (isFinite_wrapAdd (k := k) hl hs hr hn) hr
  have hlen := valueOf_nonneg_of_sign hs
  omega

/-- More than half of the gap above `r` is not rounded away. -/
theorem le_gapAbove_of_stalls (h : feq (fadd k r len) r = true) : 2 * valueOf len ≤ gapAbove r := by
  obtain ⟨-, -, hkey⟩ := (feq_iff _ _).mp h
  have hsame : valueOf (fadd k r len) = valueOf r := (valueOf_eq_iff _ _).mpr hkey
  have hnear := fadd_nearest hr hl (isFinite_wrapAdd (k := k) hl hs hr hn) (isFinite_wordAbove hr)
  rw [valueOf_wordAbove hn, hsame] at hnear
  have hpos := gapAbove_pos r
  omega

end

/-! ## The stall with the reference length -/

/-- The gap above a negative word is 2^13 (2^162 units) or more below -2^36, and 2^12 or less from there on. -/
theorem gapAbove_bounds {r : Word} (hn : flt r 0 = true) :
    (flt r 0xD1800000 = true → 2 ^ 162 ≤ gapAbove r) ∧ (flt r 0xD1800000 = false → gapAbove r ≤ 2 ^ 161) := by
  obtain ⟨-, hkey, -⟩ := sign_key_of_neg hn
  obtain ⟨hnan, -, -⟩ := (flt_iff r 0).mp hn
  have hbound : orderKey 0xD1800000 = -(0x51800000 : Int) := by decide
  constructor
  · intro h
    obtain ⟨-, -, hlt⟩ := (flt_iff _ _).mp h
    exact Nat.pow_le_pow_right (by decide) (by omega)
  · intro h
    rw [Bool.eq_false_iff, Ne, flt_iff] at h
    have hle : ¬orderKey r < orderKey 0xD1800000 := fun hlt => h ⟨hnan, by decide, hlt⟩
    exact Nat.pow_le_pow_right (by decide) (by omega)

/-- R233: 3200 is less than half of 2^13 and more than half of 2^12. -/
theorem stalls_3200_iff (k : Nat) {r : Word} (hr : isFinite r = true) (hn : flt r 0 = true) :
    feq (fadd k r (nat2f 3200)) r = true ↔ flt r 0xD1800000 = true := by
  have hl : isFinite (nat2f 3200) = true := isFinite_nat2f (by decide)
  have hlen : valueOf (nat2f 3200) = 3200 * 2 ^ 149 := valueOf_nat2f (by decide)
  obtain ⟨hbelow, habove⟩ := gapAbove_bounds hn
  constructor
  · intro h
    by_contra hflt
    have hle := le_gapAbove_of_stalls hl (signOf_nat2f _) hr hn h
    have hgap := habove (Bool.eq_false_iff.mpr hflt)
    omega
  · intro h
    have hgap := hbelow h
    exact stalls_of_lt_gapAbove hl (signOf_nat2f _) hr hn (by omega)

/-- Settles O26: below -2^36 the first addition of the wrap loop stalls. -/
theorem wrapStallsExactlyBelowMinusTwoToThe36 : Obligations.WrapStallsExactlyBelowMinusTwoToThe36 := by
  refine ⟨fun k r hr hn => stalls_3200_iff k hr hn, fun b k w mod hframes hr hbelow => ?_⟩
  have hlen : bufferLen b = 3200 := by rw [bufferLen, hframes]
  have hneg : flt (rawPosition b k w mod) 0 = true := by
    obtain ⟨hnan, -, hlt⟩ := (flt_iff _ _).mp hbelow
    exact (flt_iff _ _).mpr ⟨hnan, isNaN_zero, hlt.trans (by decide)⟩
  obtain ⟨hstall, -, -⟩ := readTap_of_advances (b := b) (k := k) (w := w) (n := 0) (mod := mod)
    (by rw [hlen]; exact isFinite_nat2f (by decide)) (advances_zero _ _ _)
  refine hstall hneg ?_
  rw [hlen]
  exact (stalls_3200_iff (k + 2) hr hneg).mpr hbelow

/-! ## The number of additions -/

section

variable {k : Nat} {len r : Word} (hl : isFinite len = true) (hs : signOf len = false) (hr : isFinite r = true)

include hl hs hr

/-- `n` additions that do not stall advance by `n` halves of `len` or more. -/
theorem half_len_mul_le_advance {n : Nat} (hc : Advances k len r n) :
    isFinite ((wrapAdd k len)^[n] r) = true ∧
      (n : Int) * valueOf len ≤ 2 * (valueOf ((wrapAdd k len)^[n] r) - valueOf r) := by
  induction n with
  | zero => exact ⟨hr, by simp⟩
  | succ n ih =>
    obtain ⟨hfin, hadv⟩ := ih fun j hj => hc j (Nat.lt_succ_of_lt hj)
    obtain ⟨hneg, hmove⟩ := hc n (Nat.lt_succ_self n)
    rw [Function.iterate_succ_apply'] at hmove ⊢
    have hstep : valueOf len ≤ 2 * (valueOf (wrapAdd k len ((wrapAdd k len)^[n] r)) - valueOf ((wrapAdd k len)^[n] r)) :=
      half_len_le_advance hl hs hfin hneg hmove
    refine ⟨isFinite_wrapAdd hl hs hfin hneg, ?_⟩
    push_cast
    rw [Int.add_mul, Int.one_mul]
    omega

/-- R350: the additions so far, and one more from a position that is still below 0, number at most `2·|r| / L + 1`. -/
theorem additions_le {n : Nat} (hc : Advances k len r n) (hneg : flt ((wrapAdd k len)^[n] r) 0 = true) :
    ((n : Int) + 1) * valueOf len ≤ -2 * valueOf r + valueOf len := by
  obtain ⟨-, hadv⟩ := half_len_mul_le_advance hl hs hr hc
  have hlt := valueOf_neg_of_flt hneg
  rw [Int.add_mul, Int.one_mul]
  omega

theorem additions_le_of_advances {n : Nat} (hn : flt r 0 = true) (hlen : 0 < valueOf len) (hc : Advances k len r n) :
    (n : Int) * valueOf len ≤ -2 * valueOf r + valueOf len := by
  cases n with
  | zero =>
    have hneg := valueOf_neg_of_flt hn
    simp only [Nat.cast_zero, Int.zero_mul]
    omega
  | succ n =>
    obtain ⟨hneg, -⟩ := hc n (Nat.lt_succ_self n)
    exact_mod_cast additions_le hl hs hr (fun j hj => hc j (Nat.lt_succ_of_lt hj)) hneg

/-- R232: the additions come to an end, since their number is bounded. -/
theorem exists_last_addition (hn : flt r 0 = true) (hlen : 0 < valueOf len) :
    ∃ n, Advances k len r n ∧ ¬Moves k len r n := by
  have hex : ∃ n, ¬Moves k len r n := by
    by_contra hall
    have hbound := additions_le_of_advances (k := k) (n := 2 * (valueOf r).natAbs + 2) hl hs hr hn hlen
      fun j _ => not_exists_not.mp hall j
    have hneg := valueOf_neg_of_flt hn
    push_cast at hbound
    nlinarith [abs_of_neg hneg]
  exact ⟨Nat.find hex, fun _ hj => not_not.mp (Nat.find_min hex hj), Nat.find_spec hex⟩

end

/-- Settles O27: the loop ends with the first addition that stalls or starts at a position that is not below 0. -/
theorem wrapAdditionAdvancesHalfTheLength : Obligations.WrapAdditionAdvancesHalfTheLength := by
  intro b k r hb hr hn len add
  have hl : isFinite len = true := isFinite_bufferLen hb
  have hs : signOf len = false := signOf_nat2f _
  have hlen : 0 < valueOf len := by
    obtain ⟨hmin, hmax⟩ := bufferLen_bounds hb
    have hpos : 0 < bufferLen b := by omega
    rw [valueOf_nat2f (by omega)]
    positivity
  refine ⟨half_len_le_advance hl hs hr hn, ?_⟩
  obtain ⟨n, hc, hlast⟩ := exists_last_addition (k := k) hl hs hr hn hlen
  obtain ⟨hdone, hstall⟩ := wrapLoop_wrapFuel_iterate hl hs hc
  refine ⟨n, hc, ?_⟩
  cases hneg : flt (add^[n] r) 0 with
  | false => exact .inl ⟨rfl, hdone hneg, additions_le_of_advances hl hs hr hn hlen hc⟩
  | true =>
    have heq : feq (add^[n + 1] r) (add^[n] r) = true := by
      by_contra he
      exact hlast ⟨hneg, Bool.eq_false_iff.mpr he⟩
    exact .inr ⟨rfl, heq, hstall hneg heq, additions_le hl hs hr hc hneg⟩

/-! ## A delay of zero -/

theorem isZero_fmul_zero {k : Nat} {x z : Word} (hz : isZero z = true) (h : isNaN (fmul k x z) = false) :
    isZero (fmul k x z) = true := by
  cases hx : isFinite x with
  | true =>
    rw [fmul_zero_right hz hx]
    exact isZero_packFloat_zero
  | false =>
    rw [isNaN_fmul_zero hz hx] at h
    contradiction

/-- A depth of 0 gives a modulation amount of 0: it is no NaN (44_lfo.md R216). -/
theorem isZero_modAmount {b : Build} (hk : b.k = referenceConsts) (k : Nat) {pw pf : Word} (hpw : isFinite pw = true)
    (hpf : isFinite pf = true) : isZero (modAmount b k pw pf 0) = true := by
  have hrange := inRange_modAmount hk k (d := 0) hpw hpf (by decide)
  obtain ⟨hfin, -, -⟩ := bounds_of_inRange (by decide) hrange
  exact isZero_fmul_zero (by decide) (not_isNaN_of_isFinite hfin)

theorem isFinite_of_isZero {z : Word} (h : isZero z = true) : isFinite z = true := by
  rw [isFinite_iff, (isZero_iff z).mp h]
  decide

/-- A modulation amount of 0, of either sign, leaves the write index as the position. -/
theorem rawPosition_of_isZero {b : Build} (htwo : isFinite b.k.two = true) (k : Nat) {w : Nat} (hw : w ≤ 2 ^ 24) {mod : Word}
    (h : isZero mod = true) : rawPosition b k w mod = nat2f w := by
  have hzero : isZero (fmul k mod b.k.two) = true := by
    rw [fmul_comm]
    exact isZero_fmul_zero h (isNaN_fmul htwo (isFinite_of_isZero h))
  have hne : nat2f w ≠ 0x80000000 := fun heq => by
    have hsign := signOf_nat2f w
    rw [heq] at hsign
    exact absurd hsign (by decide)
  have hneg : isZero (negate (fmul k mod b.k.two)) = true := by rwa [isZero_iff, magOf_negate, ← isZero_iff]
  obtain ⟨-, heq, -⟩ := fadd_zero_right (k := k + 1) (not_isNaN_of_isFinite (isFinite_nat2f hw)) hneg
  rw [rawPosition, fsub_eq (not_isNaN_of_isFinite (isFinite_of_isZero hzero)), heq hne]

/-- The tap at an even whole position is its buffer frame with weight +0 (45_interpolator.md R235). -/
theorem tapAt_nat2f_two_mul {b : Build} (hhalf : b.k.half = 0x3F000000) (hb : legalBuild b = true) (k : Nat) {v : Nat}
    (hv : v < b.nFrames) :
    tapAt b k (nat2f (2 * v)) = { older := v, newer := (v + 1) % b.nFrames, weight := 0 } := by
  obtain ⟨-, hmax⟩ := legalBuild_bounds hb
  have hv' : v ≤ 2 ^ 24 := by omega
  rw [tapAt, hhalf, fmul_nat2f_half k v (by omega), floorNat_nat2f hv', fsub_self _ (isFinite_nat2f hv'), if_neg hv.ne]

/-- Settles O41: the position is `WIDX` itself, which is even and below `L`. -/
theorem zeroDepthReadsTheSampleJustWritten : Obligations.ZeroDepthReadsTheSampleJustWritten := by
  intro s c x hinv hk hdepth hpw hpf
  obtain ⟨hb, -, hwidx, hwf, -⟩ := hinv
  obtain ⟨heven, hlast⟩ := (widxLegal_iff _ _).mp hwidx
  obtain ⟨-, hmax⟩ := bufferLen_bounds hb
  obtain ⟨v, hv⟩ : ∃ v, s.widx.toNat = 2 * v := ⟨s.widx.toNat / 2, by omega⟩
  have hhalf : s.widx.toNat / 2 = v := by omega
  have hvlt : v < s.build.nFrames := by rw [bufferLen] at hlast; omega
  have hpos : rawPosition s.build (s.draws + 9) s.widx.toNat (modAmount s.build s.draws s.wowPhase s.fltPhase s.depth) =
      nat2f (2 * v) := by
    rw [hdepth, rawPosition_of_isZero (by rw [hk]; decide) _ (by omega) (isZero_modAmount hk _ hpw hpf), hv]
  have hloop : wrapLoop (s.draws + 9 + 2) (nat2f (bufferLen s.build)) wrapFuel (nat2f (2 * v)) = some (nat2f (2 * v)) :=
    wrapLoop_wrapFuel_of_not_neg (not_flt_zero_of_nonneg (orderKey_nat2f_nonneg _))
  have hle : fle (nat2f (2 * v)) (nat2f (bufferLen s.build)) = true :=
    (fle_iff _ _).mpr ⟨not_isNaN_of_isFinite (isFinite_nat2f (by omega)), not_isNaN_of_isFinite (isFinite_bufferLen hb),
      orderKey_nat2f_mono (by omega) hmax⟩
  rw [hhalf]
  constructor
  · rw [← hpos] at hloop hle
    rw [frameTap, readTap_of_le hloop hle, hpos, tapAt_nat2f_two_mul (by rw [hk]; rfl) hb _ hvlt]
  · rw [sampleWrite, slotOf, hv]
    exact memRead_memWrite_self _ x hwf

/-! ## The interpolation at weight 0 -/

section

variable {b : Build} {k : Nat} {m : Memory} {c : Channel} {t : Tap} (hone : b.k.one = 0x3F800000) (hweight : t.weight = 0)

include hone hweight

/-- At weight +0 the older sample's factor is 1.0 (45_interpolator.md R237). -/
theorem interp_weight_zero : interp b k m c t =
    fadd (k + 3) (fmul (k + 1) (memRead m (slotOf t.older c)) 0x3F800000) (fmul (k + 2) (memRead m (slotOf t.newer c)) 0) := by
  rw [interp, hone, hweight, fsub_one_zero]

theorem isNaN_interp_weight_zero (h1 : isFinite (memRead m (slotOf t.newer c)) = false) :
    isNaN (interp b k m c t) = true := by
  rw [interp_weight_zero hone hweight]
  exact isNaN_fadd_of_isNaN (.inr (isNaN_fmul_zero (by decide) h1))

/-- A zero of the newer sample's sign is added to the older one. -/
theorem interp_weight_zero_eq_older (h0 : isNaN (memRead m (slotOf t.older c)) = false)
    (h1 : isFinite (memRead m (slotOf t.newer c)) = true) :
    feq (interp b k m c t) (memRead m (slotOf t.older c)) = true ∧
      (memRead m (slotOf t.older c) ≠ 0x80000000 → interp b k m c t = memRead m (slotOf t.older c)) ∧
      (memRead m (slotOf t.older c) = 0x80000000 → signOf (memRead m (slotOf t.newer c)) = false →
        interp b k m c t = 0x00000000) := by
  obtain ⟨hfeq, heq, hzero⟩ := fadd_zero_right (k := k + 3) h0
    (isZero_packFloat_zero (n := signOf (memRead m (slotOf t.newer c)) != signOf (0 : Word)))
  rw [interp_weight_zero hone hweight, fmul_one_right h0, fmul_zero_right (by decide) h1]
  refine ⟨hfeq, heq, fun hold hnew => ?_⟩
  rw [hzero (by rw [hold]; decide), hold, hnew]
  decide

end

/-- Settles O42: the formula is `interp`'s own, with the channel's slots written out. -/
theorem weightZeroReadsTheOlderSample : Obligations.WeightZeroReadsTheOlderSample := by
  intro b k m c t n y0 y1
  have hn : n = channelNumber c := by cases c <;> rfl
  have h0 : y0 = memRead m (slotOf t.older c) := by rw [slotOf, ← hn]
  have h1 : y1 = memRead m (slotOf t.newer c) := by rw [slotOf, ← hn]
  rw [h0, h1]
  exact ⟨rfl, fun hone hweight =>
    ⟨isNaN_interp_weight_zero hone hweight, interp_weight_zero_eq_older hone hweight⟩⟩

end Sys2Proof.Machine
end

section
/-! The one-pole filter and the tone blend (46_onepole.md). -/

namespace Sys2Proof.Machine

theorem isInf_negate (x : Word) : isInf (negate x) = isInf x := by simp [isInf]

theorem fsub_inf_right {k : Nat} {a b : Word} (ha : isFinite a = true) (hb : isInf b = true) : fsub k a b = negate b := by
  rw [fsub_eq (not_isNaN_of_isInf hb), fadd_inf_right ha (by rwa [isInf_negate])]

section

variable {b : Build} {y s : Word} (k : Nat)

/-- The difference is +0, and so is its product with `K.ALPHA` up to the sign. -/
theorem onePole_feq_self (halpha : isFinite b.k.alpha = true) (hy : isFinite y = true) : feq (onePole b k y y) y = true := by
  rw [onePole, fsub_self k hy, fmul_zero_right (by decide) halpha]
  exact (fadd_zero_right (not_isNaN_of_isFinite hy) isZero_packFloat_zero).1

theorem onePole_zero (halpha : isFinite b.k.alpha = true) : onePole b k 0 0 = 0 := by
  rw [onePole, fsub_self k (by decide), fmul_zero_right (by decide) halpha]
  exact (fadd_zero_right isNaN_zero isZero_packFloat_zero).2.1 (by decide)

theorem isNaN_onePole (h : isNaN y = true ∨ isNaN s = true) : isNaN (onePole b k y s) = true :=
  isNaN_fadd_of_isNaN (.inr (isNaN_fmul_of_isNaN (.inr (isNaN_fsub_of_isNaN h.symm))))

/-- The correction is the infinity of the other sign, and the two infinities have no sum. -/
theorem isNaN_onePole_of_isInf_state (halpha : isFinite b.k.alpha = true) (hpos : signOf b.k.alpha = false)
    (hzero : isZero b.k.alpha = false) (hy : isInf y = true) (hs : isFinite s = true) : isNaN (onePole b k y s) = true := by
  have hcorrection : fmul (k + 1) b.k.alpha (fsub k s y) = packFloat (!signOf y) infMag := by
    rw [fsub_inf_right hs hy, fmul_comm, fmul_inf_left (by rwa [isInf_negate]) halpha hzero, hpos, signOf_negate,
      Bool.bne_false]
  rw [onePole, hcorrection]
  refine isNaN_fadd_inf_inf hy ((isInf_iff _).mpr (magOf_packFloat infMag_lt)) ?_
  rw [signOf_packFloat infMag_lt]
  exact Bool.self_ne_not _

end

/-- Settles O43: the formulas are the model's own; the default `K.ALPHA` is finite, positive and no zero. -/
theorem onePoleFixedPointAndNaN : Obligations.OnePoleFixedPointAndNaN := by
  intro b k y s
  refine ⟨rfl, rfl, fun halpha => ?_⟩
  have hfinite : isFinite b.k.alpha = true := by rw [halpha]; decide
  have hpos : signOf b.k.alpha = false := by rw [halpha]; decide
  have hzero : isZero b.k.alpha = false := by rw [halpha]; decide
  exact ⟨onePole_feq_self k hfinite, isNaN_onePole k, isNaN_onePole_of_isInf_state k hfinite hpos hzero,
    onePole_zero k hfinite⟩

end Sys2Proof.Machine
end

section
/-! The statements of spec/47_prng.md: the LCG step (R271), the uniform value (R272), the noise value (R273), and who advances
`SEED` (R274). -/

namespace Sys2Proof.Machine

/-! ## The LCG step -/

theorem toNat_lcgStep (b : Build) (seed : Word) :
    (lcgStep b seed).toNat = (seed.toNat * b.lcgA.toNat + b.lcgC.toNat) % 2 ^ 32 := by
  rw [lcgStep, BitVec.toNat_add, BitVec.toNat_mul, Nat.mod_add_mod]

/-- With a multiplier of 1 modulo 4 a step adds the increment, modulo 4. -/
theorem toNat_lcgStep_mod_four {b : Build} (ha : b.lcgA.toNat % 4 = 1) (seed : Word) :
    (lcgStep b seed).toNat % 4 = (seed.toNat + b.lcgC.toNat) % 4 := by
  have hdvd : 4 ∣ 2 ^ 32 := by decide
  have hmul : seed.toNat * b.lcgA.toNat % 4 = seed.toNat % 4 := by rw [Nat.mul_mod, ha, Nat.mul_one, Nat.mod_mod]
  rw [toNat_lcgStep, Nat.mod_mod_of_dvd _ hdvd, Nat.add_mod, hmul, ← Nat.add_mod]

theorem lcgStep_ne_self {b : Build} (ha : b.lcgA.toNat % 4 = 1) (hc : b.lcgC.toNat % 2 = 1) (seed : Word) :
    lcgStep b seed ≠ seed := by
  intro h
  have hmod := toNat_lcgStep_mod_four ha seed
  rw [h] at hmod
  omega

/-- Settles O32: a fixed point would make the odd increment 0 modulo 4. -/
theorem lcgStepIsExactAndHasNoFixedPoint : Obligations.LcgStepIsExactAndHasNoFixedPoint :=
  ⟨fun b seed => ⟨toNat_lcgStep b seed, fun ha hc => lcgStep_ne_self ha hc seed⟩, by decide⟩

/-! ## The uniform value -/

theorem signOf_of_orderKey_pos {x : Word} (h : 0 < orderKey x) : signOf x = false := by
  by_contra hs
  rw [orderKey, if_pos (Bool.eq_true_of_not_eq_false hs)] at h
  omega

/-- A positive key decides the word; the key 0 is that of both zeros. -/
theorem eq_of_orderKey_eq_of_pos {x y : Word} (h : orderKey x = orderKey y) (hy : 0 < orderKey y) : x = y := by
  have hmag : magOf x = magOf y := by rw [← orderKey_natAbs x, ← orderKey_natAbs y, h]
  have hsign : signOf x = signOf y := by rw [signOf_of_orderKey_pos hy, signOf_of_orderKey_pos (h ▸ hy)]
  exact eq_of_sign_mag hsign hmag

theorem inRange_i2f (s : Word) : inRange 0xCF000000 0x4F000000 (i2f (asI32 s)) = true :=
  (inRange_iff (by decide) (by decide)).mpr ⟨not_isNaN_of_isFinite (isFinite_i2f s), orderKey_i2f_bounds⟩

theorem orderKey_i2f_mono {v w : Int} (h : v ≤ w) : orderKey (i2f v) ≤ orderKey (i2f w) := by
  rw [i2f_eq_roundValue, i2f_eq_roundValue]
  exact orderKey_roundValue_mono (Int.mul_le_mul_of_nonneg_right h (by positivity))

theorem uniform_eq (k : Nat) (s : Word) : uniform k s = fmul k (i2f (asI32 s)) 0x30000000 := rfl

theorem isNaN_uniform (k : Nat) (s : Word) : isNaN (uniform k s) = false := isNaN_fmul (isFinite_i2f s) (by decide)

theorem uniform_draw_irrelevant (k : Nat) (s : Word) : uniform k s = uniform 0 s :=
  fmul_draw_irrelevant (isNaN_uniform 0 s)

/-- An `i32` converts to a word of [-2^31, 2^31], scaled by 2^-31 (47_prng.md R272). -/
theorem inRange_uniform (k : Nat) (s : Word) : inRange 0xBF800000 0x3F800000 (uniform k s) = true :=
  inRange_fmul_const (by decide) (inRange_i2f s) (by decide) (by decide +kernel) (by decide +kernel)

theorem orderKey_uniform_mono (k : Nat) {s v : Word} (h : asI32 s ≤ asI32 v) :
    orderKey (uniform k s) ≤ orderKey (uniform k v) :=
  orderKey_fmul_const_mono (isFinite_i2f s) (isFinite_i2f v) (by decide) (by decide) (orderKey_i2f_mono h)

/-- The states from 2^31 - 64 on are rounded up to 2^31 (47_prng.md R272): their values lie between the first one's, 1.0, and the
upper bound. -/
theorem uniform_top (k : Nat) {s : Word} (hlow : 0x7FFFFFC0 ≤ s.toNat) (hupp : s.toNat ≤ 0x7FFFFFFF) :
    uniform k s = 0x3F800000 := by
  have hfirst : uniform k 0x7FFFFFC0 = 0x3F800000 := (uniform_draw_irrelevant k _).trans (by decide +kernel)
  have hvalue : asI32 s = s.toNat := if_pos (by omega)
  have hle : asI32 0x7FFFFFC0 ≤ asI32 s := by
    rw [hvalue, show asI32 0x7FFFFFC0 = 0x7FFFFFC0 by decide]
    omega
  have hmono := orderKey_uniform_mono k hle
  rw [hfirst] at hmono
  obtain ⟨-, -, hbound⟩ := bounds_of_inRange (by decide) (inRange_uniform k s)
  exact eq_of_orderKey_eq_of_pos (Int.le_antisymm hbound hmono) (by decide)

/-- Settles O33: the range and the monotony are those of the conversion, kept by the scaling. -/
theorem uniformLiesInTheUnitRangeAndIsMonotone : Obligations.UniformLiesInTheUnitRangeAndIsMonotone := by
  refine ⟨fun k s => ⟨uniform_eq k s, inRange_uniform k s⟩, fun k s v h => ?_, fun k s => uniform_top k, fun k => ⟨?_, ?_⟩⟩
  · exact (fle_iff _ _).mpr ⟨isNaN_uniform k s, isNaN_uniform k v, orderKey_uniform_mono k h⟩
  · exact (uniform_draw_irrelevant k _).trans (by decide +kernel)
  · exact (uniform_draw_irrelevant k _).trans (by decide +kernel)

/-! ## The noise value -/

section

variable {b : Build} (hamp : b.k.noiseAmp = 0x3B03126F) (k : Nat)

include hamp

theorem inRange_noiseValue (s : Word) : inRange 0xBB03126F 0x3B03126F (noiseValue b k s) = true := by
  rw [noiseValue, hamp]
  exact inRange_fmul_const (by decide) (inRange_uniform k s) (by decide) (by decide +kernel) (by decide +kernel)

theorem noiseValue_zero : noiseValue b k 0 = 0 := by
  rw [noiseValue, hamp, uniform_draw_irrelevant]
  exact (fmul_draw_irrelevant (k' := 0) (by decide +kernel)).trans (by decide +kernel)

end

/-- Settles O34: a uniform value of [-1, 1] times the amplitude. -/
theorem noiseLiesWithinItsAmplitude : Obligations.NoiseLiesWithinItsAmplitude := by
  refine fun b k s => ⟨rfl, fun hamp => ?_⟩
  have hrange := inRange_noiseValue hamp k s
  obtain ⟨hfinite, -, -⟩ := bounds_of_inRange (by decide) hrange
  exact ⟨hfinite, hrange, noiseValue_zero hamp k⟩

/-! ## Who advances the generator -/

/-- One step for each channel, the left one first (47_prng.md R274). -/
theorem finishFrame_seed_eq (s : State) (tap : Tap) :
    (finishFrame s tap).seed = lcgStep s.build (lcgStep s.build s.seed) := rfl

/-- A command that steps the generator is a PROCESS that finishes its frame (47_prng.md R274). -/
theorem exec_seed_cases {i : Instr} {s t : State} (h : exec i s = .next t) (hi : i ≠ .init) :
    t.seed = s.seed ∨ (i = .process ∧ ¬Faulted s ∧ ¬Faulted t) := by
  rcases exec_cases h with rfl | ⟨rfl, -⟩ | ⟨-, rfl⟩ | ⟨-, rfl⟩ | ⟨-, rfl⟩ | ⟨rfl, hp⟩
  · exact .inl rfl
  · exact absurd rfl hi
  -- the parameter commands
  · exact .inl rfl
  · exact .inl rfl
  · exact .inl rfl
  · rcases execProcess_cases hp with ⟨-, rfl⟩ | ⟨-, c, -, rfl⟩ | ⟨hs, tap, -, -, rfl⟩
    · exact .inl rfl
    · exact .inl rfl
    · have hs : ¬Faulted s := Bool.eq_false_iff.mp hs
      exact .inr ⟨rfl, hs, hs⟩

/-- Settles O31: a PROCESS without a fault finishes its frame, and nothing else steps the generator. -/
theorem seedAdvancesTwicePerCompletedFrame : Obligations.SeedAdvancesTwicePerCompletedFrame := by
  intro i s t h hi
  refine ⟨?_, fun hnot => ?_⟩
  · rintro rfl hs ht
    obtain ⟨tap, -, rfl⟩ := finishFrame_of_unfaulted hs h ht
    exact finishFrame_seed_eq s tap
  · rcases exec_seed_cases h hi with hseed | ⟨rfl, hs, ht⟩
    · exact hseed
    · rcases hnot with hne | hs' | ht'
      · exact absurd rfl hne
      · exact absurd hs' hs
      · exact absurd ht' ht

end Sys2Proof.Machine
end

section
/-! The statements of spec/60_exceptions.md: what recording a range fault writes (R302), how a fault is cleared (R305), and that in
contract none is raised (R301, 70_reset_and_hazards.md R348). -/

namespace Sys2Proof.Machine

/-! ## Recording a range fault -/

theorem causeField_statusOfFault (c : RangeCause) : (causeField (statusOfFault c)).toNat = causeCode c := by
  cases c <;> decide

/-- Settles O22: phase A's fault ends PROCESS with `recordRangeFault`, whose word holds the two fields. -/
theorem rangeFaultWritesOnlyStatus : Obligations.RangeFaultWritesOnlyStatus := by
  intro s c hs htap
  exact ⟨execProcess_of_error hs htap, faulted_recordRangeFault c s, causeField_statusOfFault c⟩

/-! ## Clearing a range fault -/

/-- No command but INIT changes `STATUS` while a fault is recorded (60_exceptions.md R304, R305). -/
theorem exec_status_of_faulted {i : Instr} {s t : State} (hs : Faulted s) (h : exec i s = .next t) (hi : i ≠ .init) :
    t.status = s.status := by
  rcases exec_cases h with rfl | ⟨rfl, -⟩ | ⟨-, rfl⟩ | ⟨-, rfl⟩ | ⟨-, rfl⟩ | ⟨-, hp⟩
  · rfl
  · exact absurd rfl hi
  -- the parameter commands
  · rfl
  · rfl
  · rfl
  · rw [execProcess_of_faulted hs] at hp
    injection hp with ht
    rw [ht]

theorem engineInitial_hardwareReset (s : State) : EngineInitial s.build s.draws (hardwareReset s) :=
  engineInitial_initEngine s

/-- Settles O23: a reset and INIT leave the initial engine, the other commands and the host's accesses leave `STATUS` alone. -/
theorem faultStaysUntilInitOrReset : Obligations.FaultStaysUntilInitOrReset := by
  intro s t hs h
  rcases step_kinds h with ⟨hreset, -, es, rfl⟩ | ⟨hreset, i, es, r, hi, he⟩ | ⟨hreset, hcmd, ⟨hstatus, -⟩, -, -⟩
  · exact .inl ⟨.inr hreset, engineInitial_hardwareReset (s.withBus es)⟩
  · by_cases hinit : i = .init
    · subst hinit
      rw [exec_init] at he
      injection he with ht
      subst ht
      exact .inl ⟨.inl hi, engineInitial_initEngine ((s.withBus es).withReply r)⟩
    · have hstatus := exec_status_of_faulted (s := (s.withBus es).withReply r) hs he hinit
      refine .inr ⟨?_, hreset, hstatus⟩
      rw [hi]
      exact fun heq => hinit (Option.some.inj heq)
  · refine .inr ⟨?_, hreset, hstatus⟩
    rw [hcmd]
    exact fun heq => nomatch heq

/-! ## The read position in contract -/

theorem fle_of_feq {a b : Word} (h : feq a b = true) : fle a b = true := by
  obtain ⟨ha, hb, hkey⟩ := (feq_iff a b).mp h
  exact (fle_iff a b).mpr ⟨ha, hb, hkey.le⟩

theorem fle_negate {a b : Word} (h : fle a b = true) : fle (negate b) (negate a) = true := by
  obtain ⟨ha, hb, hkey⟩ := (fle_iff a b).mp h
  rw [fle_iff, isNaN_negate, isNaN_negate, orderKey_negate, orderKey_negate]
  exact ⟨hb, ha, Int.neg_le_neg hkey⟩

theorem inRange_negate {lo hi x : Word} (h : inRange lo hi x = true) : inRange (negate hi) (negate lo) (negate x) = true := by
  rw [inRange, Bool.and_eq_true] at h ⊢
  obtain ⟨hlow, hupp⟩ := h
  exact ⟨fle_negate hupp, fle_negate hlow⟩

theorem fle_of_inRange {lo hi x : Word} (h : inRange lo hi x = true) : fle x hi = true := by
  rw [inRange, Bool.and_eq_true] at h
  exact h.2

/-- The lowest read position in contract, -710.4: twice the greatest modulation amount below slot 0 (44_lfo.md R216). -/
def lowestPosition : Word := 0xC431999A

/-- A modulation amount in contract takes the position at most 710.4 slots back from the write index (45_interpolator.md R231). -/
theorem inRange_rawPosition {b : Build} (hk : b.k = referenceConsts) (k : Nat) {w : Nat} (hw : w ≤ 2 ^ 24) {mod : Word}
    (hmod : inRange 0 0x43B1999A mod = true) : inRange lowestPosition (nat2f w) (rawPosition b k w mod) = true := by
  have hfin : isFinite (nat2f w) = true := isFinite_nat2f hw
  have hnan := not_isNaN_of_isFinite hfin
  have hindex : inRange 0 (nat2f w) (nat2f w) = true :=
    (inRange_iff isNaN_zero hnan).mpr ⟨hnan, orderKey_zero.trans_le (orderKey_nat2f_nonneg w), Int.le_refl _⟩
  have hback : inRange 0 0x4431999A (fmul k mod referenceConsts.two) = true :=
    inRange_fmul_const (by decide) hmod (by decide) (by decide +kernel) (by decide +kernel)
  have hback' : inRange lowestPosition (negate 0) (negate (fmul k mod referenceConsts.two)) = true := inRange_negate hback
  obtain ⟨hzero, -, -⟩ := fadd_zero_right (k := 0) (z := negate 0) hnan (by decide)
  obtain ⟨hbackfin, -, -⟩ := bounds_of_inRange (by decide) hback
  rw [rawPosition, hk, fsub_eq (not_isNaN_of_isFinite hbackfin)]
  exact inRange_fadd ⟨by decide, hfin⟩ hindex (by decide) hback' (by decide +kernel) (fle_of_feq hzero)

/-! ## The wrap loop in contract -/

/-- An addition that does not stall is one round of the loop (45_interpolator.md R232). -/
theorem wrapLoop_of_moves {k f : Nat} {len r : Word} (hn : flt r 0 = true) (he : feq (fadd k r len) r = false) :
    wrapLoop k len (f + 1) r = wrapLoop k len f (fadd k r len) := by
  rw [wrapLoop, if_pos hn]
  exact if_neg (Bool.eq_false_iff.mp he)

section

variable {k : Nat} {len : Word} (hl : isFinite len = true) (hs : signOf len = false) {r : Word}

include hl

/-- From below 0 the sum does not pass `len`. -/
theorem orderKey_wrapAdd_le (hr : isFinite r = true) (hn : flt r 0 = true) : orderKey (fadd k r len) ≤ orderKey len := by
  have hneg := valueOf_neg_of_flt hn
  have hle : magOf len ≤ infMag := (isNaN_false_iff len).mp (not_isNaN_of_isFinite hl)
  rw [orderKey_fadd hr hl, ← orderKey_roundValue_valueOf hle]
  exact orderKey_roundValue_mono (by omega)

include hs

/-- The words are at most 2^-14 (2^135 units) apart from -710.4 up, so no addition of a length of 1 (2^149 units) or more stalls
there (60_exceptions.md R301). -/
theorem not_stalls_of_lowestPosition_le (hlen : 2 ^ 149 ≤ valueOf len) (hr : isFinite r = true) (hn : flt r 0 = true)
    (hlow : orderKey lowestPosition ≤ orderKey r) : feq (fadd k r len) r = false := by
  rw [Bool.eq_false_iff]
  intro he
  have hgap := le_gapAbove_of_stalls hl hs hr hn he
  have hanti : gapAbove r ≤ gapAbove lowestPosition := gapAbove_anti (by decide) hn hlow
  have hlowest : gapAbove lowestPosition = 2 ^ 135 := by decide +kernel
  omega

/-- An addition stays between the lowest position and `len`. -/
theorem inRange_wrapAdd (hr : inRange lowestPosition len r = true) (hn : flt r 0 = true) :
    inRange lowestPosition len (fadd k r len) = true := by
  obtain ⟨hfin, hlow, -⟩ := bounds_of_inRange ⟨by decide, hl⟩ hr
  exact (inRange_iff (by decide) (not_isNaN_of_isFinite hl)).mpr
    ⟨isNaN_fadd hfin hl, hlow.trans (orderKey_le_fadd hfin hl hs), orderKey_wrapAdd_le hl hfin hn⟩

/-- The loop ends in [0, `len`]: no addition stalls, each moves up, and none passes `len`. -/
theorem wrapLoop_ends (hlen : 2 ^ 149 ≤ valueOf len) (f : Nat) : ∀ r, inRange lowestPosition len r = true →
    -orderKey r < f → ∃ q, wrapLoop k len (f + 1) r = some q ∧ flt q 0 = false ∧ fle q len = true := by
  induction f with
  | zero =>
    intro r hr hf
    have hn : flt r 0 = false := not_flt_zero_of_nonneg (by omega)
    exact ⟨r, wrapLoop_of_not_neg hn, hn, fle_of_inRange hr⟩
  | succ f ih =>
    intro r hr hf
    cases hn : flt r 0 with
    | false => exact ⟨r, wrapLoop_of_not_neg hn, hn, fle_of_inRange hr⟩
    | true =>
      obtain ⟨hfin, hlow, -⟩ := bounds_of_inRange ⟨by decide, hl⟩ hr
      have he := not_stalls_of_lowestPosition_le (k := k) hl hs hlen hfin hn hlow
      have hup := orderKey_lt_fadd hl hs hn he
      rw [wrapLoop_of_moves hn he]
      exact ih _ (inRange_wrapAdd hl hs hr hn) (by omega)

/-- With a length of 712 (`N_FRAMES` = 356) or more, one addition brings the lowest position to 0 or above
(70_reset_and_hazards.md R348). -/
theorem wrapLoop_of_long (hlong : orderKey (nat2f 712) ≤ orderKey len) (hr : inRange lowestPosition len r = true) :
    wrapLoop k len wrapFuel r = some (if flt r 0 then fadd k r len else r) := by
  cases hn : flt r 0 with
  | false => exact wrapLoop_wrapFuel_of_not_neg hn
  | true =>
    obtain ⟨hfin, hlow, -⟩ := bounds_of_inRange ⟨by decide, hl⟩ hr
    have hlen : 2 ^ 149 ≤ valueOf len := by
      have h712 := (valueOf_le_iff _ _).mpr hlong
      rw [valueOf_nat2f (by decide)] at h712
      omega
    have he := not_stalls_of_lowestPosition_le (k := k) hl hs hlen hfin hn hlow
    have hsum : 0 ≤ orderKey (fadd k r len) :=
      calc 0 ≤ orderKey (fadd 0 lowestPosition (nat2f 712)) := by decide +kernel
        _ ≤ orderKey (fadd k r len) :=
          orderKey_fadd_mono (by decide) (isFinite_nat2f (by decide)) hfin hl hlow hlong
    obtain ⟨n, hfuel⟩ : ∃ n, wrapFuel = n + 1 + 1 := ⟨2 ^ 31 - 2, by decide⟩
    rw [hfuel, wrapLoop_of_moves hn he, wrapLoop_of_not_neg (not_flt_zero_of_nonneg hsum), if_pos rfl]

end

/-! ## PROCESS in contract -/

theorem isFinite_of_phaseInRange {b : Build} {p : Word} (h : phaseInRange b p = true) : isFinite p = true := by
  rw [phaseInRange, Bool.and_eq_true] at h
  obtain ⟨hlow, hupp⟩ := h
  exact isFinite_of_bounds hlow hupp

section

variable {s : State} (hinv : MachineInv s) (hk : s.build.k = referenceConsts) (hs : InContract s)

include hinv hk hs

theorem inRange_framePosition : inRange lowestPosition (nat2f (bufferLen s.build)) (framePosition s) = true := by
  obtain ⟨hb, -, hwidx, -⟩ := hinv
  obtain ⟨-, hlast⟩ := (widxLegal_iff _ _).mp hwidx
  obtain ⟨-, hmax⟩ := bufferLen_bounds hb
  obtain ⟨-, hdepth, -, -, -, hwow, hflt⟩ := hs
  have hmod := inRange_modAmount hk s.draws (isFinite_of_phaseInRange hwow) (isFinite_of_phaseInRange hflt) hdepth
  have hpos : inRange lowestPosition (nat2f s.widx.toNat) (framePosition s) = true :=
    inRange_rawPosition hk (s.draws + 9) (by omega) hmod
  obtain ⟨hfin, hlow, hupp⟩ := bounds_of_inRange ⟨by decide, isFinite_nat2f (by omega)⟩ hpos
  exact (inRange_iff (by decide) (not_isNaN_of_isFinite (isFinite_bufferLen hb))).mpr
    ⟨not_isNaN_of_isFinite hfin, hlow, hupp.trans (orderKey_nat2f_mono (by omega) (by omega))⟩

/-- In contract READ_TAP wraps the position into [0, `L`] (60_exceptions.md R301). -/
theorem frameTap_of_inContract :
    ∃ q, wrapLoop (s.draws + 11) (nat2f (bufferLen s.build)) wrapFuel (framePosition s) = some q ∧
      frameTap s = .ok (tapAt s.build (s.draws + 12) q) ∧
      frameSlotsExist s.build s.widx.toNat (tapAt s.build (s.draws + 12) q) = true := by
  have hpos := inRange_framePosition hinv hk hs
  obtain ⟨hb, -, hwidx, -⟩ := hinv
  obtain ⟨hmin, hmax⟩ := bufferLen_bounds hb
  have hl := isFinite_bufferLen hb
  have hlen : 2 ^ 149 ≤ valueOf (nat2f (bufferLen s.build)) := by
    rw [valueOf_nat2f (by omega)]
    omega
  have hkey : -orderKey (framePosition s) < (2 ^ 31 - 1 : Nat) := by
    obtain ⟨-, hlow, -⟩ := bounds_of_inRange ⟨by decide, hl⟩ hpos
    rw [show orderKey lowestPosition = -0x4431999A by decide] at hlow
    omega
  obtain ⟨q, hloop, hn, hq⟩ := wrapLoop_ends (k := s.draws + 11) hl (signOf_nat2f _) hlen (2 ^ 31 - 1) _ hpos hkey
  obtain ⟨hnan, -, -⟩ := (fle_iff _ _).mp hq
  have hframes := tapAt_frames_lt (s.draws + 12) hb (by rw [hk]; rfl) hnan hn (flt_eq_false_of_fle hq)
  exact ⟨q, hloop, readTap_of_le hloop hq, frameSlotsExist_of_lt hwidx hframes⟩

end

/-- Settles O45: READ_TAP gives a tap inside the buffer, and from `N_FRAMES` = 356 on its position is that after at most one
addition. -/
theorem inContractProcessCompletesWithoutFault : Obligations.InContractProcessCompletesWithoutFault := by
  intro s hinv hk hs hf
  obtain ⟨q, hloop, htap, hslots⟩ := frameTap_of_inContract hinv hk hs
  refine ⟨finishFrame s _, _, htap, execProcess_of_tap hf htap hslots, rfl, hf, fun hframes => ?_⟩
  have hpos := inRange_framePosition hinv hk hs
  obtain ⟨hb, -⟩ := hinv
  obtain ⟨-, hmax⟩ := bufferLen_bounds hb
  have hlong : orderKey (nat2f 712) ≤ orderKey (nat2f (bufferLen s.build)) :=
    orderKey_nat2f_mono (by unfold bufferLen; omega) (by omega)
  rw [wrapLoop_of_long (isFinite_bufferLen hb) (signOf_nat2f _) hlong hpos] at hloop
  rw [Option.some.inj hloop]

end Sys2Proof.Machine
end

section
/-! The statements of spec/70_reset_and_hazards.md: the hardware reset (R340, R341), and the bound discipline (R348). -/

namespace Sys2Proof.Machine

/-! ## The hardware reset -/

/-- The reset takes effect whatever accesses were stalled (70_reset_and_hazards.md R340). -/
theorem step_reset {s : State} {stalled : List Access} {es : List HostEvent} (h : s.bus = .reset stalled :: es) :
    step s = .next (hardwareReset (s.withBus es)) := by
  rw [step, nextStep, h]
  rfl

/-- Settles O14: `hardwareReset` is INIT's engine with the host's registers cleared. -/
theorem hardwareResetEvent : Obligations.HardwareResetEvent := fun s _ es h =>
  ⟨hardwareReset (s.withBus es), initEngine (s.withBus es), step_reset h, exec_init _,
    engineInitial_hardwareReset (s.withBus es), rfl⟩

/-! ## The increments of a rate in contract -/

section

variable {k k' : Nat} {x y c : Word} (hc : isFinite c = true) (hz : isZero c = false)

include hc hz

theorem magOf_fdiv_mono (hy : isFinite y = true) (h : magOf x ≤ magOf y) : magOf (fdiv k x c) ≤ magOf (fdiv k' y c) := by
  have hx : isFinite x = true := isFinite_of_magOf_le h ((isFinite_iff y).mp hy)
  rw [fdiv_eq hx hc hz, fdiv_eq hy hc hz, magOf_packFloat (roundMag_lt _ _), magOf_packFloat (roundMag_lt _ _)]
  exact roundMag_mono (unitsOf_pos hz) (unitsOf_pos hz) (Nat.mul_le_mul_right _ (Nat.mul_le_mul_right _ (unitsOf_mono h)))

theorem orderKey_fdiv_nonneg (hs : signOf c = false) (hx : isFinite x = true) (h : 0 ≤ orderKey x) :
    0 ≤ orderKey (fdiv k x c) := by
  rw [orderKey_nonneg_iff] at h ⊢
  rw [fdiv_eq hx hc hz, signOf_packFloat (roundMag_lt _ _), magOf_packFloat (roundMag_lt _ _), hs, Bool.bne_false]
  refine h.imp_right fun hmag => ?_
  rw [unitsOf, hmag, unitsOfMag_zero, Nat.zero_mul, roundMag_zero]

/-- The quotient of a range from 0 on by a positive constant. -/
theorem inRange_fdiv_const (hs : signOf c = false) {hi h : Word} (hhi : isFinite hi = true) (hx : inRange 0 hi x = true)
    (hh : fle (fdiv 0 hi c) h = true) : inRange 0 h (fdiv k x c) = true := by
  obtain ⟨hxf, hx0, hxu⟩ := bounds_of_inRange ⟨by decide, hhi⟩ hx
  rw [orderKey_zero] at hx0
  have hmag : magOf x ≤ magOf hi := by
    rw [orderKey_of_nonneg (hx0.trans hxu)] at hxu
    exact magOf_le_of_orderKey hx0 hxu
  have hnonneg : 0 ≤ orderKey (fdiv k x c) := orderKey_fdiv_nonneg hc hz hs hxf hx0
  have hnonneg' : 0 ≤ orderKey (fdiv 0 hi c) := orderKey_fdiv_nonneg hc hz hs hhi (hx0.trans hxu)
  have hle : orderKey (fdiv k x c) ≤ orderKey (fdiv 0 hi c) := by
    rw [orderKey_of_nonneg hnonneg']
    exact (orderKey_bounds_of_magOf (magOf_fdiv_mono hc hz hhi hmag)).2
  have hnan : isNaN (fdiv k x c) = false := by rw [isNaN_fdiv_const hc hz, not_isNaN_of_isFinite hxf]
  exact inRange_of_fle (a := 0) hnan hnonneg hle (by decide) hh

end

/-- A rate of [0.1, 3] steps the wow phase by at most 2π × 3 over 48000 (41_parameters.md R144). -/
theorem inRange_wowIncOf {b : Build} (hk : b.k = referenceConsts) (k : Nat) {r : Word}
    (hr : inRange 0x3DCCCCCD 0x40400000 r = true) : inRange 0 0x3F800000 (wowIncOf b k r) = true := by
  have hangle : inRange 0 0x4196CBE4 (fmul k r referenceConsts.twoPi) = true :=
    inRange_fmul_const (by decide) hr (by decide) (by decide +kernel) (by decide +kernel)
  rw [wowIncOf, hk, fmul_comm]
  exact inRange_fdiv_const (by decide) (by decide) (by decide) (by decide) hangle (by decide +kernel)

/-- The flutter oscillator is twelve times as fast (41_parameters.md R144). -/
theorem inRange_fltIncOf {b : Build} (hk : b.k = referenceConsts) (k : Nat) {r : Word}
    (hr : inRange 0x3DCCCCCD 0x40400000 r = true) : inRange 0 0x3F800000 (fltIncOf b k r) = true := by
  have hrate : inRange 0 0x42100000 (fmul k r referenceConsts.fltRatio) = true :=
    inRange_fmul_const (by decide) hr (by decide) (by decide +kernel) (by decide +kernel)
  have hangle : inRange 0 0x43700000 (fmul (k + 1) (fmul k r referenceConsts.fltRatio) referenceConsts.twoPi) = true :=
    inRange_fmul_const (by decide) hrate (by decide) (by decide +kernel) (by decide +kernel)
  rw [fltIncOf, hk, fmul_comm (k + 1)]
  exact inRange_fdiv_const (by decide) (by decide) (by decide) (by decide) hangle (by decide +kernel)

/-! ## What keeps the contract -/

theorem inContract_of_sameEngine {s t : State} (hs : InContract s) (hb : t.build = s.build) (he : SameEngine s t) :
    InContract t := by
  obtain ⟨-, -, -, hrate, hwowInc, hfltInc, hdepth, hmix, hwow, hflt, -⟩ := he
  rw [InContract, hb, hrate, hwowInc, hfltInc, hdepth, hmix, hwow, hflt]
  exact hs

/-- The defaults are in contract, whatever the NaN draws that INIT starts from (10_state.md R45, R54). -/
theorem inContract_initEngine {s : State} (hk : s.build.k = referenceConsts) : InContract (initEngine s) := by
  have hwow : wowIncOf s.build s.draws s.build.k.rateDef = wowIncOf s.build 0 s.build.k.rateDef := by
    rw [hk, wowIncOf_default hk, wowIncOf_default hk]
  have hflt : fltIncOf s.build (s.draws + 2) s.build.k.rateDef = fltIncOf s.build 0 s.build.k.rateDef := by
    rw [hk, fltIncOf_default hk, fltIncOf_default hk]
  have hphase : phaseInRange s.build 0 = true := by
    rw [phaseInRange, hk]
    decide
  refine ⟨?_, ?_, ?_, hwow, hflt, hphase, hphase⟩
  · rw [initEngine_rate, hk]
    decide
  · rw [initEngine_depth, hk]
    decide
  · rw [initEngine_mix, hk]
    decide

/-- A frame moves the phases by the increments of a rate in contract, and keeps the coefficients (44_lfo.md R219). -/
theorem inContract_finishFrame {s : State} (hk : s.build.k = referenceConsts) (hs : InContract s) (tap : Tap) :
    InContract (finishFrame s tap) := by
  obtain ⟨hrate, hdepth, hmix, hwowInc, hfltInc, hwow, hflt⟩ := hs
  have htwoPi : s.build.k.twoPi = 0x40C90FDB := by rw [hk]; rfl
  have hwowStep : inRange 0 0x3F800000 s.wowInc = true := by
    rw [hwowInc]
    exact inRange_wowIncOf hk 0 hrate
  have hfltStep : inRange 0 0x3F800000 s.fltInc = true := by
    rw [hfltInc]
    exact inRange_fltIncOf hk 0 hrate
  exact ⟨hrate, hdepth, hmix, hwowInc, hfltInc, phaseStepStaysInRange _ _ _ _ htwoPi hwow hwowStep,
    phaseStepStaysInRange _ _ _ _ htwoPi hflt hfltStep⟩

/-! ## The bound discipline -/

section

variable {s : State} (hinv : MachineInv s) (hk : s.build.k = referenceConsts) (hs : InContract s) (hf : ¬Faulted s)

include hinv hk hs hf

/-- In contract no command records a fault: only PROCESS could, and its tap read succeeds (60_exceptions.md R301). -/
theorem not_faulted_exec {i : Instr} {t : State} (h : exec i s = .next t) : ¬Faulted t := by
  intro ht
  obtain ⟨-, c, hc, -⟩ := exec_records_fault hf h ht
  obtain ⟨q, -, htap, -⟩ := frameTap_of_inContract hinv hk hs
  rw [htap] at hc
  contradiction

/-- A command keeps the contract, a parameter command with a value in [0, 1] (70_reset_and_hazards.md R348). -/
theorem inContract_exec {i : Instr} {t : State}
    (hv : i = .setpRate ∨ i = .setpDepth ∨ i = .setpMix → unitValue s.arg0 = true) (h : exec i s = .next t) : InContract t := by
  have ht := not_faulted_exec hinv hk hs hf h
  rcases exec_cases h with rfl | ⟨-, rfl⟩ | ⟨hi, rfl⟩ | ⟨hi, rfl⟩ | ⟨hi, rfl⟩ | ⟨rfl, -⟩
  · exact hs
  · exact inContract_initEngine hk
  · exact inContract_storeRate hs hk (inRange_rateOf hk (hv (.inl hi)) _) _ _
  · exact inContract_storeDepth hs (inRange_depthOf hk (hv (.inr (.inl hi))) _) _
  · exact inContract_storeMix hs (hv (.inr (.inr hi)))
  · obtain ⟨tap, -, rfl⟩ := finishFrame_of_unfaulted hf h ht
    exact inContract_finishFrame hk hs tap

end

/-- Settles O48: a reset leaves the defaults, a command keeps the contract by the lemmas above, and any other event leaves the
engine alone. -/
theorem boundDisciplineKeepsTheContract : Obligations.BoundDisciplineKeepsTheContract := by
  intro s t hinv hk hs hf hv h
  rcases step_kinds h with ⟨-, -, es, rfl⟩ | ⟨-, i, es, r, hi, he⟩ | ⟨-, -, hsame, hb, -⟩
  · exact ⟨inContract_initEngine (s := s.withBus es) hk, not_faulted_initEngine (s.withBus es)⟩
  · rw [hi, Option.some.injEq, Option.some.injEq, Option.some.injEq] at hv
    -- taking the event and answering it changes only `bus` and `reply`
    exact ⟨inContract_exec (s := (s.withBus es).withReply r) hinv hk hs hf hv he,
      not_faulted_exec (s := (s.withBus es).withReply r) hinv hk hs hf he⟩
  · refine ⟨inContract_of_sameEngine hs hb hsame, ?_⟩
    obtain ⟨hstatus, -⟩ := hsame
    rwa [Faulted, hstatus]

end Sys2Proof.Machine
end
